-- ==== Sys2Proof/Word.lean ====
section
/-! DEFINITION. The word and byte types of the Zip CPU (00_scope.md R6, R12). -/

namespace Sys2Proof

/-- A 32-bit pattern: a register, a bus word, an instruction word, an address (R6). -/
abbrev Word := BitVec 32

/-- One memory cell of the model, a quarter of a bus word (log 6). -/
abbrev Byte := BitVec 8

end Sys2Proof
end

