-- ==== Sys2Proof/Syntax.lean ====
section
/-! DEFINITION. The instructions of the Zip CPU: one constructor for each row of
spec/opcode_table.json. -/

namespace Sys2Proof

/-- A register field: R0 to R13 (R13 is SP), CC (register 14) or PC (register 15)
(10_state.md R21 to R23). -/
inductive Reg where
  | gpr (i : Fin 14)
  | cc
  | pc
deriving DecidableEq, Repr

/-- The eight conditions (30_encoding.md R111), in the order of their codes 0 to 7. -/
inductive Cond where
  | always
  | lt
  | z
  | nz
  | gt
  | ge
  | c
  | v
deriving DecidableEq, Repr

/-- Operand B of the Standard format (30_encoding.md R102, R106): an 18-bit immediate, or a register
and a 14-bit offset. -/
inductive OpB where
  | imm (i : BitVec 18)
  | reg (r : Reg) (off : BitVec 14)
deriving DecidableEq, Repr

/-- One half of a compact word (30_encoding.md R115): its register, its five opcode bits, its
selector bit and its four operand bits, as they stand in the word. -/
structure Half where
  dr : Reg
  op : BitVec 5
  sel : Bool
  f : BitVec 4
deriving DecidableEq, Repr

/-- The instructions. In the Standard format `cnd` is the condition, `dr` the register field of bits
30..27 and `b` Operand B. -/
inductive Instr where
  /-- A compact word: two halves and the VCND field between them (R115). -/
  | vliw (h1 : Half) (vcnd : BitVec 3) (h2 : Half)
  /-- NOOP; `x` is the ignored Operand B field (R241, R129). -/
  | noop (cnd : Cond) (x : BitVec 19)
  /-- BREAK; `x` is free for a debugger (R243, R244). -/
  | brk (cnd : Cond) (x : BitVec 19)
  /-- LOCK; `x` is the ignored Operand B field (R225, R129). -/
  | lock (cnd : Cond) (x : BitVec 19)
  /-- Opcode 5'h18 with DR = CC (R245). -/
  | reserved18Cc (cnd : Cond) (x : BitVec 19)
  /-- Opcode 5'h19 with DR = CC (R245). -/
  | reserved19Cc (cnd : Cond) (x : BitVec 19)
  /-- Opcode 5'h1a with DR = CC (R245). -/
  | reserved1aCc (cnd : Cond) (x : BitVec 19)
  /-- R141 -/
  | sub (cnd : Cond) (dr : Reg) (b : OpB)
  /-- R142 -/
  | and (cnd : Cond) (dr : Reg) (b : OpB)
  /-- R143 -/
  | add (cnd : Cond) (dr : Reg) (b : OpB)
  /-- R144 -/
  | or (cnd : Cond) (dr : Reg) (b : OpB)
  /-- R145 -/
  | xor (cnd : Cond) (dr : Reg) (b : OpB)
  /-- R161 -/
  | lsr (cnd : Cond) (dr : Reg) (b : OpB)
  /-- R162 -/
  | lsl (cnd : Cond) (dr : Reg) (b : OpB)
  /-- R163 -/
  | asr (cnd : Cond) (dr : Reg) (b : OpB)
  /-- R181 -/
  | mpy (cnd : Cond) (dr : Reg) (b : OpB)
  /-- R201 -/
  | ldilo (cnd : Cond) (dr : Reg) (b : OpB)
  /-- R182 -/
  | mpyuhi (cnd : Cond) (dr : Reg) (b : OpB)
  /-- R183 -/
  | mpyshi (cnd : Cond) (dr : Reg) (b : OpB)
  /-- R165 -/
  | brev (cnd : Cond) (dr : Reg) (b : OpB)
  /-- R166 -/
  | popc (cnd : Cond) (dr : Reg) (b : OpB)
  /-- R164 -/
  | rol (cnd : Cond) (dr : Reg) (b : OpB)
  /-- MOV: `a` and `bu` are the bits A and B, the register set of DR and of BR (R103, R203). -/
  | mov (cnd : Cond) (dr : Reg) (a : Bool) (br : Reg) (bu : Bool) (off : BitVec 13)
  /-- R146 -/
  | cmp (cnd : Cond) (dr : Reg) (b : OpB)
  /-- R147 -/
  | tst (cnd : Cond) (dr : Reg) (b : OpB)
  /-- R220 -/
  | lod (cnd : Cond) (dr : Reg) (b : OpB)
  /-- R221; `dr` is the register stored. -/
  | sto (cnd : Cond) (dr : Reg) (b : OpB)
  /-- R184 -/
  | divu (cnd : Cond) (dr : Reg) (b : OpB)
  /-- R185 -/
  | divs (cnd : Cond) (dr : Reg) (b : OpB)
  /-- LDI: no condition field (R104, R205). -/
  | ldi (dr : Reg) (i : BitVec 23)
  /-- R246; DR is one of R0 to R13 (see Instr.wf). -/
  | fpadd (cnd : Cond) (dr : Reg) (b : OpB)
  /-- R247; DR is one of R0 to R13 (see Instr.wf). -/
  | fpsub (cnd : Cond) (dr : Reg) (b : OpB)
  /-- R248; DR is one of R0 to R13 (see Instr.wf). -/
  | fpmpy (cnd : Cond) (dr : Reg) (b : OpB)
  /-- R249 -/
  | fpdiv (cnd : Cond) (dr : Reg) (b : OpB)
  /-- R250 -/
  | fpcvt (cnd : Cond) (dr : Reg) (b : OpB)
  /-- R251 -/
  | fpint (cnd : Cond) (dr : Reg) (b : OpB)
  /-- R252 -/
  | reserved1e (cnd : Cond) (dr : Reg) (b : OpB)
  /-- R253 -/
  | reserved1f (cnd : Cond) (dr : Reg) (b : OpB)
deriving DecidableEq, Repr

end Sys2Proof
end

