-- ==== Sys2Proof/WellFormed.lean ====
section
/-! DEFINITION. Which terms of Instr are instructions: the checks an encoding puts on an operand that
its type does not. -/

namespace Sys2Proof

/-- The register is one of R0 to R13. -/
def Reg.isGpr : Reg → Bool
  | .gpr _ => true
  | .cc => false
  | .pc => false

/-- The opcodes 5'h18 to 5'h1a are floating-point instructions only with DR in 0..13: with DR = 14
and DR = 15 the words are other rows of the table (30_encoding.md R126, R128). Every other field of
every other instruction takes every value its type has. -/
def Instr.wf : Instr → Bool
  | .fpadd _ dr _ => dr.isGpr
  | .fpsub _ dr _ => dr.isGpr
  | .fpmpy _ dr _ => dr.isGpr
  | .vliw _ _ _ => true
  | .noop _ _ => true
  | .brk _ _ => true
  | .lock _ _ => true
  | .reserved18Cc _ _ => true
  | .reserved19Cc _ _ => true
  | .reserved1aCc _ _ => true
  | .sub _ _ _ => true
  | .and _ _ _ => true
  | .add _ _ _ => true
  | .or _ _ _ => true
  | .xor _ _ _ => true
  | .lsr _ _ _ => true
  | .lsl _ _ _ => true
  | .asr _ _ _ => true
  | .mpy _ _ _ => true
  | .ldilo _ _ _ => true
  | .mpyuhi _ _ _ => true
  | .mpyshi _ _ _ => true
  | .brev _ _ _ => true
  | .popc _ _ _ => true
  | .rol _ _ _ => true
  | .mov _ _ _ _ _ _ => true
  | .cmp _ _ _ => true
  | .tst _ _ _ => true
  | .lod _ _ _ => true
  | .sto _ _ _ => true
  | .divu _ _ _ => true
  | .divs _ _ _ => true
  | .ldi _ _ => true
  | .fpdiv _ _ _ => true
  | .fpcvt _ _ _ => true
  | .fpint _ _ _ => true
  | .reserved1e _ _ _ => true
  | .reserved1f _ _ _ => true

end Sys2Proof
end

