-- ==== Sys2Proof/Decode.lean ====
section
/-! DEFINITION. Decoding and encoding (30_encoding.md). Every 32-bit word is exactly one instruction
(R128); the only input the decoder rejects is one shorter than a word. -/

namespace Sys2Proof

/-- Why a list of bytes holds no instruction. -/
inductive DecodeError where
  /-- Fewer than the four bytes of a word. Raised by `decode`; safe: a fetch always yields a word. -/
  | truncated
deriving DecidableEq, Repr

/-! ### Bytes and words -/

/-- The four bytes of a word as the model stores them, the least significant first. DESIGN CHOICE,
log 6: the machine has no byte order (20_memory.md R75, D36). -/
def wordBytes (w : Word) : List Byte :=
  [w.extractLsb' 0 8, w.extractLsb' 8 8, w.extractLsb' 16 8, w.extractLsb' 24 8]

/-- The word of four bytes stored in the order of `wordBytes`. -/
def bytesWord (b0 b1 b2 b3 : Byte) : Word := b3 ++ b2 ++ b1 ++ b0

/-! ### Fields -/

/-- A register number (10_state.md R23). -/
def Reg.ofBits (b : BitVec 4) : Reg :=
  if h : b.toNat < 14 then .gpr ⟨b.toNat, h⟩ else if b.toNat = 14 then .cc else .pc

/-- The number of a register. -/
def Reg.bits : Reg → BitVec 4
  | .gpr i => BitVec.ofNat 4 i.val
  | .cc => 14#4
  | .pc => 15#4

/-- The condition of a CND field (R111). -/
def Cond.ofBits (b : BitVec 3) : Cond :=
  match b.toNat with
  | 0 => .always
  | 1 => .lt
  | 2 => .z
  | 3 => .nz
  | 4 => .gt
  | 5 => .ge
  | 6 => .c
  | _ => .v

/-- The CND field of a condition (R111). -/
def Cond.bits : Cond → BitVec 3
  | .always => 0#3
  | .lt => 1#3
  | .z => 2#3
  | .nz => 3#3
  | .gt => 4#3
  | .ge => 5#3
  | .c => 6#3
  | .v => 7#3

/-- Operand B of a 19-bit field: bit 18 selects the form (R106). -/
def OpB.ofBits (b : BitVec 19) : OpB :=
  if b.getLsbD 18 then .reg (Reg.ofBits (b.extractLsb' 14 4)) (b.extractLsb' 0 14)
  else .imm (b.extractLsb' 0 18)

/-- The 19-bit field of an Operand B (R106). -/
def OpB.bits : OpB → BitVec 19
  | .imm i => 0#1 ++ i
  | .reg r off => 1#1 ++ r.bits ++ off

/-- The register, opcode, condition and Operand B fields of a one-instruction word (R102, R105). -/
def drField (w : Word) : Reg := Reg.ofBits (w.extractLsb' 27 4)
def opField (w : Word) : BitVec 5 := w.extractLsb' 22 5
def cndField (w : Word) : Cond := Cond.ofBits (w.extractLsb' 19 3)
def opBField (w : Word) : OpB := OpB.ofBits (w.extractLsb' 0 19)

/-! ### Decoding one word -/

/-- The two halves and the VCND field of a compact word (R115). -/
def decodeCompact (w : Word) : Instr :=
  .vliw
    { dr := drField w, op := opField w, sel := w.getLsbD 18, f := w.extractLsb' 14 4 }
    (w.extractLsb' 19 3)
    { dr := Reg.ofBits (w.extractLsb' 10 4), op := w.extractLsb' 5 5, sel := w.getLsbD 4,
      f := w.extractLsb' 0 4 }

/-- MOV's fields (R103). -/
def decodeMov (w : Word) : Instr :=
  .mov (cndField w) (drField w) (w.getLsbD 18) (Reg.ofBits (w.extractLsb' 14 4)) (w.getLsbD 13)
    (w.extractLsb' 0 13)

/-- The opcodes shared by NOOP, BREAK, LOCK and a floating-point instruction: DR tells them apart
(R126, R128). -/
def decodeShared (w : Word) (onPc onCc : Cond → BitVec 19 → Instr)
    (onGpr : Cond → Reg → OpB → Instr) : Instr :=
  match drField w with
  | .pc => onPc (cndField w) (w.extractLsb' 0 19)
  | .cc => onCc (cndField w) (w.extractLsb' 0 19)
  | .gpr i => onGpr (cndField w) (.gpr i) (opBField w)

/-- A Standard format word (R102). -/
def decodeStd (w : Word) (mk : Cond → Reg → OpB → Instr) : Instr :=
  mk (cndField w) (drField w) (opBField w)

/-- The instruction of a word with bit 31 = 0: the opcode map (R125, R110). -/
def decodeSingle (w : Word) : Instr :=
  match (opField w).toNat with
  | 0x00 => decodeStd w .sub
  | 0x01 => decodeStd w .and
  | 0x02 => decodeStd w .add
  | 0x03 => decodeStd w .or
  | 0x04 => decodeStd w .xor
  | 0x05 => decodeStd w .lsr
  | 0x06 => decodeStd w .lsl
  | 0x07 => decodeStd w .asr
  | 0x08 => decodeStd w .mpy
  | 0x09 => decodeStd w .ldilo
  | 0x0a => decodeStd w .mpyuhi
  | 0x0b => decodeStd w .mpyshi
  | 0x0c => decodeStd w .brev
  | 0x0d => decodeStd w .popc
  | 0x0e => decodeStd w .rol
  | 0x0f => decodeMov w
  | 0x10 => decodeStd w .cmp
  | 0x11 => decodeStd w .tst
  | 0x12 => decodeStd w .lod
  | 0x13 => decodeStd w .sto
  | 0x14 => decodeStd w .divu
  | 0x15 => decodeStd w .divs
  | 0x16 => .ldi (drField w) (w.extractLsb' 0 23)
  | 0x17 => .ldi (drField w) (w.extractLsb' 0 23)
  | 0x18 => decodeShared w .noop .reserved18Cc .fpadd
  | 0x19 => decodeShared w .brk .reserved19Cc .fpsub
  | 0x1a => decodeShared w .lock .reserved1aCc .fpmpy
  | 0x1b => decodeStd w .fpdiv
  | 0x1c => decodeStd w .fpcvt
  | 0x1d => decodeStd w .fpint
  | 0x1e => decodeStd w .reserved1e
  | _ => decodeStd w .reserved1f

/-- The instruction of a word: bit 31 selects the family of formats (R100). -/
def decodeWord (w : Word) : Instr :=
  if w.getLsbD 31 then decodeCompact w else decodeSingle w

/-- The instruction at the front of a list of bytes, and the bytes after it. -/
def decode : List Byte → Except DecodeError (Instr × List Byte)
  | b0 :: b1 :: b2 :: b3 :: rest => .ok (decodeWord (bytesWord b0 b1 b2 b3), rest)
  | _ => .error .truncated

/-- The instruction the decoder reads from the word whose bits are `w` (bits at and above `nbits`
are zero). -/
def decodeTableWord (nbits w : Nat) : Option Instr :=
  match decode (wordBytes (BitVec.ofNat 32 (w % 2 ^ nbits))) with
  | .ok (i, _) => some i
  | .error _ => none

/-! ### Encoding -/

/-- A Standard format word from its fields (R102). -/
def stdWord (op : BitVec 5) (cnd : Cond) (dr : Reg) (b : BitVec 19) : Word :=
  0#1 ++ dr.bits ++ op ++ cnd.bits ++ b

/-- A MOV word from its fields (R103). -/
def movWord (cnd : Cond) (dr : Reg) (a : Bool) (br : Reg) (bu : Bool) (off : BitVec 13) : Word :=
  0#1 ++ dr.bits ++ 0x0f#5 ++ cnd.bits ++ BitVec.ofBool a ++ br.bits ++ BitVec.ofBool bu ++ off

/-- An LDI word from its fields (R104). -/
def ldiWord (dr : Reg) (i : BitVec 23) : Word := 0#1 ++ dr.bits ++ 0xb#4 ++ i

/-- A compact word from its fields (R115). -/
def compactWord (h1 : Half) (vcnd : BitVec 3) (h2 : Half) : Word :=
  1#1 ++ h1.dr.bits ++ h1.op ++ vcnd ++ BitVec.ofBool h1.sel ++ h1.f ++ h2.dr.bits ++ h2.op ++
    BitVec.ofBool h2.sel ++ h2.f

/-- The word of an instruction (R102 to R104, R115, R125). -/
def encodeWord : Instr → Word
  | .vliw h1 vcnd h2 => compactWord h1 vcnd h2
  | .noop cnd x => stdWord 0x18#5 cnd .pc x
  | .brk cnd x => stdWord 0x19#5 cnd .pc x
  | .lock cnd x => stdWord 0x1a#5 cnd .pc x
  | .reserved18Cc cnd x => stdWord 0x18#5 cnd .cc x
  | .reserved19Cc cnd x => stdWord 0x19#5 cnd .cc x
  | .reserved1aCc cnd x => stdWord 0x1a#5 cnd .cc x
  | .sub cnd dr b => stdWord 0x00#5 cnd dr b.bits
  | .and cnd dr b => stdWord 0x01#5 cnd dr b.bits
  | .add cnd dr b => stdWord 0x02#5 cnd dr b.bits
  | .or cnd dr b => stdWord 0x03#5 cnd dr b.bits
  | .xor cnd dr b => stdWord 0x04#5 cnd dr b.bits
  | .lsr cnd dr b => stdWord 0x05#5 cnd dr b.bits
  | .lsl cnd dr b => stdWord 0x06#5 cnd dr b.bits
  | .asr cnd dr b => stdWord 0x07#5 cnd dr b.bits
  | .mpy cnd dr b => stdWord 0x08#5 cnd dr b.bits
  | .ldilo cnd dr b => stdWord 0x09#5 cnd dr b.bits
  | .mpyuhi cnd dr b => stdWord 0x0a#5 cnd dr b.bits
  | .mpyshi cnd dr b => stdWord 0x0b#5 cnd dr b.bits
  | .brev cnd dr b => stdWord 0x0c#5 cnd dr b.bits
  | .popc cnd dr b => stdWord 0x0d#5 cnd dr b.bits
  | .rol cnd dr b => stdWord 0x0e#5 cnd dr b.bits
  | .mov cnd dr a br bu off => movWord cnd dr a br bu off
  | .cmp cnd dr b => stdWord 0x10#5 cnd dr b.bits
  | .tst cnd dr b => stdWord 0x11#5 cnd dr b.bits
  | .lod cnd dr b => stdWord 0x12#5 cnd dr b.bits
  | .sto cnd dr b => stdWord 0x13#5 cnd dr b.bits
  | .divu cnd dr b => stdWord 0x14#5 cnd dr b.bits
  | .divs cnd dr b => stdWord 0x15#5 cnd dr b.bits
  | .ldi dr i => ldiWord dr i
  | .fpadd cnd dr b => stdWord 0x18#5 cnd dr b.bits
  | .fpsub cnd dr b => stdWord 0x19#5 cnd dr b.bits
  | .fpmpy cnd dr b => stdWord 0x1a#5 cnd dr b.bits
  | .fpdiv cnd dr b => stdWord 0x1b#5 cnd dr b.bits
  | .fpcvt cnd dr b => stdWord 0x1c#5 cnd dr b.bits
  | .fpint cnd dr b => stdWord 0x1d#5 cnd dr b.bits
  | .reserved1e cnd dr b => stdWord 0x1e#5 cnd dr b.bits
  | .reserved1f cnd dr b => stdWord 0x1f#5 cnd dr b.bits

/-- The bytes of an instruction, in the order `decode` reads them. -/
def encode (i : Instr) : List Byte := wordBytes (encodeWord i)

/-! ### Compact words: expansion of a half (R116 to R120) -/

/-- The half is a load immediate: its opcode bits 4..1 are 4'hb (R119). -/
def Half.isLdi (h : Half) : Bool := h.op.extractLsb' 1 4 == 0xb#4

/-- The half is a MOV (R120). -/
def Half.isMov (h : Half) : Bool := h.op == 0x0f#5

/-- The Standard-equivalent word of a half under an effective condition (R117). A MOV half with
sel = 1 keeps the A and B bits 0: a move within the active set (R120). -/
def expandHalf (cnd : Cond) (h : Half) : Word :=
  if h.sel then
    if h.isMov then movWord cnd h.dr false (Reg.ofBits h.f) false 0#13
    else stdWord h.op cnd h.dr (1#1 ++ h.f ++ 0#14)
  else stdWord h.op cnd h.dr (0#1 ++ h.f.signExtend 18)

/-- The one-instruction word a half stands for, decoded through the rows of the table (R127). -/
def halfInstr (cnd : Cond) (h : Half) : Instr := decodeSingle (expandHalf cnd h)

/-- The condition code of a compact word: the low two bits of VCND (R118). -/
def vcndCond (vcnd : BitVec 3) : Cond := Cond.ofBits (0#1 ++ vcnd.extractLsb' 0 2)

/-- The effective condition of the first half (R118). -/
def firstCond (vcnd : BitVec 3) : Cond := vcndCond vcnd

/-- The effective condition of the second half: that of the word if the first bit of VCND is set,
else always (R118). -/
def secondCond (vcnd : BitVec 3) : Cond := if vcnd.getLsbD 2 then vcndCond vcnd else .always

/-- The bits of a word at the listed positions, most significant first. -/
def pickBits (w : Word) (positions : List Nat) : Nat :=
  positions.foldl (fun acc p => 2 * acc + (w.getLsbD p).toNat) 0

/-- A load immediate's value in a half, under a layout of the parameter `VLIW_LDI` (R119):
the listed bits, sign-extended. -/
def pickSigned (w : Word) (positions : List Nat) : Word :=
  let n := positions.length
  let v := pickBits w positions
  if 0 < n ∧ 2 ^ n ≤ 2 * v then BitVec.ofInt 32 (Int.ofNat v - Int.ofNat (2 ^ n))
  else BitVec.ofNat 32 v

end Sys2Proof
end

