-- ==== Sys2Proof/Config.lean ====
section
/-! DEFINITION. What an implementation fixes (00_scope.md R7 to R10) and the free values, which the
spec leaves open (93_implementation_defined.md, treatment `any value`). -/

namespace Sys2Proof

/-- Which user PC a synchronous fault leaves behind: the parameter `EXC_PC_POLICY` (60_exceptions.md
R353, D23). `any`, the spec's default, gives either value, by a free value. -/
inductive ExcPcPolicy where
  | fault
  | next
  | any
deriving DecidableEq, Repr

/-- The kinds of bus access a platform may answer with a bus error (00_scope.md R10, D30). -/
inductive BusKind where
  | read
  | write
  | fetch
deriving DecidableEq, Repr

/-- A range of word addresses, both ends included, and the kinds of access it answers with a bus
error. The predicate `BusError(addr, kind)` of R10 is a list of these. -/
structure BusErrorRegion where
  first : Nat
  last : Nat
  onRead : Bool
  onWrite : Bool
  onFetch : Bool
deriving DecidableEq, Repr

/-- A layout of a load immediate in a half of a compact word: the parameter `VLIW_LDI` (30_encoding.md
R119, D7). `first` and `second` list the word's bit numbers that make up the immediate of the first
and of the second half, most significant first; the immediate is sign-extended. `conditional` says
whether a load immediate in a half obeys the half's condition. If the first half is a load immediate
whose immediate takes in any of the bits 21 to 19, the word has no VCND field and both halves are
unconditional. DESIGN CHOICE, log 18: the spec gives the parameter no form. -/
structure LdiLayout where
  first : List Nat
  second : List Nat
  conditional : Bool
deriving DecidableEq, Repr

/-- The implementation parameters of 00_scope.md R7 to R10 and 92_eei_decisions.md section 7. -/
structure Config where
  /-- `AW`, the number of bus address bits (R7). -/
  aw : Nat
  /-- `RESET_ADDRESS` (R9). -/
  resetAddress : Word
  /-- `OPT_VLIW` (R8). -/
  optVliw : Bool
  /-- `VLIW_LDI` (R119); `none` is the spec's default, refuse. -/
  vliwLdi : Option LdiLayout
  /-- `EXC_PC_POLICY` (R353). -/
  excPcPolicy : ExcPcPolicy
  /-- `BusError(addr, kind)` (R10). -/
  busErrors : List BusErrorRegion
deriving DecidableEq, Repr

/-- The limits the spec puts on the parameters: `1 <= AW <= 32` (R7), and a reset address below
`2^AW` (D2). -/
def Config.wf (c : Config) : Bool :=
  decide (1 ≤ c.aw) && decide (c.aw ≤ 32) && decide (c.resetAddress.toNat < 2 ^ c.aw)

/-- The configuration of State.reset. DESIGN CHOICE, log 3: the spec gives no default for AW,
RESET_ADDRESS, OPT_VLIW and BusError; these are the values its test vectors use. VLIW_LDI and
EXC_PC_POLICY have the spec's own defaults. -/
def Config.default : Config :=
  { aw := 32, resetAddress := 0x100#32, optVliw := true, vliwLdi := none,
    excPcPolicy := .any, busErrors := [] }

/-! The free values (log 7). Each is an uninterpreted constant applied to a draw number. -/

/-- The C flag after an instruction for which the spec writes `?` (U3, log 8). -/
opaque Config.freeCarry : Nat → Bool

/-- The V flag after an instruction for which the spec writes `?` (U3, log 8). -/
opaque Config.freeOverflow : Nat → Bool

/-- Bit 5 of uCC as a supervisor MOV reads it (U5, log 9). -/
opaque Config.freeUserGie : Nat → Bool

/-- The result of DIVS 0x80000000 by 0xFFFFFFFF (U6, log 10). -/
opaque Config.freeQuotient : Nat → Word

/-- The Z flag after DIVS 0x80000000 by 0xFFFFFFFF (U6, log 10). -/
opaque Config.freeZero : Nat → Bool

/-- The N flag after DIVS 0x80000000 by 0xFFFFFFFF (U6, log 10). -/
opaque Config.freeNegative : Nat → Bool

/-- Whether the user PC after a fault is the next word, under the policy `any` (U16, log 11). -/
opaque Config.freeExcPcNext : Nat → Bool

/-- Whether the lock region has ended before an instruction between its last M and the one that breaks
its shape, or before an address whose fetchable words disagree on it (U10, U17, log 13). -/
opaque Config.freeLockReleased : Nat → Bool

/-- Which of the words a stale fetch may return it returns (U17, log 12). -/
opaque Config.freeFetchChoice : Nat → Nat

/-- A register with no reset value, after a reset raised during a run: draw number and slot (U1,
log 25). -/
opaque Config.freeResetWord : Nat → Nat → Word

end Sys2Proof
end

