-- ==== Sys2Proof/Machine/State.lean ====
section
/-! DEFINITION. The state of the Zip CPU (10_state.md) as plain data, the reasons a step can stop,
and the state after reset (10_state.md R53, 70_reset_and_hazards.md R400). -/

namespace Sys2Proof.Machine

/-- The two register sets (R20). -/
inductive Bank where
  | sup
  | usr
deriving DecidableEq, Repr

/-- The four flags of a register set: CC bits 3..0 (R30, R32). -/
structure Flags where
  z : Bool
  c : Bool
  n : Bool
  v : Bool
deriving DecidableEq, Repr

/-- One register set: R0 to R13, the program counter, the flags and CC bits 31..15 (R20, R26,
R30). Register 14 is assembled from `flags`, `up` and the status bits (R45). -/
structure RegSet where
  gpr : Vector Word 14
  pc : Word
  flags : Flags
  up : BitVec 17
deriving DecidableEq, Repr

/-- The single status bits behind register 14 (R30). -/
structure Status where
  /-- `GIE`, CC bit 5: the mode (R35). -/
  gie : Bool
  /-- `SLEEP`, CC bit 4 (R34). -/
  sleep : Bool
  /-- `STEP`, CC bit 6 (R36). -/
  step : Bool
  /-- `BREAKEN`, sCC bit 7 (R37). -/
  breakEn : Bool
  /-- `UBREAK`, uCC bit 7 (R37). -/
  uBreak : Bool
  /-- `uILL`, uCC bit 8 (R38). -/
  uIll : Bool
  /-- `uTRAP`, uCC bit 9 (R39). -/
  uTrap : Bool
  /-- `uBUSERR`, uCC bit 10 (R38). -/
  uBusErr : Bool
  /-- `uDIVE`, uCC bit 11 (R38). -/
  uDive : Bool
  /-- `uFPE`, uCC bit 12 (R38). -/
  uFpe : Bool
  /-- `sILL`, sCC bit 8 (R38). -/
  sIll : Bool
  /-- `sBUSERR`, sCC bit 10 (R38). -/
  sBusErr : Bool
  /-- `sDIVE`, sCC bit 11 (R38). -/
  sDive : Bool
  /-- `sFPE`, sCC bit 12 (R38). -/
  sFpe : Bool
  /-- `VPH`, uCC bit 13 (R40). -/
  vph : Bool
deriving DecidableEq, Repr

/-- The bus lock and how much of a lock region's shape has been seen (R51(b), 44_load_store.md
R225, R226). Whether the region takes in the next word depends on that word too (log 13). -/
inductive LockState where
  | off
  /-- After LOCK: a memory instruction is expected. -/
  | armed
  /-- After LOCK, M: a second M or one A may follow. -/
  | afterM
  /-- After LOCK, M, A: a second M may follow. -/
  | afterMA
deriving DecidableEq, Repr

/-- Which half of a compact word is executing (R51(e), 30_encoding.md R121). -/
inductive Phase where
  | first
  | second
deriving DecidableEq, Repr

/-- The input levels of one step: the interrupt line and the reset line (60_exceptions.md R344,
R358). -/
structure Input where
  irq : Bool
  reset : Bool
deriving DecidableEq, Repr

/-- Memory as byte cells: word `a` is the cells `4a` to `4a+3` (log 6). -/
abbrev Memory := List Host.Cell

/-- The whole state. -/
structure State where
  /-- The implementation parameters; no step changes them (R52, log 3). -/
  cfg : Config
  /-- The supervisor register set. -/
  sup : RegSet
  /-- The user register set. -/
  usr : RegSet
  /-- The status bits of register 14. -/
  cc : Status
  /-- The instruction cache: the (word address, word) pairs a fetch may use instead of memory
  (R51(a), log 12). -/
  icache : List (Nat × Word)
  /-- The bus lock (R51(b)). -/
  lock : LockState
  /-- Whether the CPU has stopped (R51(d)). -/
  halted : Bool
  /-- The half of the compact word that is executing (R51(e)). -/
  phase : Phase
  /-- Memory (R50). -/
  mem : Memory
  /-- The input levels of the coming steps; low when used up. The model's own field (log 4). -/
  inputs : List Input
  /-- The number of the next draw of a free value. The model's own field (log 7). -/
  fresh : Nat
deriving DecidableEq, Repr

/-- The model has no fault: every stop the spec describes is a next state (an exception entry, or
the halted state of 60_exceptions.md R372), and every address lies in the address space
(20_memory.md R73). Nobody raises one; safe. -/
inductive Fault where
deriving DecidableEq, Repr

/-- Why the model gives an instruction no meaning. Each is safe: nothing is claimed of the run. -/
inductive Refusal where
  /-- An instruction of the table whose meaning is not written. Raised by exec's arms only; safe. -/
  | notModelled (mnemonic : String)
  /-- Opcode 5'h18, 5'h19 or 5'h1a with DR = CC (45_special_fp.md R245, U8). Raised by the meanings
  of RESERVED_18_CC, RESERVED_19_CC, RESERVED_1A_CC; safe. -/
  | reservedCcEncoding
  /-- A half of a compact word is a load immediate and the configuration has no layout for it
  (30_encoding.md R119, U2). Raised by the meaning of VLIW; safe. -/
  | compactLdiWithoutLayout
  /-- A half of a compact word is a MOV with sel = 0 (30_encoding.md R120, U7). Raised by the meaning
  of VLIW; safe. -/
  | compactMovImmediate
  /-- The first half of a compact word writes register 14 (30_encoding.md R121, U9). Raised by the
  meaning of VLIW; safe. -/
  | compactFirstHalfWritesCc
  /-- The first half of a compact word is BREAK (30_encoding.md R121, U9). Raised by the meaning of
  VLIW; safe. -/
  | compactFirstHalfBreak
  /-- The first half of a compact word is LOCK (30_encoding.md R121, U9). Raised by the meaning of
  VLIW; safe. -/
  | compactFirstHalfLock
deriving DecidableEq, Repr

/-- A register set in which every register has the model's reset value. DESIGN CHOICE, log 1: the
spec gives none of these a reset value (R53, U1). -/
def RegSet.zero : RegSet :=
  { gpr := Vector.replicate 14 0#32, pc := 0#32,
    flags := { z := false, c := false, n := false, v := false }, up := 0#17 }

/-- The status bits after reset (R53): supervisor mode, every bit 0. -/
def Status.reset : Status :=
  { gie := false, sleep := false, step := false, breakEn := false,
    uBreak := false, uIll := false, uTrap := false, uBusErr := false, uDive := false, uFpe := false,
    sIll := false, sBusErr := false, sDive := false, sFpe := false, vph := false }

/-- The machine right after reset under a configuration: supervisor mode at `RESET_ADDRESS`, the
cache empty, the bus not locked, not halted (R53), memory with nothing listed. -/
def State.resetWith (cfg : Config) : State :=
  { cfg := cfg
    sup := { RegSet.zero with pc := cfg.resetAddress }
    usr := RegSet.zero
    cc := Status.reset
    icache := []
    lock := .off
    halted := false
    phase := .first
    mem := []
    inputs := []
    fresh := 0 }

/-- The machine right after reset under the default configuration (log 3). -/
def State.reset : State := State.resetWith Config.default

end Sys2Proof.Machine
end

