-- ==== Sys2Proof/Machine/Ops.lean ====
section
/-! DEFINITION. The named operations over registers, the status register, memory and the instruction
cache, taking an exception and returning from one, and how an instruction ends. -/

namespace Sys2Proof.Machine

/-! ### Register sets -/

/-- The first value for the supervisor set, the second for the user set. -/
def Bank.pick {α : Type} (b : Bank) (onSup onUsr : α) : α :=
  match b with
  | .sup => onSup
  | .usr => onUsr

/-- `cur`, the active register set: the user set when `GIE` is 1 (10_state.md R24, R35). -/
def State.bank (s : State) : Bank := if s.cc.gie then .usr else .sup

/-- The registers of a set. -/
def State.regs (s : State) (b : Bank) : RegSet := b.pick s.sup s.usr

/-- The state with the registers of one set replaced. -/
def State.withRegs (s : State) (b : Bank) (r : RegSet) : State :=
  { s with sup := b.pick r s.sup, usr := b.pick s.usr r }

/-- The program counter of the active set: the address of the executing word (00_scope.md R15). -/
def State.pc (s : State) : Word := (s.regs s.bank).pc

/-- Write `R[b][i]`. -/
def State.setGpr (s : State) (b : Bank) (i : Fin 14) (v : Word) : State :=
  s.withRegs b { s.regs b with gpr := (s.regs b).gpr.set i v }

/-- Write `PC[b]`. -/
def State.setPc (s : State) (b : Bank) (v : Word) : State :=
  s.withRegs b { s.regs b with pc := v }

/-- Write `FLAGS[b]`. -/
def State.setFlagsOf (s : State) (b : Bank) (f : Flags) : State :=
  s.withRegs b { s.regs b with flags := f }

/-- Write `UP[b]`. -/
def State.setUp (s : State) (b : Bank) (u : BitVec 17) : State :=
  s.withRegs b { s.regs b with up := u }

/-- The state after one draw of free values (log 7). -/
def State.draw (s : State) : State := { s with fresh := s.fresh + 1 }

/-- A draw, if one was made. -/
def State.drawIf (s : State) (made : Bool) : State := if made then s.draw else s

/-! ### Memory (20_memory.md) -/

/-- What a cell that memory does not list reads as. DESIGN CHOICE, log 5: the spec gives memory no
contents at reset (R53). -/
def Memory.unlisted : Byte := 0#8

/-- The byte of a cell. -/
def Memory.readByte : Memory → Nat → Byte
  | [], _ => Memory.unlisted
  | (k, b) :: rest, a => if a = k then b else if a < k then Memory.unlisted else readByte rest a

/-- Write one cell, keeping the canonical form: addresses rise, and no cell is listed with the value
an unlisted one has. -/
def Memory.writeByte : Memory → Nat → Byte → Memory
  | [], a, v => if v = Memory.unlisted then [] else [(a, v)]
  | (k, b) :: rest, a, v =>
    if a = k then (if v = Memory.unlisted then rest else (a, v) :: rest)
    else if a < k then
      (if v = Memory.unlisted then (k, b) :: rest else (a, v) :: (k, b) :: rest)
    else (k, b) :: writeByte rest a v

/-- The canonical form: addresses strictly rise and every listed cell differs from an unlisted
one. -/
def Memory.wf : Memory → Bool
  | [] => true
  | (k, b) :: rest => (b != Memory.unlisted) && rest.all (fun c => decide (k < c.1)) && wf rest

/-- Every listed cell lies in the address space of `2^aw` words (R70). -/
def Memory.inSpace (m : Memory) (aw : Nat) : Bool := m.all (fun c => decide (c.1 < 4 * 2 ^ aw))

/-- The word at a word address (R71, R75). -/
def Memory.readWord (m : Memory) (a : Nat) : Word :=
  bytesWord (m.readByte (4 * a)) (m.readByte (4 * a + 1)) (m.readByte (4 * a + 2))
    (m.readByte (4 * a + 3))

/-- Store a word at a word address (R71, R75). -/
def Memory.writeWord (m : Memory) (a : Nat) (v : Word) : Memory :=
  (((m.writeByte (4 * a) (v.extractLsb' 0 8)).writeByte (4 * a + 1)
    (v.extractLsb' 8 8)).writeByte (4 * a + 2) (v.extractLsb' 16 8)).writeByte (4 * a + 3)
    (v.extractLsb' 24 8)

/-- The word address the bus receives: the low `AW` bits (R73, 10_state.md R29, log 22). -/
def State.busAddr (s : State) (a : Word) : Nat := a.toNat % 2 ^ s.cfg.aw

/-- The region answers this kind of access to this word address with a bus error. -/
def busRegionHits (r : BusErrorRegion) (kind : BusKind) (a : Nat) : Bool :=
  decide (r.first ≤ a) && decide (a ≤ r.last) &&
    (match kind with
     | .read => r.onRead
     | .write => r.onWrite
     | .fetch => r.onFetch)

/-- `BusError(addr, kind)` of 00_scope.md R10 for the address the bus receives. -/
def State.busError (s : State) (kind : BusKind) (a : Word) : Bool :=
  s.cfg.busErrors.any (fun r => busRegionHits r kind (s.busAddr a))

/-- `MemRead` (00_scope.md R16): the word, or nothing on a bus error. -/
def State.memRead (s : State) (a : Word) : Option Word :=
  if s.busError .read a then none else some (s.mem.readWord (s.busAddr a))

/-- A store to memory and what it does to the cache: the word it replaces may still be fetched
(20_memory.md R84, U17, log 12). -/
def State.storeWord (s : State) (a : Nat) (v : Word) : State :=
  let old := s.mem.readWord a
  { s with
    mem := s.mem.writeWord a v
    icache := if old = v ∨ (a, old) ∈ s.icache then s.icache else (a, old) :: s.icache }

/-- `MemWrite` (00_scope.md R16): the state after the store, or nothing on a bus error. -/
def State.memWrite (s : State) (a : Word) (v : Word) : Option State :=
  if s.busError .write a then none else some (s.storeWord (s.busAddr a) v)

/-! ### Instruction cache and fetch (20_memory.md R84, R85) -/

/-- `ClearICache()` (R85). -/
def State.clearICache (s : State) : State := { s with icache := [] }

/-- The words other than memory's that a fetch of this word address may return (R84, U17). -/
def State.staleWords (s : State) (a : Nat) : List Word :=
  ((s.icache.filter (fun e => e.1 = a)).map Prod.snd).filter (fun w => w ≠ s.mem.readWord a)

/-- `Fetch(pc)` (00_scope.md R16, R84): nothing on a bus error; else the current memory word or, if
there are stale words for the address, whichever of these words a free value names. -/
def State.fetch (s : State) : Option (Word × State) :=
  if s.busError .fetch s.pc then none
  else
    let a := s.busAddr s.pc
    match s.staleWords a with
    | [] => some (s.mem.readWord a, s)
    | w :: rest =>
      some ((w :: rest).getD (Config.freeFetchChoice s.fresh) (s.mem.readWord a), s.draw)

/-! ### Modes (60_exceptions.md) -/

/-- `trap_to_supervisor(reason)`: the one way into supervisor mode (R352). No reason is stored. -/
def State.trapToSupervisor (s : State) : State :=
  { s with
    cc := { s.cc with gie := false, sleep := false, step := false }
    lock := .off }

/-- `ReturnToUser()`: the one way into user mode (R355). `PC[sup] <- pc + 1` is the step's own
advance (00_scope.md R15). -/
def State.returnToUser (s : State) : State :=
  { s with
    cc := { s.cc with
      uBreak := false, uIll := false, uTrap := false, uBusErr := false, uDive := false,
      uFpe := false, vph := false, gie := true }
    lock := .off }

/-- `halt` (R372). DESIGN CHOICE, log 31: the lock stays as it is, also inside a lock region. -/
def State.halt (s : State) : State := { s with halted := true }

/-! ### The status register, register 14 (10_state.md R45 to R48) -/

/-- CC bits 3..0 as flags. -/
def Flags.ofCc (v : Word) : Flags :=
  { z := v.getLsbD 0, c := v.getLsbD 1, n := v.getLsbD 2, v := v.getLsbD 3 }

/-- Assemble a value of register 14 from its bits, bit 31..15 first (R31, R45). -/
def ccWord (up : BitVec 17) (b14 b13 b12 b11 b10 b9 b8 b7 b6 b5 b4 : Bool) (f : Flags) : Word :=
  up ++ BitVec.ofBool b14 ++ BitVec.ofBool b13 ++ BitVec.ofBool b12 ++ BitVec.ofBool b11 ++
    BitVec.ofBool b10 ++ BitVec.ofBool b9 ++ BitVec.ofBool b8 ++ BitVec.ofBool b7 ++
    BitVec.ofBool b6 ++ BitVec.ofBool b5 ++ BitVec.ofBool b4 ++ BitVec.ofBool f.v ++
    BitVec.ofBool f.n ++ BitVec.ofBool f.c ++ BitVec.ofBool f.z

/-- `ReadCC(sup)` (R45, first column). -/
def State.readCcSup (s : State) : Word :=
  ccWord s.sup.up false false s.cc.sFpe s.cc.sDive s.cc.sBusErr false s.cc.sIll s.cc.breakEn
    s.cc.step false false s.sup.flags

/-- `ReadCC(usr)` (R45, second and third columns); `bit5` is 1 in user mode and a free value for a
supervisor MOV. -/
def State.readCcUsr (s : State) (bit5 : Bool) : Word :=
  ccWord s.usr.up false s.cc.vph s.cc.uFpe s.cc.uDive s.cc.uBusErr s.cc.uTrap s.cc.uIll s.cc.uBreak
    s.cc.step bit5 false s.usr.flags

/-- `ReadCC(cur)`: an instruction reads register 14 of its own set. -/
def State.readCc (s : State) : Word := s.bank.pick s.readCcSup (s.readCcUsr true)

/-- The stores of `FLAGS` and `UP` that every write of register 14 begins with. -/
def State.storeCcPlain (s : State) (b : Bank) (v : Word) : State :=
  (s.setFlagsOf b (Flags.ofCc v)).setUp b (v.extractLsb' 15 17)

/-- `WriteCC(sup, v)` in supervisor mode (R46). -/
def State.writeCcSup (s : State) (v : Word) : State :=
  let s1 := s.storeCcPlain .sup v
  let s2 := { s1 with cc := { s1.cc with step := v.getLsbD 6, breakEn := v.getLsbD 7 } }
  let s3 := if v.getLsbD 14 then s2.clearICache else s2
  if v.getLsbD 5 then { s3 with cc := { s3.cc with sleep := v.getLsbD 4 } }.returnToUser
  else if v.getLsbD 4 then { s3 with cc := { s3.cc with sleep := true } }.halt
  else s3

/-- `WriteCC(usr, v)` in user mode (R47). -/
def State.writeCcUsr (s : State) (v : Word) : State :=
  let s1 := s.storeCcPlain .usr v
  if !v.getLsbD 5 then { s1 with cc := { s1.cc with uTrap := true } }.trapToSupervisor
  else if v.getLsbD 4 then { s1 with cc := { s1.cc with sleep := true } }
  else s1

/-- `WriteCC(cur, v)`: an instruction writes register 14 of its own set. -/
def State.writeCc (s : State) (v : Word) : State := s.bank.pick (s.writeCcSup v) (s.writeCcUsr v)

/-- The supervisor's write of uCC: it can clear the user cause bits and cannot set them (R48). -/
def State.writeUserCc (s : State) (v : Word) : State :=
  let s1 := s.storeCcPlain .usr v
  { s1 with cc := { s1.cc with
      uBreak := s1.cc.uBreak && v.getLsbD 7
      uIll := s1.cc.uIll && v.getLsbD 8
      uTrap := s1.cc.uTrap && v.getLsbD 9
      uBusErr := s1.cc.uBusErr && v.getLsbD 10
      uDive := s1.cc.uDive && v.getLsbD 11
      uFpe := s1.cc.uFpe && v.getLsbD 12 } }

/-! ### Taking an exception (60_exceptions.md R350, R351, R353) -/

/-- The synchronous faults (00_scope.md R17). The floating-point exception is never raised (R340). -/
inductive Exc where
  | illegalInstruction
  | busError
  | divideByZero
deriving DecidableEq, Repr

/-- Set the uCC bit of an exception, other bits unchanged (R350). -/
def Status.setUserCause (c : Status) : Exc → Status
  | .illegalInstruction => { c with uIll := true }
  | .busError => { c with uBusErr := true }
  | .divideByZero => { c with uDive := true }

/-- Set the sCC bit of an exception, other bits unchanged (R351). -/
def Status.setSupCause (c : Status) : Exc → Status
  | .illegalInstruction => { c with sIll := true }
  | .busError => { c with sBusErr := true }
  | .divideByZero => { c with sDive := true }

/-- `exc_pc`: the user PC after a fault at `pc`, by `EXC_PC_POLICY` (R353, U16). -/
def State.excPc (s : State) (pc : Word) : Word :=
  match s.cfg.excPcPolicy with
  | .fault => pc
  | .next => pc + 1#32
  | .any => if Config.freeExcPcNext s.fresh then pc + 1#32 else pc

/-- `raise X`: in user mode set the uCC bit, leave `exc_pc` in the user PC and enter supervisor mode
(R350); in supervisor mode set the sCC bit and halt with the PC at the faulting word (R351). A fault
ends a lock region (44_load_store.md R226). -/
def State.takeException (s : State) (x : Exc) : State :=
  match s.bank with
  | .usr =>
    let t : State := { s with cc := s.cc.setUserCause x }
    ((t.setPc .usr (s.excPc s.usr.pc)).drawIf (s.cfg.excPcPolicy == ExcPcPolicy.any)).trapToSupervisor
  | .sup => { s with cc := s.cc.setSupCause x, lock := .off }.halt

/-- A BREAK whose condition holds (45_special_fp.md R243): halt, or a trap with `UBREAK` set; the PC
stays at the BREAK in every case. DESIGN CHOICE, log 31: a halt leaves the lock as it stands. -/
def State.takeBreak (s : State) : State :=
  match s.bank with
  | .usr =>
    if s.cc.breakEn then s.halt
    else { s with cc := { s.cc with uBreak := true } }.trapToSupervisor
  | .sup => s.halt

/-- A fault in the first half of a compact word sets `VPH` when it enters supervisor mode (R350,
10_state.md R40); a supervisor fault leaves it (R351). -/
def State.markPhase (s : State) : State :=
  match s.bank, s.phase with
  | .usr, .first => { s with cc := { s.cc with vph := true } }
  | _, _ => s

/-- A register set in which every register holds a free value (U1, log 25). -/
def RegSet.free (n : Nat) (base : Nat) : RegSet :=
  { gpr := Vector.ofFn (fun i => Config.freeResetWord n (base + i.val))
    pc := Config.freeResetWord n (base + 14)
    flags := Flags.ofCc (Config.freeResetWord n (base + 15))
    up := (Config.freeResetWord n (base + 16)).extractLsb' 0 17 }

/-- `Reset()`: a reset raised while the machine runs (70_reset_and_hazards.md R400, 10_state.md
R53). Memory is unchanged; the registers the spec gives no reset value hold free values (log 25). -/
def State.systemReset (s : State) : State :=
  { s with
    sup := { RegSet.free s.fresh 0 with pc := s.cfg.resetAddress }
    usr := RegSet.free s.fresh 32
    cc := Status.reset
    icache := []
    lock := .off
    halted := false
    phase := .first
    fresh := s.fresh + 1 }

/-! ### Registers as operands (00_scope.md R14) -/

/-- `x[i]`: a register of the active set; register 15 reads `pc + 1` (10_state.md R27). -/
def State.readReg (s : State) : Reg → Word
  | .gpr i => (s.regs s.bank).gpr[i]
  | .cc => s.readCc
  | .pc => s.pc + 1#32

/-! ### How an instruction ends (00_scope.md R15, R17) -/

/-- What an instruction came to, before the program counter advances. -/
inductive Event where
  /-- It completed and did not write register 15 of the active set. -/
  | done (s : State)
  /-- It completed and wrote register 15 of the active set. -/
  | jump (target : Word) (s : State)
  /-- It raised an exception; `s` is the state in which it wrote nothing. -/
  | raised (x : Exc) (s : State)
  /-- It is a BREAK whose condition held. -/
  | broke (s : State)
  /-- The model gives it no meaning. -/
  | refused (r : Refusal)
deriving DecidableEq, Repr

/-- `x[i] <- v`: a write of a register of the active set; register 14 is `WriteCC`, register 15 a
jump (10_state.md R28, R46, R47). -/
def State.writeReg (s : State) (r : Reg) (v : Word) : Event :=
  match r with
  | .gpr i => .done (s.setGpr s.bank i v)
  | .cc => .done (s.writeCc v)
  | .pc => .jump v s

/-- The end of the step for a word that began in state `s`: the PC of the set that issued it
advances or takes the jump target, or the exception or break is taken (00_scope.md R15,
60_exceptions.md R358). -/
def State.finish (s : State) : Event → Host.Outcome State Fault Refusal
  | .done t => .next (t.setPc s.bank (s.pc + 1#32))
  | .jump target t => .next (t.setPc s.bank target)
  | .raised x t => .next (t.takeException x)
  | .broke t => .next t.takeBreak
  | .refused r => .refused r

/-! ### What a step does around an instruction (60_exceptions.md R358) -/

/-- The input levels of this step. -/
def State.input (s : State) : Input := s.inputs.headD { irq := false, reset := false }

/-- The state with this step's input levels used up. -/
def State.tick (s : State) : State := { s with inputs := s.inputs.tail }

/-- After a word that began in user mode: with `STEP` set and user mode still on, step completion
(R358, R365). A halted CPU has not completed the word (R243, R372). -/
def State.afterWord (beganInUser : Bool) (t : State) : State :=
  if beganInUser && t.cc.gie && t.cc.step && !t.halted then t.trapToSupervisor else t

/-- `afterWord` on an outcome. -/
def afterWordOutcome (beganInUser : Bool) :
    Host.Outcome State Fault Refusal → Host.Outcome State Fault Refusal
  | .next t => .next (State.afterWord beganInUser t)
  | .fault f => .fault f
  | .refused r => .refused r

end Sys2Proof.Machine
end

