-- ==== Sys2Proof/Machine/Flags.lean ====
section
/-! DEFINITION. Every flag computation of the spec (10_state.md R42, R44; 40_arith_logic.md,
41_shift_bit.md, 42_multiply_divide.md) and the gating of flag updates. -/

namespace Sys2Proof.Machine

/-- The flags an instruction computes; `none` is the spec's `?`, any value (00_scope.md R17, U3). -/
structure FlagResult where
  z : Bool
  c : Option Bool
  n : Bool
  v : Option Bool
deriving DecidableEq, Repr

/-- A result and its flags. -/
structure AluResult where
  value : Word
  flags : FlagResult
deriving DecidableEq, Repr

/-- Z and N of a result (R44), with given C and V. -/
def FlagResult.of (r : Word) (c v : Option Bool) : FlagResult :=
  { z := r == 0#32, c := c, n := r.msb, v := v }

/-- A result whose C and V the spec does not define. -/
def AluResult.openCV (r : Word) : AluResult := { value := r, flags := FlagResult.of r none none }

/-- The flags written: each `?` is a free value (U3, log 8). -/
def FlagResult.resolve (f : FlagResult) (draw : Nat) : Flags :=
  { z := f.z, c := f.c.getD (Config.freeCarry draw), n := f.n,
    v := f.v.getD (Config.freeOverflow draw) }

/-- A flag of the result is a `?`. -/
def FlagResult.isOpen (f : FlagResult) : Bool := f.c.isNone || f.v.isNone

/-- `set_flags(z, c, n, v)` without the gating: it writes `FLAGS[cur]`. -/
def State.setFlags (s : State) (f : FlagResult) : State :=
  (s.setFlagsOf s.bank (f.resolve s.fresh)).drawIf f.isOpen

/-- Whether an instruction other than CMP and TST updates the flags: only when its condition is
"always" and its DR is neither register 14 nor register 15 (R42, D13, D14). -/
def updatesFlags (cnd : Cond) (dr : Reg) : Bool := (cnd == .always) && dr.isGpr

/-- `set_flags` with the gating of R42. -/
def State.setFlagsGated (s : State) (cnd : Cond) (dr : Reg) (f : FlagResult) : State :=
  if updatesFlags cnd dr then s.setFlags f else s

/-! ### Arithmetic and logic -/

/-- SUB and CMP: C is the borrow, V signed overflow (40_arith_logic.md R141; log 15). -/
def subResult (a b : Word) : AluResult :=
  let r := a - b
  { value := r
    flags := FlagResult.of r (some (decide (a.toNat < b.toNat)))
      (some ((a.msb != b.msb) && (r.msb != a.msb))) }

/-- ADD: C is the carry out of bit 31, V signed overflow (R143; log 15). -/
def addResult (a b : Word) : AluResult :=
  let r := a + b
  { value := r
    flags := FlagResult.of r (some (decide (2 ^ 32 ≤ a.toNat + b.toNat)))
      (some ((a.msb == b.msb) && (r.msb != a.msb))) }

/-- AND and TST (R142, R147). -/
def andResult (a b : Word) : AluResult := .openCV (a &&& b)

/-- OR (R144). -/
def orResult (a b : Word) : AluResult := .openCV (a ||| b)

/-- XOR (R145). -/
def xorResult (a b : Word) : AluResult := .openCV (a ^^^ b)

/-! ### Shifts, rotate and bits (41_shift_bit.md) -/

/-- LSR (R161). Amounts of 32 and more: log 14. -/
def lsrResult (a b : Word) : AluResult :=
  let n := b.toNat
  if n = 0 then .openCV a
  else if n < 32 then
    { value := a >>> n, flags := FlagResult.of (a >>> n) (some (a.getLsbD (n - 1))) none }
  else .openCV 0#32

/-- LSL (R162). Amounts of 32 and more: log 14. -/
def lslResult (a b : Word) : AluResult :=
  let n := b.toNat
  if n = 0 then .openCV a
  else if n < 32 then
    { value := a <<< n, flags := FlagResult.of (a <<< n) (some (a.getLsbD (32 - n))) none }
  else .openCV 0#32

/-- ASR (R163). Amounts of 32 and more: log 14. -/
def asrResult (a b : Word) : AluResult :=
  let n := b.toNat
  if n = 0 then .openCV a
  else if n < 32 then
    { value := a.sshiftRight n
      flags := FlagResult.of (a.sshiftRight n) (some (a.getLsbD (n - 1))) none }
  else .openCV (if a.msb then BitVec.allOnes 32 else 0#32)

/-- ROL: the amount is taken modulo 32 (R164). -/
def rolResult (a b : Word) : AluResult := .openCV (a.rotateLeft (b.toNat % 32))

/-- The number of 1 bits (00_scope.md R12). -/
def popcount (b : Word) : Nat := ((List.range 32).filter (fun i => b.getLsbD i)).length

/-- POPC; the old DR is not read (R166). -/
def popcResult (b : Word) : AluResult := .openCV (BitVec.ofNat 32 (popcount b))

/-- The bits of a word in reverse order (00_scope.md R12). -/
def bitrev (b : Word) : Word := b.reverse

/-! ### Multiply and divide (42_multiply_divide.md) -/

/-- MPY: the low 32 bits of the product (R181). -/
def mpyResult (a b : Word) : AluResult := .openCV (a * b)

/-- MPYUHI: the high 32 bits of the unsigned product (R182). -/
def mpyuhiResult (a b : Word) : AluResult :=
  .openCV ((BitVec.ofNat 64 (a.toNat * b.toNat)).extractLsb' 32 32)

/-- MPYSHI: the high 32 bits of the signed product (R183). -/
def mpyshiResult (a b : Word) : AluResult :=
  .openCV ((BitVec.ofInt 64 (a.toInt * b.toInt)).extractLsb' 32 32)

/-- DIVU for a divisor other than 0: the floor of the quotient (R184). -/
def divuResult (a b : Word) : AluResult := .openCV (BitVec.ofNat 32 (a.toNat / b.toNat))

/-- The one signed quotient that does not fit (R185, U6). -/
def divsOverflows (a b : Word) : Bool := (a == 0x80000000#32) && (b == 0xFFFFFFFF#32)

/-- DIVS for a divisor other than 0: the quotient rounded toward zero; where it does not fit, the
result and all four flags are free values (R185, U6; logs 10 and 16). -/
def divsResult (draw : Nat) (a b : Word) : AluResult :=
  if divsOverflows a b then
    { value := Config.freeQuotient draw
      flags := { z := Config.freeZero draw, c := none, n := Config.freeNegative draw, v := none } }
  else .openCV (BitVec.ofInt 32 (a.toInt.tdiv b.toInt))

end Sys2Proof.Machine
end

