-- ==== Sys2Proof/Machine/Operands.lean ====
section
/-! DEFINITION. Conditions, Operand B, the operands of MOV, and the template of the instructions
that compute a result from DR and Operand B (30_encoding.md R108, R112; 40_arith_logic.md R140). -/

namespace Sys2Proof.Machine

/-- A condition on four flags (30_encoding.md R111). -/
def Flags.holds (f : Flags) : Cond → Bool
  | .always => true
  | .lt => f.n
  | .z => f.z
  | .nz => !f.z
  | .gt => !f.n && !f.z
  | .ge => !f.n
  | .c => f.c
  | .v => f.v

/-- `cond_holds(cnd)`: the condition on `FLAGS[cur]` (R112). -/
def State.condHolds (s : State) (cnd : Cond) : Bool := (s.regs s.bank).flags.holds cnd

/-- The value of Operand B (R107, R108). -/
def State.opB (s : State) : OpB → Word
  | .imm i => i.signExtend 32
  | .reg r off => s.readReg r + off.signExtend 32

/-- The set a MOV bit names: in user mode both bits are ignored (43_move_immediate.md R203). -/
def State.movBank (s : State) (userBit : Bool) : Bank :=
  if s.cc.gie then .usr else if userBit then .usr else .sup

/-- Whether a register of this set is one of the inactive set: the user set seen from supervisor
mode (R203). -/
def State.isForeign (s : State) (b : Bank) : Bool := (b == .usr) && !s.cc.gie

/-- `xs[b][r]` of a register of the inactive set: the user PC is read as stored (10_state.md R49),
and bit 5 of uCC is a free value (U5, log 9). -/
def State.readForeign (s : State) : Reg → Word
  | .gpr i => s.usr.gpr[i]
  | .cc => s.readCcUsr (Config.freeUserGie s.fresh)
  | .pc => s.usr.pc

/-- `xs[b][r]`, the source register of MOV (R203). -/
def State.readMov (s : State) (b : Bank) (r : Reg) : Word :=
  if s.isForeign b then s.readForeign r else s.readReg r

/-- `xs[b][r] <- v` of a register of the inactive set: a write of the user PC does not jump
(10_state.md R49), a write of uCC is the restricted one (R48). -/
def State.writeForeign (s : State) (r : Reg) (v : Word) : State :=
  match r with
  | .gpr i => s.setGpr .usr i v
  | .cc => s.writeUserCc v
  | .pc => s.setPc .usr v

/-- `xs[b][r] <- v`, the destination register of MOV (R203). -/
def State.writeMov (s : State) (b : Bank) (r : Reg) (v : Word) : Event :=
  if s.isForeign b then .done (s.writeForeign r v) else s.writeReg r v

/-- The template of 40_arith_logic.md R140: read DR and Operand B, write the result to DR, update the
flags under the gating of R42. The flags are written first: where the gating lets them change, DR is
a general register and the order makes no difference. -/
def aluEffect (f : Word → Word → AluResult) (cnd : Cond) (dr : Reg) (b : OpB) (s : State) : Event :=
  if s.condHolds cnd then
    let r := f (s.readReg dr) (s.opB b)
    (s.setFlagsGated cnd dr r.flags).writeReg dr r.value
  else .done s

/-- CMP and TST: the flags are always updated, DR is not written (R146, R147). -/
def compareEffect (f : Word → Word → AluResult) (cnd : Cond) (dr : Reg) (b : OpB) (s : State) :
    Event :=
  if s.condHolds cnd then .done (s.setFlags (f (s.readReg dr) (s.opB b)).flags) else .done s

/-- An instruction that writes DR and no flag (10_state.md R33, column N). -/
def writeEffect (f : Word → Word → Word) (cnd : Cond) (dr : Reg) (b : OpB) (s : State) : Event :=
  if s.condHolds cnd then s.writeReg dr (f (s.readReg dr) (s.opB b)) else .done s

end Sys2Proof.Machine
end

