-- ==== Sys2Proof/Machine/Arith.lean ====
section
/-! DEFINITION. SUB, AND, ADD, OR, XOR, CMP, TST (40_arith_logic.md). Each instruction has its effect
(used by a compact word's halves) and its meaning as a whole word. -/

namespace Sys2Proof.Machine

/-- SUB (R141). -/
def subEffect (cnd : Cond) (dr : Reg) (b : OpB) (s : State) : Event :=
  aluEffect subResult cnd dr b s
def execSub (cnd : Cond) (dr : Reg) (b : OpB) (s : State) : Host.Outcome State Fault Refusal :=
  s.finish (subEffect cnd dr b s)

/-- AND (R142). -/
def andEffect (cnd : Cond) (dr : Reg) (b : OpB) (s : State) : Event :=
  aluEffect andResult cnd dr b s
def execAnd (cnd : Cond) (dr : Reg) (b : OpB) (s : State) : Host.Outcome State Fault Refusal :=
  s.finish (andEffect cnd dr b s)

/-- ADD (R143). -/
def addEffect (cnd : Cond) (dr : Reg) (b : OpB) (s : State) : Event :=
  aluEffect addResult cnd dr b s
def execAdd (cnd : Cond) (dr : Reg) (b : OpB) (s : State) : Host.Outcome State Fault Refusal :=
  s.finish (addEffect cnd dr b s)

/-- OR (R144). -/
def orEffect (cnd : Cond) (dr : Reg) (b : OpB) (s : State) : Event :=
  aluEffect orResult cnd dr b s
def execOr (cnd : Cond) (dr : Reg) (b : OpB) (s : State) : Host.Outcome State Fault Refusal :=
  s.finish (orEffect cnd dr b s)

/-- XOR (R145). -/
def xorEffect (cnd : Cond) (dr : Reg) (b : OpB) (s : State) : Event :=
  aluEffect xorResult cnd dr b s
def execXor (cnd : Cond) (dr : Reg) (b : OpB) (s : State) : Host.Outcome State Fault Refusal :=
  s.finish (xorEffect cnd dr b s)

/-- CMP: the flags of SUB, whatever the condition and the DR (R146). -/
def cmpEffect (cnd : Cond) (dr : Reg) (b : OpB) (s : State) : Event :=
  compareEffect subResult cnd dr b s
def execCmp (cnd : Cond) (dr : Reg) (b : OpB) (s : State) : Host.Outcome State Fault Refusal :=
  s.finish (cmpEffect cnd dr b s)

/-- TST: the flags of AND, whatever the condition and the DR (R147). -/
def tstEffect (cnd : Cond) (dr : Reg) (b : OpB) (s : State) : Event :=
  compareEffect andResult cnd dr b s
def execTst (cnd : Cond) (dr : Reg) (b : OpB) (s : State) : Host.Outcome State Fault Refusal :=
  s.finish (tstEffect cnd dr b s)

end Sys2Proof.Machine
end

