-- ==== Sys2Proof/Machine/LoadStore.lean ====
section
/-! DEFINITION. LOD, STO and LOCK (44_load_store.md). -/

namespace Sys2Proof.Machine

/-- LOD: a bus error leaves DR unwritten (R220). -/
def lodEffect (cnd : Cond) (dr : Reg) (b : OpB) (s : State) : Event :=
  if s.condHolds cnd then
    match s.memRead (s.opB b) with
    | none => .raised .busError s
    | some v => s.writeReg dr v
  else .done s
def execLod (cnd : Cond) (dr : Reg) (b : OpB) (s : State) : Host.Outcome State Fault Refusal :=
  s.finish (lodEffect cnd dr b s)

/-- STO: `dr` is stored; a bus error leaves memory unwritten (R221). -/
def stoEffect (cnd : Cond) (dr : Reg) (b : OpB) (s : State) : Event :=
  if s.condHolds cnd then
    match s.memWrite (s.opB b) (s.readReg dr) with
    | none => .raised .busError s
    | some t => .done t
  else .done s
def execSto (cnd : Cond) (dr : Reg) (b : OpB) (s : State) : Host.Outcome State Fault Refusal :=
  s.finish (stoEffect cnd dr b s)

/-- LOCK: the bus is held from here; the Operand B bits `x` are ignored (R225, R129). -/
def lockEffect (cnd : Cond) (_x : BitVec 19) (s : State) : Event :=
  if s.condHolds cnd then .done { s with lock := .armed } else .done s
def execLock (cnd : Cond) (x : BitVec 19) (s : State) : Host.Outcome State Fault Refusal :=
  s.finish (lockEffect cnd x s)

end Sys2Proof.Machine
end

