-- ==== Sys2Proof/Machine/Move.lean ====
section
/-! DEFINITION. LDILO, MOV, LDI (43_move_immediate.md). -/

namespace Sys2Proof.Machine

/-- The upper half of `a` and the lower half of `b` (R201). -/
def mergeLow (a b : Word) : Word := a.extractLsb' 16 16 ++ b.extractLsb' 0 16

/-- LDILO (R201). -/
def ldiloEffect (cnd : Cond) (dr : Reg) (b : OpB) (s : State) : Event :=
  writeEffect mergeLow cnd dr b s
def execLdilo (cnd : Cond) (dr : Reg) (b : OpB) (s : State) : Host.Outcome State Fault Refusal :=
  s.finish (ldiloEffect cnd dr b s)

/-- MOV: `a` chooses the set of DR, `bu` that of BR, in supervisor mode only (R203). A read of uCC
draws a free value (U5). -/
def movEffect (cnd : Cond) (dr : Reg) (a : Bool) (br : Reg) (bu : Bool) (off : BitVec 13)
    (s : State) : Event :=
  if s.condHolds cnd then
    (s.drawIf (s.isForeign (s.movBank bu) && br == .cc)).writeMov (s.movBank a) dr
      (s.readMov (s.movBank bu) br + off.signExtend 32)
  else .done s
def execMov (cnd : Cond) (dr : Reg) (a : Bool) (br : Reg) (bu : Bool) (off : BitVec 13)
    (s : State) : Host.Outcome State Fault Refusal :=
  s.finish (movEffect cnd dr a br bu off s)

/-- LDI: always executed (R205). -/
def ldiEffect (dr : Reg) (i : BitVec 23) (s : State) : Event := s.writeReg dr (i.signExtend 32)
def execLdi (dr : Reg) (i : BitVec 23) (s : State) : Host.Outcome State Fault Refusal :=
  s.finish (ldiEffect dr i s)

end Sys2Proof.Machine
end

