-- ==== Sys2Proof/Machine/MulDiv.lean ====
section
/-! DEFINITION. MPY, MPYUHI, MPYSHI, DIVU, DIVS (42_multiply_divide.md). -/

namespace Sys2Proof.Machine

/-- MPY (R181). -/
def mpyEffect (cnd : Cond) (dr : Reg) (b : OpB) (s : State) : Event :=
  aluEffect mpyResult cnd dr b s
def execMpy (cnd : Cond) (dr : Reg) (b : OpB) (s : State) : Host.Outcome State Fault Refusal :=
  s.finish (mpyEffect cnd dr b s)

/-- MPYUHI (R182). -/
def mpyuhiEffect (cnd : Cond) (dr : Reg) (b : OpB) (s : State) : Event :=
  aluEffect mpyuhiResult cnd dr b s
def execMpyuhi (cnd : Cond) (dr : Reg) (b : OpB) (s : State) : Host.Outcome State Fault Refusal :=
  s.finish (mpyuhiEffect cnd dr b s)

/-- MPYSHI (R183). -/
def mpyshiEffect (cnd : Cond) (dr : Reg) (b : OpB) (s : State) : Event :=
  aluEffect mpyshiResult cnd dr b s
def execMpyshi (cnd : Cond) (dr : Reg) (b : OpB) (s : State) : Host.Outcome State Fault Refusal :=
  s.finish (mpyshiEffect cnd dr b s)

/-- DIVU: a zero divisor raises DivideByZero and writes nothing (R184, R186). -/
def divuEffect (cnd : Cond) (dr : Reg) (b : OpB) (s : State) : Event :=
  if s.condHolds cnd && s.opB b == 0#32 then .raised .divideByZero s
  else aluEffect divuResult cnd dr b s
def execDivu (cnd : Cond) (dr : Reg) (b : OpB) (s : State) : Host.Outcome State Fault Refusal :=
  s.finish (divuEffect cnd dr b s)

/-- DIVS: a zero divisor raises DivideByZero and writes nothing; where the quotient does not fit, the
result and the flags are free values of draw `s.fresh` (R185, R186, U6). -/
def divsEffect (cnd : Cond) (dr : Reg) (b : OpB) (s : State) : Event :=
  if s.condHolds cnd && s.opB b == 0#32 then .raised .divideByZero s
  else
    aluEffect (divsResult s.fresh) cnd dr b
      (s.drawIf (s.condHolds cnd && divsOverflows (s.readReg dr) (s.opB b)))
def execDivs (cnd : Cond) (dr : Reg) (b : OpB) (s : State) : Host.Outcome State Fault Refusal :=
  s.finish (divsEffect cnd dr b s)

end Sys2Proof.Machine
end

