-- ==== Sys2Proof/Machine/Shift.lean ====
section
/-! DEFINITION. LSR, LSL, ASR, ROL, BREV, POPC (41_shift_bit.md). -/

namespace Sys2Proof.Machine

/-- LSR (R161). -/
def lsrEffect (cnd : Cond) (dr : Reg) (b : OpB) (s : State) : Event :=
  aluEffect lsrResult cnd dr b s
def execLsr (cnd : Cond) (dr : Reg) (b : OpB) (s : State) : Host.Outcome State Fault Refusal :=
  s.finish (lsrEffect cnd dr b s)

/-- LSL (R162). -/
def lslEffect (cnd : Cond) (dr : Reg) (b : OpB) (s : State) : Event :=
  aluEffect lslResult cnd dr b s
def execLsl (cnd : Cond) (dr : Reg) (b : OpB) (s : State) : Host.Outcome State Fault Refusal :=
  s.finish (lslEffect cnd dr b s)

/-- ASR (R163). -/
def asrEffect (cnd : Cond) (dr : Reg) (b : OpB) (s : State) : Event :=
  aluEffect asrResult cnd dr b s
def execAsr (cnd : Cond) (dr : Reg) (b : OpB) (s : State) : Host.Outcome State Fault Refusal :=
  s.finish (asrEffect cnd dr b s)

/-- ROL (R164). -/
def rolEffect (cnd : Cond) (dr : Reg) (b : OpB) (s : State) : Event :=
  aluEffect rolResult cnd dr b s
def execRol (cnd : Cond) (dr : Reg) (b : OpB) (s : State) : Host.Outcome State Fault Refusal :=
  s.finish (rolEffect cnd dr b s)

/-- BREV: no flag changes, the old DR is not used (R165). -/
def brevEffect (cnd : Cond) (dr : Reg) (b : OpB) (s : State) : Event :=
  writeEffect (fun _ opb => bitrev opb) cnd dr b s
def execBrev (cnd : Cond) (dr : Reg) (b : OpB) (s : State) : Host.Outcome State Fault Refusal :=
  s.finish (brevEffect cnd dr b s)

/-- POPC: the old DR is not used (R166). -/
def popcEffect (cnd : Cond) (dr : Reg) (b : OpB) (s : State) : Event :=
  aluEffect (fun _ opb => popcResult opb) cnd dr b s
def execPopc (cnd : Cond) (dr : Reg) (b : OpB) (s : State) : Host.Outcome State Fault Refusal :=
  s.finish (popcEffect cnd dr b s)

end Sys2Proof.Machine
end

