-- ==== Sys2Proof/Machine/Special.lean ====
section
/-! DEFINITION. NOOP, BREAK, the floating-point and the reserved opcodes (45_special_fp.md). -/

namespace Sys2Proof.Machine

/-- NOOP: nothing; the Operand B bits are ignored (R241, R129). -/
def noopEffect (_cnd : Cond) (_x : BitVec 19) (s : State) : Event := .done s
def execNoop (cnd : Cond) (x : BitVec 19) (s : State) : Host.Outcome State Fault Refusal :=
  s.finish (noopEffect cnd x s)

/-- BREAK: the immediate is free for a debugger (R243, R244). -/
def brkEffect (cnd : Cond) (_x : BitVec 19) (s : State) : Event :=
  if s.condHolds cnd then .broke s else .done s
def execBrk (cnd : Cond) (x : BitVec 19) (s : State) : Host.Outcome State Fault Refusal :=
  s.finish (brkEffect cnd x s)

/-- Opcodes 5'h18 to 5'h1a with DR = CC: no meaning (R245, 90_conflicts.md C3, U8). -/
def reservedCcEffect : Event := .refused .reservedCcEncoding
def execReserved18Cc (_cnd : Cond) (_x : BitVec 19) (s : State) :
    Host.Outcome State Fault Refusal :=
  s.finish reservedCcEffect
def execReserved19Cc (_cnd : Cond) (_x : BitVec 19) (s : State) :
    Host.Outcome State Fault Refusal :=
  s.finish reservedCcEffect
def execReserved1aCc (_cnd : Cond) (_x : BitVec 19) (s : State) :
    Host.Outcome State Fault Refusal :=
  s.finish reservedCcEffect

/-- An unimplemented opcode: IllegalInstruction at decode, whatever the condition (R246, R252,
60_exceptions.md R341, D17). -/
def illegalEffect (s : State) : Event := .raised .illegalInstruction s

/-- FPADD (R246). -/
def execFpadd (_cnd : Cond) (_dr : Reg) (_b : OpB) (s : State) :
    Host.Outcome State Fault Refusal :=
  s.finish (illegalEffect s)
/-- FPSUB (R247). -/
def execFpsub (_cnd : Cond) (_dr : Reg) (_b : OpB) (s : State) :
    Host.Outcome State Fault Refusal :=
  s.finish (illegalEffect s)
/-- FPMPY (R248). -/
def execFpmpy (_cnd : Cond) (_dr : Reg) (_b : OpB) (s : State) :
    Host.Outcome State Fault Refusal :=
  s.finish (illegalEffect s)
/-- FPDIV (R249). -/
def execFpdiv (_cnd : Cond) (_dr : Reg) (_b : OpB) (s : State) :
    Host.Outcome State Fault Refusal :=
  s.finish (illegalEffect s)
/-- FPCVT (R250). -/
def execFpcvt (_cnd : Cond) (_dr : Reg) (_b : OpB) (s : State) :
    Host.Outcome State Fault Refusal :=
  s.finish (illegalEffect s)
/-- FPINT (R251). -/
def execFpint (_cnd : Cond) (_dr : Reg) (_b : OpB) (s : State) :
    Host.Outcome State Fault Refusal :=
  s.finish (illegalEffect s)
/-- Opcode 5'h1e (R252). -/
def execReserved1e (_cnd : Cond) (_dr : Reg) (_b : OpB) (s : State) :
    Host.Outcome State Fault Refusal :=
  s.finish (illegalEffect s)
/-- Opcode 5'h1f (R253). -/
def execReserved1f (_cnd : Cond) (_dr : Reg) (_b : OpB) (s : State) :
    Host.Outcome State Fault Refusal :=
  s.finish (illegalEffect s)

end Sys2Proof.Machine
end

