-- ==== Sys2Proof/Machine/Compact.lean ====
section
/-! DEFINITION. Compact words: VLIW (30_encoding.md R115 to R121). -/

namespace Sys2Proof.Machine

/-- The effect of a one-instruction word, before the PC advances. A compact word is no half of a
compact word: `halfInstr` never gives one. -/
def singleEffect (i : Instr) (s : State) : Event :=
  match i with
  | .vliw _ _ _ => illegalEffect s
  | .noop cnd x => noopEffect cnd x s
  | .brk cnd x => brkEffect cnd x s
  | .lock cnd x => lockEffect cnd x s
  | .reserved18Cc _ _ => reservedCcEffect
  | .reserved19Cc _ _ => reservedCcEffect
  | .reserved1aCc _ _ => reservedCcEffect
  | .sub cnd dr b => subEffect cnd dr b s
  | .and cnd dr b => andEffect cnd dr b s
  | .add cnd dr b => addEffect cnd dr b s
  | .or cnd dr b => orEffect cnd dr b s
  | .xor cnd dr b => xorEffect cnd dr b s
  | .lsr cnd dr b => lsrEffect cnd dr b s
  | .lsl cnd dr b => lslEffect cnd dr b s
  | .asr cnd dr b => asrEffect cnd dr b s
  | .mpy cnd dr b => mpyEffect cnd dr b s
  | .ldilo cnd dr b => ldiloEffect cnd dr b s
  | .mpyuhi cnd dr b => mpyuhiEffect cnd dr b s
  | .mpyshi cnd dr b => mpyshiEffect cnd dr b s
  | .brev cnd dr b => brevEffect cnd dr b s
  | .popc cnd dr b => popcEffect cnd dr b s
  | .rol cnd dr b => rolEffect cnd dr b s
  | .mov cnd dr a br bu off => movEffect cnd dr a br bu off s
  | .cmp cnd dr b => cmpEffect cnd dr b s
  | .tst cnd dr b => tstEffect cnd dr b s
  | .lod cnd dr b => lodEffect cnd dr b s
  | .sto cnd dr b => stoEffect cnd dr b s
  | .divu cnd dr b => divuEffect cnd dr b s
  | .divs cnd dr b => divsEffect cnd dr b s
  | .ldi dr i => ldiEffect dr i s
  | .fpadd _ _ _ => illegalEffect s
  | .fpsub _ _ _ => illegalEffect s
  | .fpmpy _ _ _ => illegalEffect s
  | .fpdiv _ _ _ => illegalEffect s
  | .fpcvt _ _ _ => illegalEffect s
  | .fpint _ _ _ => illegalEffect s
  | .reserved1e _ _ _ => illegalEffect s
  | .reserved1f _ _ _ => illegalEffect s

/-- The half's opcode is one that writes DR (10_state.md R28). -/
def halfWritesDr (h : Half) : Bool :=
  decide (h.op.toNat ≤ 0x0f) || h.op == 0x12#5 || h.op == 0x14#5 || h.op == 0x15#5 || h.isLdi

/-- The half writes register 14. -/
def halfWritesCc (h : Half) : Bool := h.dr == .cc && halfWritesDr h

/-- Why the model gives a compact word no meaning, if it does not (R119, R120, R121, R128 row 7). -/
def compactRefusal (layout : Option LdiLayout) (h1 h2 : Half) : Option Refusal :=
  if (h1.isLdi || h2.isLdi) && layout.isNone then some .compactLdiWithoutLayout
  else if (h1.isMov && !h1.sel) || (h2.isMov && !h2.sel) then some .compactMovImmediate
  else if halfWritesCc h1 then some .compactFirstHalfWritesCc
  else if h1.op == 0x19#5 && h1.dr == .pc then some .compactFirstHalfBreak
  else if h1.op == 0x1a#5 && h1.dr == .pc then some .compactFirstHalfLock
  else none

/-- The immediate of a load immediate in the first half takes in a bit of VCND (R119, log 18). -/
def vcndCovered (layout : Option LdiLayout) (h1 : Half) : Bool :=
  h1.isLdi &&
    (match layout with
     | none => false
     | some l => l.first.any (fun p => decide (19 ≤ p) && decide (p ≤ 21)))

/-- The effective condition of the first half: always, where the word has no VCND field. -/
def firstHalfCond (layout : Option LdiLayout) (h1 : Half) (vcnd : BitVec 3) : Cond :=
  if vcndCovered layout h1 then .always else firstCond vcnd

/-- The effective condition of the second half: always, where the word has no VCND field. -/
def secondHalfCond (layout : Option LdiLayout) (h1 : Half) (vcnd : BitVec 3) : Cond :=
  if vcndCovered layout h1 then .always else secondCond vcnd

/-- The effect of one half under its effective condition: its Standard-equivalent word (R117), or a
load immediate under the layout of `VLIW_LDI`, whose bits `positions` selects (R119). -/
def halfEffect (word : Word) (positions : LdiLayout → List Nat) (cnd : Cond) (h : Half)
    (s : State) : Event :=
  if h.isLdi then
    match s.cfg.vliwLdi with
    | none => .refused .compactLdiWithoutLayout
    | some l =>
      if l.conditional && !s.condHolds cnd then .done s
      else s.writeReg h.dr (pickSigned word (positions l))
  else singleEffect (halfInstr cnd h) s

/-- The two halves one after the other: the second runs only if the first completed and did not
write register 15 (R121). -/
def compactEffect (h1 : Half) (vcnd : BitVec 3) (h2 : Half) (s : State) : Event :=
  let word := compactWord h1 vcnd h2
  let c1 := firstHalfCond s.cfg.vliwLdi h1 vcnd
  let c2 := secondHalfCond s.cfg.vliwLdi h1 vcnd
  match halfEffect word LdiLayout.first c1 h1 { s with phase := .first } with
  | .done t => halfEffect word LdiLayout.second c2 h2 { t with phase := .second }
  | e => e

/-- The end of a compact word: as for any word, but that a fault in its first half sets `VPH` (R121,
60_exceptions.md R350). -/
def State.finishCompact (s : State) : Event → Host.Outcome State Fault Refusal
  | .raised x t => s.finish (.raised x t.markPhase)
  | e => s.finish e

/-- VLIW: illegal when compact words are not decoded (00_scope.md R8), refused as compactRefusal
says, else both halves (R121). -/
def execVliw (h1 : Half) (vcnd : BitVec 3) (h2 : Half) (s : State) :
    Host.Outcome State Fault Refusal :=
  if s.cfg.optVliw then
    match compactRefusal s.cfg.vliwLdi h1 h2 with
    | some r => .refused r
    | none => s.finishCompact (compactEffect h1 vcnd h2 s)
  else s.finish (illegalEffect s)

end Sys2Proof.Machine
end

