-- ==== Sys2Proof/Machine/Dispatch.lean ====
section
/-! DEFINITION. The dispatch of an instruction to its meaning: one arm for each row of
spec/opcode_table.json. -/

namespace Sys2Proof.Machine

def exec (i : Instr) (s : State) : Host.Outcome State Fault Refusal :=
  match i with
  | .vliw h1 vcnd h2 => Sys2Proof.Machine.execVliw h1 vcnd h2 s
  | .noop cnd x => Sys2Proof.Machine.execNoop cnd x s
  | .brk cnd x => Sys2Proof.Machine.execBrk cnd x s
  | .lock cnd x => Sys2Proof.Machine.execLock cnd x s
  | .reserved18Cc cnd x => Sys2Proof.Machine.execReserved18Cc cnd x s
  | .reserved19Cc cnd x => Sys2Proof.Machine.execReserved19Cc cnd x s
  | .reserved1aCc cnd x => Sys2Proof.Machine.execReserved1aCc cnd x s
  | .sub cnd dr b => Sys2Proof.Machine.execSub cnd dr b s
  | .and cnd dr b => Sys2Proof.Machine.execAnd cnd dr b s
  | .add cnd dr b => Sys2Proof.Machine.execAdd cnd dr b s
  | .or cnd dr b => Sys2Proof.Machine.execOr cnd dr b s
  | .xor cnd dr b => Sys2Proof.Machine.execXor cnd dr b s
  | .lsr cnd dr b => Sys2Proof.Machine.execLsr cnd dr b s
  | .lsl cnd dr b => Sys2Proof.Machine.execLsl cnd dr b s
  | .asr cnd dr b => Sys2Proof.Machine.execAsr cnd dr b s
  | .mpy cnd dr b => Sys2Proof.Machine.execMpy cnd dr b s
  | .ldilo cnd dr b => Sys2Proof.Machine.execLdilo cnd dr b s
  | .mpyuhi cnd dr b => Sys2Proof.Machine.execMpyuhi cnd dr b s
  | .mpyshi cnd dr b => Sys2Proof.Machine.execMpyshi cnd dr b s
  | .brev cnd dr b => Sys2Proof.Machine.execBrev cnd dr b s
  | .popc cnd dr b => Sys2Proof.Machine.execPopc cnd dr b s
  | .rol cnd dr b => Sys2Proof.Machine.execRol cnd dr b s
  | .mov cnd dr a br bu off => Sys2Proof.Machine.execMov cnd dr a br bu off s
  | .cmp cnd dr b => Sys2Proof.Machine.execCmp cnd dr b s
  | .tst cnd dr b => Sys2Proof.Machine.execTst cnd dr b s
  | .lod cnd dr b => Sys2Proof.Machine.execLod cnd dr b s
  | .sto cnd dr b => Sys2Proof.Machine.execSto cnd dr b s
  | .divu cnd dr b => Sys2Proof.Machine.execDivu cnd dr b s
  | .divs cnd dr b => Sys2Proof.Machine.execDivs cnd dr b s
  | .ldi dr imm => Sys2Proof.Machine.execLdi dr imm s
  | .fpadd cnd dr b => Sys2Proof.Machine.execFpadd cnd dr b s
  | .fpsub cnd dr b => Sys2Proof.Machine.execFpsub cnd dr b s
  | .fpmpy cnd dr b => Sys2Proof.Machine.execFpmpy cnd dr b s
  | .fpdiv cnd dr b => Sys2Proof.Machine.execFpdiv cnd dr b s
  | .fpcvt cnd dr b => Sys2Proof.Machine.execFpcvt cnd dr b s
  | .fpint cnd dr b => Sys2Proof.Machine.execFpint cnd dr b s
  | .reserved1e cnd dr b => Sys2Proof.Machine.execReserved1e cnd dr b s
  | .reserved1f cnd dr b => Sys2Proof.Machine.execReserved1f cnd dr b s

end Sys2Proof.Machine
end

