-- ==== Sys2Proof/Machine/LockRegion.lean ====
section
/-! DEFINITION. The lock region: which instructions it covers, and whether an interrupt may be taken
at the boundary before the next word (44_load_store.md R226, 60_exceptions.md R345, log 13). -/

namespace Sys2Proof.Machine

/-! ### What an instruction is to a lock region -/

/-- M, A or something that breaks the shape (R226). -/
inductive LockClass where
  | mem
  | alu
  | other
deriving DecidableEq, Repr

/-- An instruction that writes DR when its condition holds: A, unless it writes register 14 or 15. -/
def writerClass (s : State) (cnd : Cond) (dr : Reg) : LockClass :=
  if dr.isGpr || !s.condHolds cnd then .alu else .other

/-- The class of a one-instruction word (R226): M is a LOD or STO; A is an instruction that is
neither one nor writes register 14 or 15, BREAK (R243) and one whose condition fails among them. A
LOCK that executes, an illegal encoding (it raises an exception) and a refused one break the shape.
DESIGN CHOICE, log 13: a LOD into the PC is an M, and the shape goes on at the jump's target. -/
def lockClass (s : State) : Instr → LockClass
  | .lod _ _ _ => .mem
  | .sto _ _ _ => .mem
  | .noop _ _ => .alu
  | .brk _ _ => .alu
  | .cmp _ _ _ => .alu
  | .tst _ _ _ => .alu
  | .lock cnd _ => if s.condHolds cnd then .other else .alu
  | .sub cnd dr _ => writerClass s cnd dr
  | .and cnd dr _ => writerClass s cnd dr
  | .add cnd dr _ => writerClass s cnd dr
  | .or cnd dr _ => writerClass s cnd dr
  | .xor cnd dr _ => writerClass s cnd dr
  | .lsr cnd dr _ => writerClass s cnd dr
  | .lsl cnd dr _ => writerClass s cnd dr
  | .asr cnd dr _ => writerClass s cnd dr
  | .mpy cnd dr _ => writerClass s cnd dr
  | .ldilo cnd dr _ => writerClass s cnd dr
  | .mpyuhi cnd dr _ => writerClass s cnd dr
  | .mpyshi cnd dr _ => writerClass s cnd dr
  | .brev cnd dr _ => writerClass s cnd dr
  | .popc cnd dr _ => writerClass s cnd dr
  | .rol cnd dr _ => writerClass s cnd dr
  | .mov cnd dr _ _ _ _ => writerClass s cnd dr
  | .divu cnd dr _ => writerClass s cnd dr
  | .divs cnd dr _ => writerClass s cnd dr
  | .ldi dr _ => writerClass s .always dr
  | .vliw _ _ _ => .other
  | .reserved18Cc _ _ => .other
  | .reserved19Cc _ _ => .other
  | .reserved1aCc _ _ => .other
  | .fpadd _ _ _ => .other
  | .fpsub _ _ _ => .other
  | .fpmpy _ _ _ => .other
  | .fpdiv _ _ _ => .other
  | .fpcvt _ _ _ => .other
  | .fpint _ _ _ => .other
  | .reserved1e _ _ _ => .other
  | .reserved1f _ _ _ => .other

/-- The class of a half under its effective condition; a load immediate writes DR as the layout of
`VLIW_LDI` says (30_encoding.md R119). -/
def halfLockClass (s : State) (cnd : Cond) (h : Half) : LockClass :=
  if h.isLdi then
    match s.cfg.vliwLdi with
    | none => .other
    | some l => writerClass s (if l.conditional then cnd else .always) h.dr
  else lockClass s (halfInstr cnd h)

/-- The first half of a compact word writes register 15, so that the second is not executed
(30_encoding.md R121). Of these only a LOD does not break the shape. -/
def skipsSecondHalf (s : State) (cnd : Cond) (h1 : Half) : Bool :=
  h1.dr == .pc && halfWritesDr h1 && s.condHolds cnd

/-- The classes of the instructions a word executes: a compact word counts as its two, or as its first
where that one jumps. Both conditions are tested on the flags before the word; a memory first half,
the only one after which the class of the second matters, changes none. -/
def lockClasses (s : State) : Instr → List LockClass
  | .vliw h1 vcnd h2 =>
    let c1 := firstHalfCond s.cfg.vliwLdi h1 vcnd
    if !s.cfg.optVliw then [.other]
    else if skipsSecondHalf s c1 h1 then [halfLockClass s c1 h1]
    else [halfLockClass s c1 h1, halfLockClass s (secondHalfCond s.cfg.vliwLdi h1 vcnd) h2]
  | i => [lockClass s i]

/-! ### How far a region has come -/

/-- The region after one more instruction of a class: the shapes `M`, `M ; M` and `M ; A ; M`
(R226). -/
def LockState.after : LockState → LockClass → LockState
  | .armed, .mem => .afterM
  | .afterM, .alu => .afterMA
  | _, _ => .off

/-- The state in which a word begins to execute: the lock region has counted it. A LOCK whose
condition holds then starts a region of its own; an entry to or a return from supervisor mode ends
any region (60_exceptions.md R352, R355). -/
def State.beginWord (s : State) (i : Instr) : State :=
  { s with lock := (lockClasses s i).foldl LockState.after s.lock }

/-! ### Whether the region takes in the next word -/

/-- Whether the region takes in the next word. `either`: the spec leaves it open. -/
inductive LockHold where
  | held
  | released
  | either
deriving DecidableEq, Repr

/-- Whether a region that has come this far takes in a word of these classes: the bus is released
after the last M of the longest matching shape (R226). `memFollows` says that the word after it
begins with an M. An A that no M follows lies after that last M, and before the first instruction
that breaks the shape: R226 names both as the end, so either holds (log 13). -/
def LockState.hold (l : LockState) (now : List LockClass) (memFollows : Bool) : LockHold :=
  match l, now with
  | .off, _ => .released
  | _, .mem :: _ => .held
  | .afterM, [.alu] => if memFollows then .held else .either
  | .afterM, .alu :: .mem :: _ => .held
  | .afterM, .alu :: _ => .either
  | _, _ => .released

/-- The words a fetch of this address may return; none on a bus error (20_memory.md R84). -/
def State.fetchable (s : State) (a : Word) : List Word :=
  if s.busError .fetch a then []
  else s.mem.readWord (s.busAddr a) :: s.staleWords (s.busAddr a)

/-- Whatever a fetch of the word after the next returns begins with an M. DESIGN CHOICE, log 13: where
the words it may return disagree, no M is taken to follow for sure. -/
def State.memFollows (s : State) : Bool :=
  let words := s.fetchable (s.pc + 1#32)
  !words.isEmpty &&
    words.all (fun w => (lockClasses s (decodeWord w)).head? == some LockClass.mem)

/-- Whether the region takes in the next word, over all words a fetch may return. A word that meets a
bus error is an exception, which breaks the shape. DESIGN CHOICE, log 13: where memory's word and the
stale words disagree, the answer is `either`, and the free value that then decides on the interrupt is
drawn independently of the one that picks the fetched word. -/
def State.lockHold (s : State) : LockHold :=
  let holds := (s.fetchable s.pc).map
    (fun w => s.lock.hold (lockClasses s (decodeWord w)) s.memFollows)
  if holds.all (· == .released) then .released
  else if holds.all (· == .held) then .held
  else .either

/-! ### Interrupts (60_exceptions.md R345, R357 line 4) -/

/-- The line is sampled high before the next word: user mode, no single-step. -/
def State.samplesInterrupt (s : State) (irq : Bool) : Bool := s.cc.gie && !s.cc.step && irq

/-- An interrupt is taken before the next word: the line is sampled high and the lock region does not
take in the word; where that is open, a free value says (log 13). -/
def State.takesInterrupt (s : State) (irq : Bool) : Bool :=
  s.samplesInterrupt irq &&
    (match s.lockHold with
     | .held => false
     | .released => true
     | .either => Config.freeLockReleased s.fresh)

/-- That free value is drawn. -/
def State.drawsInterrupt (s : State) (irq : Bool) : Bool :=
  s.samplesInterrupt irq && s.lockHold == .either

end Sys2Proof.Machine
end

