-- ==== Sys2Proof/Machine/Run.lean ====
section
/-! DEFINITION. What a step does with its input levels and with the word it fetches
(60_exceptions.md R357, R358), and placing a word where the next fetch reads it. -/

namespace Sys2Proof.Machine

/-- Fetch and execute one word: a bus error on the fetch raises IllegalInstruction (R341 d); else the
word's instruction runs, and a stepped word ends in supervisor mode (R365). -/
def runWord (s : State) : Host.Outcome State Fault Refusal :=
  match s.fetch with
  | none => .next (s.takeException .illegalInstruction)
  | some (w, t) =>
    afterWordOutcome s.cc.gie (exec (decodeWord w) (t.beginWord (decodeWord w)))

/-- One step with the given input levels (R358): reset, halted, asleep, interrupt, or one word. -/
def stepWith (inp : Input) (s : State) : Host.Outcome State Fault Refusal :=
  if inp.reset then .next s.systemReset
  else if s.halted then .next s
  else if s.cc.gie && s.cc.sleep then
    if inp.irq then .next s.trapToSupervisor else .next s
  else
    let t := s.drawIf (s.drawsInterrupt inp.irq)
    if s.takesInterrupt inp.irq then .next t.trapToSupervisor else runWord t

/-- This step's input levels low, those of later steps unchanged. -/
def quietInputs : List Input → List Input
  | [] => []
  | _ :: rest => { irq := false, reset := false } :: rest

/-- The word `w` in memory at the active PC, no stale word for that address in the cache, the CPU
running, and this step's input lines low (log 24). -/
def State.placeWord (s : State) (w : Word) : State :=
  { s with
    mem := s.mem.writeWord (s.busAddr s.pc) w
    icache := s.icache.filter (fun e => e.1 ≠ s.busAddr s.pc)
    cc := { s.cc with sleep := false }
    halted := false
    inputs := quietInputs s.inputs }

end Sys2Proof.Machine
end

