-- ==== Sys2Proof/Machine/Step.lean ====
section
/-! DEFINITION. One step of the machine (60_exceptions.md R358). -/

namespace Sys2Proof.Machine

/-- One step: the first of the coming input levels is this step's. -/
def step (s : State) : Host.Outcome State Fault Refusal := stepWith s.input s.tick

/-- The state with the instruction whose bits are `w` (those at and above `nbits` zero) placed where
step fetches its next instruction, so that the next step runs it; a platform that answers a fetch
at that address with a bus error is left as it is. -/
def State.withFetchWord (s : State) (nbits w : Nat) : State :=
  s.placeWord (BitVec.ofNat 32 (w % 2 ^ nbits))

end Sys2Proof.Machine
end

