-- ==== Sys2Proof/Safety.lean ====
section
/-! DEFINITION. What a state must be for claims to speak of it: the invariants of the machine, in the
terms the statements use. Each holds after reset, and every step keeps it. -/

namespace Sys2Proof.Machine

/-- No two of the listed bits are set. -/
def atMostOne : List Bool → Bool
  | [] => true
  | b :: rest => (!b || rest.all (fun x => !x)) && atMostOne rest

/-- The user cause bits: uCC bits 7 to 12 (10_state.md R31). -/
def Status.userCauses (c : Status) : List Bool :=
  [c.uBreak, c.uIll, c.uTrap, c.uBusErr, c.uDive, c.uFpe]

/-- Memory has its canonical form and lists only cells of the address space (log 5, 20_memory.md
R70). -/
def State.memOk (s : State) : Bool := s.mem.wf && s.mem.inSpace s.cfg.aw

/-- In user mode uCC bits 7 to 13 are all 0 (10_state.md R45, "always 0 here"). -/
def State.userBitsClear (s : State) : Bool :=
  !s.cc.gie || (s.cc.userCauses.all (fun x => !x) && !s.cc.vph)

/-- At most one user cause bit is set (60_exceptions.md R354). -/
def State.oneCause (s : State) : Bool := atMostOne s.cc.userCauses

/-- A supervisor with SLEEP set is halted (10_state.md R34). -/
def State.sleepOk (s : State) : Bool := s.cc.gie || !s.cc.sleep || s.halted

/-- The floating-point exception bits are 0 (60_exceptions.md R340: never raised). -/
def State.noFpe (s : State) : Bool := !s.cc.uFpe && !s.cc.sFpe

/-- A CPU with a supervisor exception bit set is halted (10_state.md R38, 60_exceptions.md R351). -/
def State.supFaultHalts (s : State) : Bool :=
  !(s.cc.sIll || s.cc.sBusErr || s.cc.sDive) || s.halted

/-- The invariant of the machine. -/
def State.Inv (s : State) : Prop :=
  s.cfg.wf = true ∧ s.memOk = true ∧ s.userBitsClear = true ∧ s.oneCause = true ∧
    s.sleepOk = true ∧ s.noFpe = true ∧ s.supFaultHalts = true

/-! ### Steps -/

/-- The CPU runs a word in this step: no reset, not halted, not asleep, and no interrupt taken, which
is one that is high in user mode outside a single-step and before a word the lock region does not
take in (60_exceptions.md R358). -/
def State.runsWord (s : State) : Bool :=
  !s.input.reset && !s.halted && !(s.cc.gie && s.cc.sleep) &&
    !s.takesInterrupt s.input.irq

/-- The instruction `i` stands in memory at address `a`, and the cache holds no other word for that
address. -/
def State.holdsAt (s : State) (a : Word) (i : Instr) : Prop :=
  decode [s.mem.readByte (4 * s.busAddr a), s.mem.readByte (4 * s.busAddr a + 1),
      s.mem.readByte (4 * s.busAddr a + 2), s.mem.readByte (4 * s.busAddr a + 3)]
    = .ok (i, []) ∧ s.staleWords (s.busAddr a) = []

/-- The instruction `i` stands at the active PC. -/
def State.holdsNext (s : State) (i : Instr) : Prop := s.holdsAt s.pc i

/-! ### What a word leaves unchanged -/

/-- The set that is not this one. -/
def Bank.other : Bank → Bank
  | .sup => .usr
  | .usr => .sup

/-- All but the two register sets and the draw counter is as before; memory byte by byte. -/
def State.restKept (s t : State) : Prop :=
  t.cfg = s.cfg ∧ t.cc = s.cc ∧ t.icache = s.icache ∧ t.lock = s.lock ∧ t.halted = s.halted ∧
    t.phase = s.phase ∧ t.inputs = s.inputs ∧ ∀ a, t.mem.readByte a = s.mem.readByte a

/-- The general registers and bits 31..15 of CC of both sets are as before. -/
def State.gprsKept (s t : State) : Prop :=
  ∀ b, (∀ j : Fin 14, (t.regs b).gpr[j] = (s.regs b).gpr[j]) ∧ (t.regs b).up = (s.regs b).up

/-- The flags of both sets are as before. -/
def State.flagsKept (s t : State) : Prop := ∀ b, (t.regs b).flags = (s.regs b).flags

/-- The active PC is `target`, the other set's PC as before. -/
def State.pcAt (s t : State) (target : Word) : Prop :=
  (t.regs s.bank).pc = target ∧ (t.regs s.bank.other).pc = (s.regs s.bank.other).pc

/-- `R[b][i]` is `r`, every other general register of both sets and bits 31..15 of CC are as before,
the active PC is at the next word, the inactive set's flags and all the rest are as before. -/
def State.onlyGpr (s t : State) (b : Bank) (i : Fin 14) (r : Word) : Prop :=
  (t.regs b).gpr[i] = r ∧
    (∀ b' (j : Fin 14), ¬(b' = b ∧ j = i) → (t.regs b').gpr[j] = (s.regs b').gpr[j]) ∧
    (∀ b', (t.regs b').up = (s.regs b').up) ∧ s.pcAt t (s.pc + 1#32) ∧
    (t.regs s.bank.other).flags = (s.regs s.bank.other).flags ∧ s.restKept t

/-- Only the active PC changed, to `r`. -/
def State.jumpedTo (s t : State) (r : Word) : Prop :=
  s.gprsKept t ∧ s.flagsKept t ∧ s.pcAt t r ∧ s.restKept t

/-- `WriteCC(cur, r)` happened and the PC of the set that issued it advanced (00_scope.md R15). -/
def State.wroteCc (s t : State) (r : Word) : Prop :=
  ∃ n, t = { (s.writeCc r).setPc s.bank (s.pc + 1#32) with fresh := n }

/-- Z and N are those of the result `r` (10_state.md R44). -/
def Flags.zn (f : Flags) (r : Word) : Prop := f.z = decide (r = 0#32) ∧ f.n = r.getLsbD 31

/-- The instruction completes with result `r` in DR. With DR a general register the active flags
satisfy `fl` if the condition is "always" and are as before if not; with DR = PC it jumps to `r` and
no flag changes; with DR = CC the write decides (R42). -/
def computes (i : Instr) (s : State) (cnd : Cond) (dr : Reg) (r : Word) (fl : Flags → Prop) :
    Prop :=
  ∃ t, exec i s = .next t ∧
    match dr with
    | .gpr j =>
      s.onlyGpr t s.bank j r ∧
        (cnd = .always → fl (t.regs s.bank).flags) ∧
        (cnd ≠ .always → (t.regs s.bank).flags = (s.regs s.bank).flags)
    | .pc => s.jumpedTo t r
    | .cc => s.wroteCc t r

/-- A word that began in `s` ended with `r` in register `dr` and no flag changed, unless `dr` is
CC. -/
def State.movedInto (s t : State) (dr : Reg) (r : Word) : Prop :=
  match dr with
  | .gpr j => s.onlyGpr t s.bank j r ∧ s.flagsKept t
  | .pc => s.jumpedTo t r
  | .cc => s.wroteCc t r

/-- The instruction completes with `r` in DR and changes no flag, unless DR is CC. -/
def moves (i : Instr) (s : State) (dr : Reg) (r : Word) : Prop :=
  ∃ t, exec i s = .next t ∧ s.movedInto t dr r

/-- The instruction completes with the active flags satisfying `fl` and changes nothing else. -/
def compares (i : Instr) (s : State) (fl : Flags → Prop) : Prop :=
  ∃ t, exec i s = .next t ∧ fl (t.regs s.bank).flags ∧
    (t.regs s.bank.other).flags = (s.regs s.bank.other).flags ∧ s.gprsKept t ∧
    s.pcAt t (s.pc + 1#32) ∧ s.restKept t

/-! ### Exception entries -/

/-- What `EXC_PC_POLICY` allows the user PC to be after a fault at `pc` (60_exceptions.md R353). -/
def excPcAllowed (c : Config) (pc after : Word) : Prop :=
  match c.excPcPolicy with
  | .fault => after = pc
  | .next => after = pc + 1#32
  | .any => after = pc ∨ after = pc + 1#32

/-- All but the register sets, the status bits, the lock, `halted` and the draw counter is as
before. -/
def State.outerKept (s t : State) : Prop :=
  t.cfg = s.cfg ∧ t.icache = s.icache ∧ t.phase = s.phase ∧ t.inputs = s.inputs ∧
    ∀ a, t.mem.readByte a = s.mem.readByte a

/-- An entry to supervisor mode from user mode (R352) with the status bits otherwise `c`: GIE, SLEEP
and STEP are 0, the lock is off, the user PC satisfies `pcOk`, and every other register of both sets
is as before. -/
def State.enteredSupervisor (s t : State) (c : Status) (pcOk : Word → Prop) : Prop :=
  t.cc = { c with gie := false, sleep := false, step := false } ∧ t.lock = .off ∧
    pcOk t.usr.pc ∧ t.usr = { s.usr with pc := t.usr.pc } ∧ t.sup = s.sup ∧
    t.halted = s.halted ∧ s.outerKept t

/-- A halt that leaves both register sets as before (R351, R372), with the status bits `c` and the
lock `l`. -/
def State.haltedInPlace (s t : State) (c : Status) (l : LockState) : Prop :=
  t.cc = c ∧ t.lock = l ∧ t.halted = true ∧ t.sup = s.sup ∧ t.usr = s.usr ∧ s.outerKept t

/-- The instruction raises `x`: in user mode the entry of R350, in supervisor mode the halt of
R351. -/
def raises (i : Instr) (s : State) (x : Exc) : Prop :=
  ∃ t, exec i s = .next t ∧
    (s.cc.gie = true →
      s.enteredSupervisor t (s.cc.setUserCause x) (excPcAllowed s.cfg s.pc)) ∧
    (s.cc.gie = false → s.haltedInPlace t (s.cc.setSupCause x) .off)

/-- The outcome with its next state changed by `f`. -/
def mapNext (f : State → State) :
    Host.Outcome State Fault Refusal → Host.Outcome State Fault Refusal
  | .next t => .next (f t)
  | .fault x => .fault x
  | .refused r => .refused r

/-! ### Kinds of instruction -/

/-- The condition of an instruction that does nothing but advance the PC when it fails (30_encoding.md
R112, R113): every one-instruction word with a CND field that is neither illegal nor refused. -/
def conditionOf : Instr → Option Cond
  | .noop cnd _ => some cnd
  | .brk cnd _ => some cnd
  | .lock cnd _ => some cnd
  | .sub cnd _ _ => some cnd
  | .and cnd _ _ => some cnd
  | .add cnd _ _ => some cnd
  | .or cnd _ _ => some cnd
  | .xor cnd _ _ => some cnd
  | .lsr cnd _ _ => some cnd
  | .lsl cnd _ _ => some cnd
  | .asr cnd _ _ => some cnd
  | .mpy cnd _ _ => some cnd
  | .ldilo cnd _ _ => some cnd
  | .mpyuhi cnd _ _ => some cnd
  | .mpyshi cnd _ _ => some cnd
  | .brev cnd _ _ => some cnd
  | .popc cnd _ _ => some cnd
  | .rol cnd _ _ => some cnd
  | .mov cnd _ _ _ _ _ => some cnd
  | .cmp cnd _ _ => some cnd
  | .tst cnd _ _ => some cnd
  | .lod cnd _ _ => some cnd
  | .sto cnd _ _ => some cnd
  | .divu cnd _ _ => some cnd
  | .divs cnd _ _ => some cnd
  | .vliw _ _ _ => none
  | .reserved18Cc _ _ => none
  | .reserved19Cc _ _ => none
  | .reserved1aCc _ _ => none
  | .ldi _ _ => none
  | .fpadd _ _ _ => none
  | .fpsub _ _ _ => none
  | .fpmpy _ _ _ => none
  | .fpdiv _ _ _ => none
  | .fpcvt _ _ _ => none
  | .fpint _ _ _ => none
  | .reserved1e _ _ _ => none
  | .reserved1f _ _ _ => none

/-- The instruction stores to memory, or is a compact word with a half that does (20_memory.md R72). -/
def storesMemory : Instr → Bool
  | .sto _ _ _ => true
  | .vliw h1 _ h2 => h1.op == 0x13#5 || h2.op == 0x13#5
  | _ => false

/-- The register an instruction names in its DR field, if it has one. -/
def drOf : Instr → Option Reg
  | .noop _ _ => some .pc
  | .brk _ _ => some .pc
  | .lock _ _ => some .pc
  | .reserved18Cc _ _ => some .cc
  | .reserved19Cc _ _ => some .cc
  | .reserved1aCc _ _ => some .cc
  | .sub _ dr _ => some dr
  | .and _ dr _ => some dr
  | .add _ dr _ => some dr
  | .or _ dr _ => some dr
  | .xor _ dr _ => some dr
  | .lsr _ dr _ => some dr
  | .lsl _ dr _ => some dr
  | .asr _ dr _ => some dr
  | .mpy _ dr _ => some dr
  | .ldilo _ dr _ => some dr
  | .mpyuhi _ dr _ => some dr
  | .mpyshi _ dr _ => some dr
  | .brev _ dr _ => some dr
  | .popc _ dr _ => some dr
  | .rol _ dr _ => some dr
  | .mov _ dr _ _ _ _ => some dr
  | .cmp _ dr _ => some dr
  | .tst _ dr _ => some dr
  | .lod _ dr _ => some dr
  | .sto _ dr _ => some dr
  | .divu _ dr _ => some dr
  | .divs _ dr _ => some dr
  | .ldi dr _ => some dr
  | .fpadd _ dr _ => some dr
  | .fpsub _ dr _ => some dr
  | .fpmpy _ dr _ => some dr
  | .fpdiv _ dr _ => some dr
  | .fpcvt _ dr _ => some dr
  | .fpint _ dr _ => some dr
  | .reserved1e _ dr _ => some dr
  | .reserved1f _ dr _ => some dr
  | .vliw _ _ _ => none

/-- The instruction, or a half of the compact word, names register 14 as its DR. -/
def namesCc : Instr → Bool
  | .vliw h1 _ h2 => h1.dr == .cc || h2.dr == .cc
  | i => drOf i == some .cc

/-- The instruction is a MOV whose A bit names the user set as its destination (43_move_immediate.md
R203). -/
def movesToUser : Instr → Bool
  | .mov _ _ a _ _ _ => a
  | _ => false

/-- The instruction is a compact word. -/
def isCompact : Instr → Bool
  | .vliw _ _ _ => true
  | _ => false

/-- LOD or STO: the M of a lock region (44_load_store.md R226). -/
def isMemory : Instr → Bool
  | .lod _ _ _ => true
  | .sto _ _ _ => true
  | _ => false

/-- The word's first instruction is a LOD or a STO. -/
def beginsWithMemory (c : Config) : Instr → Bool
  | .vliw h1 _ _ => c.optVliw && (h1.op == 0x12#5 || h1.op == 0x13#5)
  | i => isMemory i

/-- The A of a lock region (44_load_store.md R226), for a one-instruction word that is neither illegal
nor refused: no LOD or STO, and it writes neither register 14 nor register 15, because its DR is a
general register, or it writes no DR (CMP, TST, NOOP, BREAK), or its condition fails. -/
def State.isLockAlu (s : State) (i : Instr) : Bool :=
  !isMemory i &&
    (match i with
     | .ldi dr _ => dr.isGpr
     | .noop _ _ => true
     | .brk _ _ => true
     | .cmp _ _ _ => true
     | .tst _ _ _ => true
     | _ =>
       match conditionOf i, drOf i with
       | some cnd, some dr => dr.isGpr || !s.condHolds cnd
       | _, _ => false)

/-- The word's first instruction is the A of a lock region: of a compact word its first half, where a
load immediate writes DR as the layout of `VLIW_LDI` says (30_encoding.md R119). -/
def State.beginsWithLockAlu (s : State) : Instr → Bool
  | .vliw h1 vcnd _ =>
    s.cfg.optVliw &&
      (if h1.isLdi then
        match s.cfg.vliwLdi with
        | none => false
        | some l =>
          h1.dr.isGpr ||
            (l.conditional && !l.first.any (fun q => decide (19 ≤ q) && decide (q ≤ 21)) &&
              !s.condHolds (firstCond vcnd))
      else s.isLockAlu (halfInstr (firstCond vcnd) h1))
  | i => s.isLockAlu i

/-- Operand B of a half: a register of the active set, or four bits sign-extended (30_encoding.md
R116). -/
def State.halfOperand (s : State) (h : Half) : Word :=
  if h.sel then s.readReg (Reg.ofBits h.f) else BitVec.ofInt 32 h.f.toInt

/-- The half is a load immediate or a MOV with sel = 0 (30_encoding.md R119, R120). -/
def isLdiOrMovImmediate (h : Half) : Bool := h.isLdi || (h.op == 0x0f#5 && !h.sel)

/-- The spec does not refuse the half where it stands second: it is no MOV with sel = 0, and the
configuration has a layout for it if it is a load immediate (30_encoding.md R119, R120). -/
def State.halfAllowed (s : State) (h : Half) : Bool :=
  !(h.op == 0x0f#5 && !h.sel) && (!h.isLdi || s.cfg.vliwLdi.isSome)

/-- A half that always completes without a jump, a fault or a mode change: NOOP, a compare, or an
instruction other than LDI, LOD, STO, DIVU and DIVS with a general register as DR (a MOV in its
register form). -/
def plainHalf (h : Half) : Bool :=
  h.op == 0x10#5 || h.op == 0x11#5 || (h.op == 0x18#5 && h.dr == .pc) ||
    (h.dr.isGpr && decide (h.op.toNat ≤ 0x0f) && !(h.isMov && !h.sel))

/-- A first half, executed in `s` under the effective condition `cnd`, that completes without a jump,
a fault or a mode change: a plain one; one that writes a general register or, its condition failing,
register 15; a load or store without a bus error; a divide by other than 0. -/
def State.halfCompletes (s : State) (cnd : Cond) (h : Half) : Bool :=
  plainHalf h ||
    (!s.condHolds cnd &&
      (h.op == 0x13#5 ||
        (h.dr != .cc && !isLdiOrMovImmediate h &&
          (decide (h.op.toNat ≤ 0x12) || h.op == 0x14#5 || h.op == 0x15#5)))) ||
    (h.op == 0x13#5 && !s.busError .write (s.halfOperand h)) ||
    (h.op == 0x12#5 && h.dr.isGpr && !s.busError .read (s.halfOperand h)) ||
    ((h.op == 0x14#5 || h.op == 0x15#5) && h.dr.isGpr && s.halfOperand h != 0#32)

/-- A first half, executed in `s` under the effective condition `cnd`, that raises `x` (30_encoding.md
R117, R128; 42_multiply_divide.md R186; 44_load_store.md R220, R221). -/
def State.halfRaises (s : State) (cnd : Cond) (h : Half) : Exc → Bool
  | .illegalInstruction =>
    decide (0x1b ≤ h.op.toNat) || (decide (0x18 ≤ h.op.toNat) && h.dr.isGpr)
  | .divideByZero =>
    s.condHolds cnd && (h.op == 0x14#5 || h.op == 0x15#5) && h.dr != .cc && s.halfOperand h == 0#32
  | .busError =>
    s.condHolds cnd &&
      ((h.op == 0x12#5 && h.dr != .cc && s.busError .read (s.halfOperand h)) ||
        (h.op == 0x13#5 && s.busError .write (s.halfOperand h)))

/-- A first half, executed in `s`, that writes register 15 when its condition holds: an opcode that
writes DR, without a fault (46_control_transfer.md R271). -/
def State.halfJumps (s : State) (h : Half) : Bool :=
  h.dr == .pc && !isLdiOrMovImmediate h &&
    (decide (h.op.toNat ≤ 0x0f) || (h.op == 0x12#5 && !s.busError .read (s.halfOperand h)) ||
      ((h.op == 0x14#5 || h.op == 0x15#5) && s.halfOperand h != 0#32))

/-- The outcome `out` is that of a compact word `word` under the layout `l` whose second half `h2` begins
in `u`: a load immediate writes DR unless the layout makes it conditional and the condition fails;
any other half does what its Standard-equivalent word does. -/
def secondHalfEnds (word : Word) (l : LdiLayout) (cnd : Cond) (h2 : Half) (u : State)
    (out : Host.Outcome State Fault Refusal) : Prop :=
  if h2.isLdi then
    if l.conditional && !u.condHolds cnd then out = .next (u.setPc u.bank (u.pc + 1#32))
    else ∃ v, out = .next v ∧ u.movedInto v h2.dr (pickSigned word l.second)
  else out = exec (halfInstr cnd h2) u

end Sys2Proof.Machine
end

