-- ==== Sys2Proof/Certificates/Slice0/Obligations.lean ====
section
/-! DEFINITION. The statements about the model, for the provers. -/

open Sys2Proof Sys2Proof.Machine

/-! ### Encoding -/

/-- 30_encoding.md R102 to R104, R115, R125: decoding the bytes of a well-formed instruction gives it
back, with every operand at every value. -/
def Obligations.DecodeOfEncodeIsIdentity : Prop :=
  ∀ i : Instr, i.wf = true → decode (encode i) = .ok (i, [])

/-- 30_encoding.md R128: every word is a well-formed instruction, and is that instruction's word. -/
def Obligations.EncodeOfDecodeIsIdentity : Prop :=
  ∀ w : Word, (decodeWord w).wf = true ∧ encodeWord (decodeWord w) = w

/-- Words written out from the encoding tables (95_test_vectors.md part 2, section E). The positions of
the fields are the spec's own choice (D5, D6, D10; log 17 for the compact word). -/
def Obligations.SampleWordsDecode : Prop :=
  decodeWord 0x7BDBC001#32 = .mov .nz .pc false .pc false 1#13 ∧
  decodeWord 0x0884C000#32 = .add .always (.gpr 1) (.reg (.gpr 3) 0#14) ∧
  decodeWord 0x0403FFFF#32 = .cmp .always (.gpr 0) (.imm 0x3FFFF#18) ∧
  decodeWord 0x1484FFFF#32 = .lod .always (.gpr 2) (.reg (.gpr 3) 0x3FFF#14) ∧
  decodeWord 0x15C00000#32 = .ldi (.gpr 2) 0x400000#23 ∧
  decodeWord 0x7E500000#32 = .brk .z 0#19 ∧
  decodeWord 0x88804851#32 =
    .vliw ⟨.gpr 1, 0x02#5, false, 1#4⟩ 0#3 ⟨.gpr 2, 0x02#5, true, 1#4⟩

/-- 45_special_fp.md R245: the opcodes 5'h18 to 5'h1a with DR = 14 are refused. The refusal is the
spec's own choice (U8, D33, log 20). -/
def Obligations.SharedOpcodesWithDrCcAreRefused : Prop :=
  ∀ (cnd : Cond) (x : BitVec 19) (s : State),
    exec (.reserved18Cc cnd x) s = .refused .reservedCcEncoding ∧
    exec (.reserved19Cc cnd x) s = .refused .reservedCcEncoding ∧
    exec (.reserved1aCc cnd x) s = .refused .reservedCcEncoding

/-! ### Steps -/

/-- 60_exceptions.md R358, R365: a step that runs a word is the execution of the instruction its bytes
decode to, begun with the step's inputs used up and the lock region counting the word. It runs a word
if it is not reset, halted or asleep and no interrupt is taken, and none is in supervisor mode, before
a stepped word or with the line low (60_exceptions.md R344, R345). With STEP clear, and in supervisor mode, nothing follows it. With STEP set in user mode, a word after which the
CPU is in user mode and not halted is followed by the entry to supervisor mode, which changes nothing
but GIE, SLEEP, STEP and the lock. The order of events before the word and the details of STEP are
the spec's own choice (D25 to D27, log 27); that the region has counted the word when it begins, and
the draw that decides on an interrupt the spec leaves open, are the model's (log 13). -/
def Obligations.StepRunsTheDecodedInstruction : Prop :=
  (∀ s : State, s.input.reset = false → s.halted = false →
    ¬(s.cc.gie = true ∧ s.cc.sleep = true) →
    (s.cc.gie = false ∨ s.cc.step = true ∨ s.input.irq = false) →
    s.runsWord = true ∧ s.drawsInterrupt s.input.irq = false) ∧
  ∀ (s b : State) (i : Instr), s.runsWord = true → s.busError .fetch s.pc = false →
    s.holdsNext i → b = (s.tick.drawIf (s.drawsInterrupt s.input.irq)).beginWord i →
    ((s.cc.gie = false ∨ s.cc.step = false) → step s = exec i b) ∧
    (s.cc.gie = true → s.cc.step = true →
      (∀ u, exec i b = .next u →
        step s = .next (if u.cc.gie = true ∧ u.halted = false then
          { u with cc := { u.cc with gie := false, sleep := false, step := false }, lock := .off }
        else u)) ∧
      (∀ r, exec i b = .refused r → step s = .refused r))

/-- 20_memory.md R84, R85, U17: a fetch that meets no bus error returns memory's word or a word the
cache holds for that address, and memory's word where the cache is empty; after a store the word
it replaced is one a fetch may return. What the cache keeps is the spec's own choice (D29) and
the model's (log 12). -/
def Obligations.FetchReturnsMemoryOrCachedWord : Prop :=
  (∀ s : State, s.busError .fetch s.pc = false →
    ∃ w t, s.fetch = some (w, t) ∧ (t = s ∨ t = s.draw) ∧
      (w = s.mem.readWord (s.busAddr s.pc) ∨ (s.busAddr s.pc, w) ∈ s.icache) ∧
      (s.icache = [] → w = s.mem.readWord (s.busAddr s.pc))) ∧
  (∀ (s : State) (a v : Word), s.mem.wf = true → s.busError .write a = false →
    s.mem.readWord (s.busAddr a) ≠ v →
    ∃ t, s.memWrite a v = some t ∧ s.mem.readWord (s.busAddr a) ∈ t.staleWords (s.busAddr a))

/-- 60_exceptions.md R341 (d), R358: a bus error on the fetch raises IllegalInstruction. The user PC
and the supervisor PC afterwards are the spec's own choice (D23, log 11), that the lock ends is
the model's (log 26). -/
def Obligations.FetchBusErrorIsIllegalInstruction : Prop :=
  ∀ s : State, s.runsWord = true → s.busError .fetch s.pc = true →
    ∃ t, step s = .next t ∧
      (s.cc.gie = true →
        s.tick.enteredSupervisor t { s.cc with uIll := true } (excPcAllowed s.cfg s.pc)) ∧
      (s.cc.gie = false → s.tick.haltedInPlace t { s.cc with sIll := true } .off)

/-- 60_exceptions.md R345, R352, R371: a high interrupt line enters supervisor mode from a running
user program outside a single-step and a lock region, and from a sleeping one; no cause bit is
set and no register changes. The line's details are the spec's own choice (D21, D25 to D27, log
27). -/
def Obligations.InterruptEntersSupervisor : Prop :=
  ∀ s : State, s.input.reset = false → s.halted = false → s.cc.gie = true → s.input.irq = true →
    (s.cc.sleep = true ∨ (s.cc.step = false ∧ s.lock = .off)) →
    ∃ t, step s = .next t ∧ s.tick.enteredSupervisor t s.cc (fun pc => pc = s.usr.pc)

/-- 60_exceptions.md R371, R372: a halted CPU, and a sleeping one with the interrupt line low, do
nothing. That only a reset leaves the halted state is the spec's own choice (D34, log 23). -/
def Obligations.IdleStepChangesNothing : Prop :=
  ∀ s : State, s.input.reset = false →
    (s.halted = true ∨ (s.cc.gie = true ∧ s.cc.sleep = true ∧ s.input.irq = false)) →
    step s = .next s.tick

/-- 70_reset_and_hazards.md R400: a reset from any state, halted or not. Beyond the supervisor
exception bits and VPH the values are the spec's own choice (D2, D3, log 2). -/
def Obligations.ResetInputRestartsTheMachine : Prop :=
  ∀ s : State, s.input.reset = true →
    ∃ t, step s = .next t ∧
      t.cc.sIll = false ∧ t.cc.sBusErr = false ∧ t.cc.sDive = false ∧ t.cc.sFpe = false ∧
      t.cc.vph = false ∧ t.cc.gie = false ∧ t.cc.sleep = false ∧ t.cc.step = false ∧
      t.cc.breakEn = false ∧ t.cc.uBreak = false ∧ t.cc.uIll = false ∧ t.cc.uTrap = false ∧
      t.cc.uBusErr = false ∧ t.cc.uDive = false ∧ t.cc.uFpe = false ∧
      t.sup.pc = s.cfg.resetAddress ∧ t.icache = [] ∧ t.lock = .off ∧ t.halted = false ∧
      t.phase = .first ∧ t.cfg = s.cfg ∧ t.inputs = s.inputs.tail ∧
      ∀ a, t.mem.readByte a = s.mem.readByte a

/-- 60_exceptions.md R365: a word run in user mode with STEP set ends in supervisor mode with STEP
cleared, whatever it did, unless it is a BREAK that halts (the spec's own choice in part: D27,
log 27). -/
def Obligations.SteppedWordReturnsToSupervisor : Prop :=
  ∀ s t : State, s.runsWord = true → s.cc.gie = true → s.cc.step = true → step s = .next t →
    (t.cc.gie = false ∧ t.cc.step = false ∧ t.cc.sleep = false ∧ t.lock = .off) ∨
      (t.halted = true ∧ s.cc.breakEn = true)

/-- 10_state.md R53: State.reset is in supervisor mode at the configured RESET_ADDRESS with every
status bit 0, nothing cached, no lock, not halted. Beyond the supervisor exception bits and VPH
the values are the spec's own choice (D2, D3, log 2), RESET_ADDRESS itself the model's (log 3). -/
def Obligations.StateAfterReset : Prop :=
  State.reset.cc.sIll = false ∧ State.reset.cc.sBusErr = false ∧ State.reset.cc.sDive = false ∧
  State.reset.cc.sFpe = false ∧ State.reset.cc.vph = false ∧ State.reset.cc.gie = false ∧
  State.reset.cc.sleep = false ∧ State.reset.cc.step = false ∧ State.reset.cc.breakEn = false ∧
  State.reset.cc.userCauses = [false, false, false, false, false, false] ∧
  State.reset.sup.pc = State.reset.cfg.resetAddress ∧ State.reset.icache = [] ∧
  State.reset.lock = .off ∧ State.reset.halted = false ∧ State.reset.phase = .first

/-- The machine's invariant holds after reset (10_state.md R53; the values of logs 2, 3 and 5). -/
def Obligations.InvariantHoldsAtReset : Prop := State.reset.Inv

/-- The machine's invariant (memory canonical and in the address space; uCC bits 7 to 13 clear in
user mode; at most one user cause bit; a sleeping or faulted supervisor is halted; the floating-
point bits 0) is kept by every step from every state. The canonical memory is the model's (log
5); the bits rest in part on the spec's own choices (D18, D20 to D22, D34, D35). -/
def Obligations.EveryStepKeepsInvariant : Prop :=
  ∀ s t : State, s.Inv → step s = .next t → t.Inv

/-- 10_state.md R38: without a reset no step clears a supervisor exception bit. -/
def Obligations.SupervisorExceptionBitsSurvive : Prop :=
  ∀ s t : State, s.input.reset = false → step s = .next t →
    (s.cc.sIll = true → t.cc.sIll = true) ∧ (s.cc.sBusErr = true → t.cc.sBusErr = true) ∧
    (s.cc.sDive = true → t.cc.sDive = true) ∧ (s.cc.sFpe = true → t.cc.sFpe = true)

/-! ### Operands and conditions -/

/-- 30_encoding.md R107, R108, 10_state.md R24, R27: what an instruction reads. Immediates are
sign-extended; a register is one of the active set, register 15 the address after the word; the
condition is tested on the active flags. That a DR operand too reads the PC as pc + 1 is the spec's
own choice (D11, log 27). -/
def Obligations.OperandReads : Prop :=
  ∀ s : State,
    (∀ i, s.opB (.imm i) = BitVec.ofInt 32 i.toInt) ∧
    (∀ r off, s.opB (.reg r off) = s.readReg r + BitVec.ofInt 32 off.toInt) ∧
    (∀ k : Fin 14, s.readReg (.gpr k) = if s.cc.gie then s.usr.gpr[k] else s.sup.gpr[k]) ∧
    (s.readReg .pc = (if s.cc.gie then s.usr.pc else s.sup.pc) + 1#32) ∧
    (s.pc = if s.cc.gie then s.usr.pc else s.sup.pc) ∧
    (∀ cnd, s.condHolds cnd = (if s.cc.gie then s.usr.flags else s.sup.flags).holds cnd)

/-- 30_encoding.md R111: the eight conditions. -/
def Obligations.ConditionTable : Prop :=
  ∀ f : Flags,
    (f.holds .always = true) ∧ (f.holds .lt = true ↔ f.n = true) ∧
    (f.holds .z = true ↔ f.z = true) ∧ (f.holds .nz = true ↔ f.z = false) ∧
    (f.holds .gt = true ↔ f.n = false ∧ f.z = false) ∧ (f.holds .ge = true ↔ f.n = false) ∧
    (f.holds .c = true ↔ f.c = true) ∧ (f.holds .v = true ↔ f.v = true)

/-- 30_encoding.md R112: an instruction whose condition fails changes nothing but the PC. That NOOP,
BREAK and LOCK obey their condition is the spec's own choice (D33, log 27). -/
def Obligations.FailedConditionOnlyAdvancesPc : Prop :=
  ∀ (i : Instr) (cnd : Cond) (s : State), conditionOf i = some cnd → s.condHolds cnd = false →
    exec i s = .next (s.setPc s.bank (s.pc + 1#32))

/-! ### Arithmetic, logic, compare -/

/-- 40_arith_logic.md R141, R143: SUB and ADD. C as borrow and V as signed overflow are the spec's
own choice (D12, log 15). Which flags a form with DR = CC or PC, or a condition other than
"always", changes is the spec's own choice (D13, D14, log 27). -/
def Obligations.AddAndSubtract : Prop :=
  ∀ (cnd : Cond) (dr : Reg) (b : OpB) (s : State), s.condHolds cnd = true →
    computes (.sub cnd dr b) s cnd dr (s.readReg dr - s.opB b)
      (fun f => f.zn (s.readReg dr - s.opB b) ∧
        f.c = decide ((s.readReg dr).toNat < (s.opB b).toNat) ∧
        f.v = decide ((s.readReg dr).toInt - (s.opB b).toInt < -2 ^ 31 ∨
          2 ^ 31 ≤ (s.readReg dr).toInt - (s.opB b).toInt)) ∧
    computes (.add cnd dr b) s cnd dr (s.readReg dr + s.opB b)
      (fun f => f.zn (s.readReg dr + s.opB b) ∧
        f.c = decide (2 ^ 32 ≤ (s.readReg dr).toNat + (s.opB b).toNat) ∧
        f.v = decide ((s.readReg dr).toInt + (s.opB b).toInt < -2 ^ 31 ∨
          2 ^ 31 ≤ (s.readReg dr).toInt + (s.opB b).toInt))

/-- 40_arith_logic.md R142, R144, R145: AND, OR, XOR; C and V take any value (U3, log 8). Which flags
a form with DR = CC or PC, or a condition other than "always", changes is the spec's own choice
(D13, D14, log 27). -/
def Obligations.BitwiseLogic : Prop :=
  ∀ (cnd : Cond) (dr : Reg) (b : OpB) (s : State), s.condHolds cnd = true →
    computes (.and cnd dr b) s cnd dr (s.readReg dr &&& s.opB b)
      (fun f => f.zn (s.readReg dr &&& s.opB b)) ∧
    computes (.or cnd dr b) s cnd dr (s.readReg dr ||| s.opB b)
      (fun f => f.zn (s.readReg dr ||| s.opB b)) ∧
    computes (.xor cnd dr b) s cnd dr (s.readReg dr ^^^ s.opB b)
      (fun f => f.zn (s.readReg dr ^^^ s.opB b))

/-- 40_arith_logic.md R146, R147: CMP and TST set the flags whenever they execute, whatever the
condition and the DR, and change nothing else. C and V of CMP are the spec's own choice (D12, log
15). -/
def Obligations.CompareAndTest : Prop :=
  ∀ (cnd : Cond) (dr : Reg) (b : OpB) (s : State), s.condHolds cnd = true →
    compares (.cmp cnd dr b) s
      (fun f => f.zn (s.readReg dr - s.opB b) ∧
        f.c = decide ((s.readReg dr).toNat < (s.opB b).toNat) ∧
        f.v = decide ((s.readReg dr).toInt - (s.opB b).toInt < -2 ^ 31 ∨
          2 ^ 31 ≤ (s.readReg dr).toInt - (s.opB b).toInt)) ∧
    compares (.tst cnd dr b) s (fun f => f.zn (s.readReg dr &&& s.opB b))

/-! ### Shifts and bits -/

/-- 41_shift_bit.md R161, R162: LSR and LSL. Amounts 0 and 32 and more, and C beyond a shift by 1,
are the spec's own choice (D15, log 14). Which flags a form with DR = CC or PC, or a condition
other than "always", changes is the spec's own choice (D13, D14, log 27). -/
def Obligations.LogicalShifts : Prop :=
  ∀ (cnd : Cond) (dr : Reg) (b : OpB) (s : State), s.condHolds cnd = true →
    ((s.opB b).toNat = 0 →
      computes (.lsr cnd dr b) s cnd dr (s.readReg dr) (fun f => f.zn (s.readReg dr)) ∧
      computes (.lsl cnd dr b) s cnd dr (s.readReg dr) (fun f => f.zn (s.readReg dr))) ∧
    (1 ≤ (s.opB b).toNat ∧ (s.opB b).toNat ≤ 31 →
      computes (.lsr cnd dr b) s cnd dr
        (BitVec.ofNat 32 ((s.readReg dr).toNat / 2 ^ (s.opB b).toNat))
        (fun f => f.zn (BitVec.ofNat 32 ((s.readReg dr).toNat / 2 ^ (s.opB b).toNat)) ∧
          f.c = (s.readReg dr).getLsbD ((s.opB b).toNat - 1)) ∧
      computes (.lsl cnd dr b) s cnd dr
        (BitVec.ofNat 32 ((s.readReg dr).toNat * 2 ^ (s.opB b).toNat))
        (fun f => f.zn (BitVec.ofNat 32 ((s.readReg dr).toNat * 2 ^ (s.opB b).toNat)) ∧
          f.c = (s.readReg dr).getLsbD (32 - (s.opB b).toNat))) ∧
    (32 ≤ (s.opB b).toNat →
      computes (.lsr cnd dr b) s cnd dr 0#32 (fun f => f.zn 0#32) ∧
      computes (.lsl cnd dr b) s cnd dr 0#32 (fun f => f.zn 0#32))

/-- 41_shift_bit.md R163: ASR is the floor of the signed quotient by 2^n. Amounts 0 and 32 and more,
and C, are the spec's own choice (D15, log 14). Which flags a form with DR = CC or PC, or a
condition other than "always", changes is the spec's own choice (D13, D14, log 27). -/
def Obligations.ArithmeticShift : Prop :=
  ∀ (cnd : Cond) (dr : Reg) (b : OpB) (s : State), s.condHolds cnd = true →
    ((s.opB b).toNat = 0 →
      computes (.asr cnd dr b) s cnd dr (s.readReg dr) (fun f => f.zn (s.readReg dr))) ∧
    (1 ≤ (s.opB b).toNat ∧ (s.opB b).toNat ≤ 31 →
      computes (.asr cnd dr b) s cnd dr
        (BitVec.ofInt 32 ((s.readReg dr).toInt / 2 ^ (s.opB b).toNat))
        (fun f => f.zn (BitVec.ofInt 32 ((s.readReg dr).toInt / 2 ^ (s.opB b).toNat)) ∧
          f.c = (s.readReg dr).getLsbD ((s.opB b).toNat - 1))) ∧
    (32 ≤ (s.opB b).toNat →
      computes (.asr cnd dr b) s cnd dr
        (if (s.readReg dr).getLsbD 31 then 0xFFFFFFFF#32 else 0#32)
        (fun f => f.zn (if (s.readReg dr).getLsbD 31 then 0xFFFFFFFF#32 else 0#32)))

/-- 41_shift_bit.md R164: ROL moves bit i to bit (i + amount) mod 32. Which flags a form with DR = CC
or PC, or a condition other than "always", changes is the spec's own choice (D13, D14, log 27). -/
def Obligations.RotateLeft : Prop :=
  ∀ (cnd : Cond) (dr : Reg) (b : OpB) (s : State), s.condHolds cnd = true →
    ∃ r : Word,
      (∀ i, i < 32 → r.getLsbD ((i + (s.opB b).toNat) % 32) = (s.readReg dr).getLsbD i) ∧
      computes (.rol cnd dr b) s cnd dr r (fun f => f.zn r)

/-- 41_shift_bit.md R165: BREV writes the reversed operand and changes no flag. -/
def Obligations.BitReverse : Prop :=
  ∀ (cnd : Cond) (dr : Reg) (b : OpB) (s : State), s.condHolds cnd = true →
    ∃ r : Word, (∀ i, i < 32 → r.getLsbD i = (s.opB b).getLsbD (31 - i)) ∧
      moves (.brev cnd dr b) s dr r

/-- 41_shift_bit.md R166: POPC counts the operand's 1 bits. Which flags a form with DR = CC or PC, or
a condition other than "always", changes is the spec's own choice (D13, D14, log 27). -/
def Obligations.PopulationCount : Prop :=
  ∀ (cnd : Cond) (dr : Reg) (b : OpB) (s : State), s.condHolds cnd = true →
    ∃ r : Word, r.toNat = (Finset.univ.filter (fun i : Fin 32 => (s.opB b).getLsbD i = true)).card ∧
      computes (.popc cnd dr b) s cnd dr r (fun f => f.z = decide (r = 0#32) ∧ f.n = false)

/-! ### Multiply and divide -/

/-- 42_multiply_divide.md R181 to R183: the low word of the product, and the high word of the
unsigned and of the signed product. Which flags a form with DR = CC or PC, or a condition other
than "always", changes is the spec's own choice (D13, D14, log 27). -/
def Obligations.Multiplies : Prop :=
  ∀ (cnd : Cond) (dr : Reg) (b : OpB) (s : State), s.condHolds cnd = true →
    computes (.mpy cnd dr b) s cnd dr
      (BitVec.ofNat 32 ((s.readReg dr).toNat * (s.opB b).toNat))
      (fun f => f.zn (BitVec.ofNat 32 ((s.readReg dr).toNat * (s.opB b).toNat))) ∧
    computes (.mpyuhi cnd dr b) s cnd dr
      (BitVec.ofNat 32 ((s.readReg dr).toNat * (s.opB b).toNat / 2 ^ 32))
      (fun f => f.zn (BitVec.ofNat 32 ((s.readReg dr).toNat * (s.opB b).toNat / 2 ^ 32))) ∧
    computes (.mpyshi cnd dr b) s cnd dr
      (BitVec.ofInt 32 ((s.readReg dr).toInt * (s.opB b).toInt / 2 ^ 32))
      (fun f => f.zn (BitVec.ofInt 32 ((s.readReg dr).toInt * (s.opB b).toInt / 2 ^ 32)))

/-- 42_multiply_divide.md R184, R185: DIVU is the floor of the quotient; DIVS rounds toward zero (the
spec's own choice, D16, log 16), and gives some word and some flags where the quotient does not
fit (U6, log 10). Which flags a form with DR = CC or PC, or a condition other than "always",
changes is the spec's own choice (D13, D14, log 27). -/
def Obligations.Divides : Prop :=
  ∀ (cnd : Cond) (dr : Reg) (b : OpB) (s : State), s.condHolds cnd = true → s.opB b ≠ 0#32 →
    computes (.divu cnd dr b) s cnd dr
      (BitVec.ofNat 32 ((s.readReg dr).toNat / (s.opB b).toNat))
      (fun f => f.zn (BitVec.ofNat 32 ((s.readReg dr).toNat / (s.opB b).toNat))) ∧
    (¬(s.readReg dr = 0x80000000#32 ∧ s.opB b = 0xFFFFFFFF#32) →
      computes (.divs cnd dr b) s cnd dr
        (BitVec.ofInt 32 ((s.readReg dr).toInt.tdiv (s.opB b).toInt))
        (fun f => f.zn (BitVec.ofInt 32 ((s.readReg dr).toInt.tdiv (s.opB b).toInt)))) ∧
    (s.readReg dr = 0x80000000#32 ∧ s.opB b = 0xFFFFFFFF#32 →
      ∃ r, computes (.divs cnd dr b) s cnd dr r (fun _ => True))

/-- 42_multiply_divide.md R187: the laws that tie the results of the five instructions together. The
rounding of DIVS is the spec's own choice (D16, log 16). -/
def Obligations.MultiplyAndDivideLaws : Prop :=
  ∀ a b : Word,
    ((mpyuhiResult a b).value ++ (mpyResult a b).value).toNat = a.toNat * b.toNat ∧
    ((mpyshiResult a b).value ++ (mpyResult a b).value).toInt = a.toInt * b.toInt ∧
    (mpyResult a b).value = (mpyResult b a).value ∧
    (b ≠ 0#32 → ∃ r : Nat, a.toNat = (divuResult a b).value.toNat * b.toNat + r ∧ r < b.toNat) ∧
    (b ≠ 0#32 → ¬(a = 0x80000000#32 ∧ b = 0xFFFFFFFF#32) →
      ∀ n, ∃ r : Int, a.toInt = (divsResult n a b).value.toInt * b.toInt + r ∧
        r.natAbs < b.toInt.natAbs ∧ (r = 0 ∨ (0 < r ↔ 0 < a.toInt)))

/-- 42_multiply_divide.md R186, 44_load_store.md R220, R221, 60_exceptions.md R342, R343, R350, R351:
a zero divisor and a bus error on a load or store raise their exceptions, each with its own cause bit,
and write nothing else. That nothing is written, and the PC, are the spec's own choices (D16, D23, D30; logs 11, 26, 27). -/
def Obligations.DataInstructionFaults : Prop :=
  ∀ (cnd : Cond) (dr : Reg) (b : OpB) (s : State), s.condHolds cnd = true →
    (s.opB b = 0#32 →
      raises (.divu cnd dr b) s .divideByZero ∧ raises (.divs cnd dr b) s .divideByZero) ∧
    (s.busError .read (s.opB b) = true → raises (.lod cnd dr b) s .busError) ∧
    (s.busError .write (s.opB b) = true → raises (.sto cnd dr b) s .busError) ∧
    s.cc.setUserCause .divideByZero = { s.cc with uDive := true } ∧
    s.cc.setSupCause .divideByZero = { s.cc with sDive := true } ∧
    s.cc.setUserCause .busError = { s.cc with uBusErr := true } ∧
    s.cc.setSupCause .busError = { s.cc with sBusErr := true }

/-! ### Moves -/

/-- 43_move_immediate.md R201: LDILO keeps DR's upper half and takes the operand's lower half, a
reading the spec marks as derived. -/
def Obligations.LoadLowerHalf : Prop :=
  ∀ (cnd : Cond) (dr : Reg) (b : OpB) (s : State), s.condHolds cnd = true →
    ∃ r : Word, (∀ i, i < 16 → r.getLsbD i = (s.opB b).getLsbD i) ∧
      (∀ i, 16 ≤ i → i < 32 → r.getLsbD i = (s.readReg dr).getLsbD i) ∧
      moves (.ldilo cnd dr b) s dr r

/-- 43_move_immediate.md R205: LDI is always executed. -/
def Obligations.LoadImmediate : Prop :=
  ∀ (dr : Reg) (imm : BitVec 23) (s : State),
    moves (.ldi dr imm) s dr (BitVec.ofInt 32 imm.toInt)

/-- 43_move_immediate.md R203: a MOV in user mode, whatever its A and B bits, and a supervisor MOV
with both bits 0, moves within the active set. Which bit is whose is the spec's own choice (D10,
log 27). -/
def Obligations.MoveWithinActiveSet : Prop :=
  ∀ (cnd : Cond) (dr : Reg) (a : Bool) (br : Reg) (bu : Bool) (off : BitVec 13) (s : State),
    s.condHolds cnd = true → (s.cc.gie = true ∨ (a = false ∧ bu = false)) →
    moves (.mov cnd dr a br bu off) s dr (s.readReg br + BitVec.ofInt 32 off.toInt)

/-- 43_move_immediate.md R203, 10_state.md R49, R45: a supervisor MOV from the user set reads the
user PC as stored, and uCC with bit 5 at some value (U5, log 9); the spec's own choices D10, D19,
D35 (log 27). -/
def Obligations.MoveFromUserSet : Prop :=
  ∀ (cnd : Cond) (dr : Reg) (off : BitVec 13) (s : State),
    s.condHolds cnd = true → s.cc.gie = false →
    (∀ k : Fin 14, moves (.mov cnd dr false (.gpr k) true off) s dr
      (s.usr.gpr[k] + BitVec.ofInt 32 off.toInt)) ∧
    moves (.mov cnd dr false .pc true off) s dr (s.usr.pc + BitVec.ofInt 32 off.toInt) ∧
    ∃ bit5 : Bool, moves (.mov cnd dr false .cc true off) s dr
      (s.readCcUsr bit5 + BitVec.ofInt 32 off.toInt)

/-- 43_move_immediate.md R203, 10_state.md R48, R49: a supervisor MOV to the user set, from a
register of either set, writes a user register, the stored user PC without a jump, or uCC under
the restricted write (the spec's own choices D10, D35, log 27; bit 5: log 9). -/
def Obligations.MoveToUserSet : Prop :=
  ∀ (cnd : Cond) (br : Reg) (bu : Bool) (off : BitVec 13) (s : State),
    s.condHolds cnd = true → s.cc.gie = false →
    ∃ v : Word,
      (bu = false → v = s.readReg br) ∧
      (∀ k : Fin 14, bu = true → br = .gpr k → v = s.usr.gpr[k]) ∧
      (bu = true → br = .pc → v = s.usr.pc) ∧
      (bu = true → br = .cc → ∃ bit5 : Bool, v = s.readCcUsr bit5) ∧
      (∀ k : Fin 14, ∃ t, exec (.mov cnd (.gpr k) true br bu off) s = .next t ∧
        s.onlyGpr t .usr k (v + BitVec.ofInt 32 off.toInt) ∧ s.flagsKept t) ∧
      (∃ t, exec (.mov cnd .pc true br bu off) s = .next t ∧ s.gprsKept t ∧ s.flagsKept t ∧
        t.usr.pc = v + BitVec.ofInt 32 off.toInt ∧ t.sup.pc = s.sup.pc + 1#32 ∧ s.restKept t) ∧
      (∃ t n, exec (.mov cnd .cc true br bu off) s = .next t ∧
        t = { (s.writeUserCc (v + BitVec.ofInt 32 off.toInt)).setPc .sup (s.sup.pc + 1#32) with
              fresh := n })

/-! ### Memory and the bus lock -/

/-- 44_load_store.md R220: LOD without a bus error writes the addressed word to DR. The address bits
the bus receives are the spec's own choice (D32, log 22). -/
def Obligations.LoadWord : Prop :=
  ∀ (cnd : Cond) (dr : Reg) (b : OpB) (s : State), s.condHolds cnd = true →
    s.busError .read (s.opB b) = false →
    moves (.lod cnd dr b) s dr (s.mem.readWord ((s.opB b).toNat % 2 ^ s.cfg.aw))

/-- 44_load_store.md R221: STO without a bus error writes the register to the addressed word; every
other byte of memory, every register and every flag is unchanged; the cache keeps what it holds
and may hold the word replaced. The address bits are the spec's own choice (D32, log 22), the
cells and the cache the model's (logs 6, 12). -/
def Obligations.StoreWord : Prop :=
  ∀ (cnd : Cond) (dr : Reg) (b : OpB) (s : State), s.condHolds cnd = true →
    s.busError .write (s.opB b) = false → s.mem.wf = true →
    ∃ t, exec (.sto cnd dr b) s = .next t ∧
      t.mem.readWord ((s.opB b).toNat % 2 ^ s.cfg.aw) = s.readReg dr ∧
      (∀ a, ¬(4 * ((s.opB b).toNat % 2 ^ s.cfg.aw) ≤ a ∧
          a < 4 * ((s.opB b).toNat % 2 ^ s.cfg.aw) + 4) → t.mem.readByte a = s.mem.readByte a) ∧
      s.gprsKept t ∧ s.flagsKept t ∧ s.pcAt t (s.pc + 1#32) ∧
      t.cfg = s.cfg ∧ t.cc = s.cc ∧ t.lock = s.lock ∧ t.halted = s.halted ∧ t.phase = s.phase ∧
      t.inputs = s.inputs ∧
      (∀ e, e ∈ t.icache ↔ e ∈ s.icache ∨
        (e = ((s.opB b).toNat % 2 ^ s.cfg.aw,
            s.mem.readWord ((s.opB b).toNat % 2 ^ s.cfg.aw)) ∧ e.2 ≠ s.readReg dr))

/-- 44_load_store.md R225: LOCK takes the bus and changes nothing else. The record of the region is
the model's (log 13). -/
def Obligations.LockTakesTheBus : Prop :=
  ∀ (cnd : Cond) (x : BitVec 19) (s : State), s.condHolds cnd = true →
    ∃ t, exec (.lock cnd x) s = .next t ∧ t.lock = .armed ∧
      s.jumpedTo { t with lock := s.lock } (s.pc + 1#32)

/-- 44_load_store.md R226: as its words begin, a lock region follows the shapes M, M;M and M;A;M up to
their last M, ends at any other word, counts a compact word as the instructions it executes (not the
second half after a LOD into the PC), and is at most three instructions long (the spec's own choice, D31; how the model counts: log 13). -/
def Obligations.LockRegionIsBounded : Prop :=
  (∀ (s : State) (i : Instr),
    (s.lock = .armed → isMemory i = true → (s.beginWord i).lock = .afterM) ∧
    (s.lock = .afterM → s.isLockAlu i = true → (s.beginWord i).lock = .afterMA) ∧
    (s.lock = .afterM → isMemory i = true → (s.beginWord i).lock = .off) ∧
    (s.lock = .afterMA → isMemory i = true → (s.beginWord i).lock = .off) ∧
    (s.lock = .armed → isCompact i = false → isMemory i = false → (s.beginWord i).lock = .off) ∧
    (s.lock = .afterM → isCompact i = false → isMemory i = false → s.isLockAlu i = false →
      (s.beginWord i).lock = .off) ∧
    (s.lock = .afterMA → isCompact i = false → isMemory i = false → (s.beginWord i).lock = .off)) ∧
  (∀ (s : State) (h1 h2 : Half) (vcnd : BitVec 3), s.cfg.optVliw = true → h1.isLdi = false →
    h2.isLdi = false →
    (h1.op = 0x12#5 ∧ h1.dr = .pc ∧ s.condHolds (firstCond vcnd) = true →
      (s.beginWord (.vliw h1 vcnd h2)).lock =
        (s.beginWord (halfInstr (firstCond vcnd) h1)).lock) ∧
    (¬(h1.op = 0x12#5 ∧ h1.dr = .pc ∧ s.condHolds (firstCond vcnd) = true) →
      (s.beginWord (.vliw h1 vcnd h2)).lock =
        ((s.beginWord (halfInstr (firstCond vcnd) h1)).beginWord
          (halfInstr (secondCond vcnd) h2)).lock)) ∧
  (∀ (s t u : State) (i j k : Instr), t.lock = (s.beginWord i).lock →
    u.lock = (t.beginWord j).lock → (u.beginWord k).lock = .off)

/-- 60_exceptions.md R345, 44_load_store.md R226: with the interrupt line high in user mode, a word
that the lock region takes in runs, and before a word that breaks the shape the interrupt is taken.
After LOCK;M, an A that an M follows, in the next word or as the second half of a compact word, is
taken in; one that no M follows is or is not, which the model leaves open. The shapes are the spec's own choice (D31), the reading of a broken one the model's (log
13). -/
def Obligations.InterruptsWaitForLockRegion : Prop :=
  ∀ (s : State) (i : Instr), s.input.reset = false → s.halted = false → s.cc.gie = true →
    s.cc.sleep = false → s.cc.step = false → s.input.irq = true →
    s.busError .fetch s.pc = false → s.holdsNext i →
    (s.lock ≠ .off → beginsWithMemory s.cfg i = true →
      step s = exec i (s.tick.beginWord i)) ∧
    (∀ j, s.lock = .afterM → s.isLockAlu i = true → s.busError .fetch (s.pc + 1#32) = false →
      s.holdsAt (s.pc + 1#32) j → beginsWithMemory s.cfg j = true →
      step s = exec i (s.tick.beginWord i)) ∧
    (s.lock = .armed ∨ s.lock = .afterMA → beginsWithMemory s.cfg i = false →
      ∃ t, step s = .next t ∧ s.tick.enteredSupervisor t s.cc (fun pc => pc = s.usr.pc)) ∧
    (∀ h1 v h2, i = .vliw h1 v h2 → s.lock = .afterM → s.beginsWithLockAlu i = true →
      h2.op = 0x12#5 ∨ h2.op = 0x13#5 → step s = exec i (s.tick.beginWord i)) ∧
    (s.lock = .afterM → beginsWithMemory s.cfg i = false → s.beginsWithLockAlu i = false →
      ∃ t, step s = .next t ∧ s.tick.enteredSupervisor t s.cc (fun pc => pc = s.usr.pc)) ∧
    (s.lock = .afterM → s.beginsWithLockAlu i = true →
      (∃ t, step s = .next t ∧ s.tick.enteredSupervisor t s.cc (fun pc => pc = s.usr.pc)) ∨
        ∃ m, step s = exec i ((s.tick.drawIf m).beginWord i))

/-! ### NOOP, BREAK, illegal opcodes -/

/-- 45_special_fp.md R241: NOOP changes nothing but the PC. -/
def Obligations.NoopOnlyAdvancesPc : Prop :=
  ∀ (cnd : Cond) (x : BitVec 19) (s : State),
    ∃ t, exec (.noop cnd x) s = .next t ∧ s.jumpedTo t (s.pc + 1#32)

/-- 45_special_fp.md R243: BREAK whose condition holds traps with UBREAK set, or halts; the PC stays
at the BREAK. The PC and the supervisor case are the spec's own choices (D23, D24, log 27); that a
halt leaves the lock as it stands is the model's (log 31). -/
def Obligations.BreakTrapsOrHalts : Prop :=
  ∀ (cnd : Cond) (x : BitVec 19) (s : State), s.condHolds cnd = true →
    ∃ t, exec (.brk cnd x) s = .next t ∧
      (s.cc.gie = true → s.cc.breakEn = false →
        s.enteredSupervisor t { s.cc with uBreak := true } (fun pc => pc = s.pc)) ∧
      (s.cc.gie = true → s.cc.breakEn = true → s.haltedInPlace t s.cc s.lock) ∧
      (s.cc.gie = false → s.haltedInPlace t s.cc s.lock)

/-- 45_special_fp.md R246 to R253: the floating-point and the reserved opcodes raise
IllegalInstruction, whatever the condition (the spec's own choice, D17, log 27; the PC: D23, log
11; the lock: log 26). -/
def Obligations.UnimplementedOpcodesRaise : Prop :=
  ∀ (cnd : Cond) (dr : Reg) (b : OpB) (s : State),
    raises (.fpadd cnd dr b) s .illegalInstruction ∧
    raises (.fpsub cnd dr b) s .illegalInstruction ∧
    raises (.fpmpy cnd dr b) s .illegalInstruction ∧
    raises (.fpdiv cnd dr b) s .illegalInstruction ∧
    raises (.fpcvt cnd dr b) s .illegalInstruction ∧
    raises (.fpint cnd dr b) s .illegalInstruction ∧
    raises (.reserved1e cnd dr b) s .illegalInstruction ∧
    raises (.reserved1f cnd dr b) s .illegalInstruction

/-! ### The status register and the modes -/

/-- 10_state.md R45: the bits of register 14 as an instruction reads it in its own mode, and of uCC as
a supervisor MOV reads it, bit 5 at some value (U5, log 9). Cells the source does not state are the
spec's own choice (D19, log 27). -/
def Obligations.StatusRegisterReads : Prop :=
  ∀ s : State,
    (s.cc.gie = false →
      (s.readReg .cc).extractLsb' 15 17 = s.sup.up ∧
      ∀ i, i < 15 → (s.readReg .cc).getLsbD i =
        [s.sup.flags.z, s.sup.flags.c, s.sup.flags.n, s.sup.flags.v, false, false, s.cc.step,
          s.cc.breakEn, s.cc.sIll, false, s.cc.sBusErr, s.cc.sDive, s.cc.sFpe, false, false].getD
          i false) ∧
    (s.cc.gie = true →
      (s.readReg .cc).extractLsb' 15 17 = s.usr.up ∧
      ∀ i, i < 15 → (s.readReg .cc).getLsbD i =
        [s.usr.flags.z, s.usr.flags.c, s.usr.flags.n, s.usr.flags.v, false, true, s.cc.step,
          s.cc.uBreak, s.cc.uIll, s.cc.uTrap, s.cc.uBusErr, s.cc.uDive, s.cc.uFpe, s.cc.vph,
          false].getD i false) ∧
    (s.cc.gie = false → ∃ bit5, s.readMov .usr .cc = s.readCcUsr bit5) ∧
    (∀ bit5 : Bool,
      (s.readCcUsr bit5).extractLsb' 15 17 = s.usr.up ∧
      ∀ i, i < 15 → (s.readCcUsr bit5).getLsbD i =
        [s.usr.flags.z, s.usr.flags.c, s.usr.flags.n, s.usr.flags.v, false, bit5, s.cc.step,
          s.cc.uBreak, s.cc.uIll, s.cc.uTrap, s.cc.uBusErr, s.cc.uDive, s.cc.uFpe, s.cc.vph,
          false].getD i false)

/-- 10_state.md R46: what a supervisor's write of register 14 does. The order and the ignored bits
are the spec's own choice (D18, D20, log 27); that a halt leaves the lock as it stands is the model's
(log 31). -/
def Obligations.SupervisorWritesStatus : Prop :=
  ∀ (s : State) (v : Word), s.cc.gie = false →
    ∃ t, s.writeCc v = t ∧
      t.sup.flags = { z := v.getLsbD 0, c := v.getLsbD 1, n := v.getLsbD 2, v := v.getLsbD 3 } ∧
      t.sup.up = v.extractLsb' 15 17 ∧ t.sup.gpr = s.sup.gpr ∧ t.sup.pc = s.sup.pc ∧
      t.usr = s.usr ∧ t.cc.step = v.getLsbD 6 ∧ t.cc.breakEn = v.getLsbD 7 ∧
      t.cc.sIll = s.cc.sIll ∧ t.cc.sBusErr = s.cc.sBusErr ∧ t.cc.sDive = s.cc.sDive ∧
      t.cc.sFpe = s.cc.sFpe ∧
      (v.getLsbD 14 = true → t.icache = []) ∧ (v.getLsbD 14 = false → t.icache = s.icache) ∧
      (v.getLsbD 5 = true →
        t.cc.gie = true ∧ t.cc.sleep = v.getLsbD 4 ∧ t.cc.userCauses.all (fun x => !x) = true ∧
        t.cc.vph = false ∧ t.lock = .off ∧ t.halted = s.halted) ∧
      (v.getLsbD 5 = false →
        t.cc.gie = false ∧ t.cc.userCauses = s.cc.userCauses ∧ t.cc.vph = s.cc.vph ∧
        t.lock = s.lock ∧
        (v.getLsbD 4 = true → t.cc.sleep = true ∧ t.halted = true) ∧
        (v.getLsbD 4 = false → t.cc.sleep = s.cc.sleep ∧ t.halted = s.halted)) ∧
      t.cfg = s.cfg ∧ t.mem = s.mem ∧ t.phase = s.phase ∧ t.inputs = s.inputs

/-- 10_state.md R47: what a user program's write of register 14 does; bits 14..6 are ignored (the
spec's own choice, D18, D22, log 27). -/
def Obligations.UserWritesStatus : Prop :=
  ∀ (s : State) (v : Word), s.cc.gie = true →
    ∃ t, s.writeCc v = t ∧
      t.usr = { s.usr with
        flags := { z := v.getLsbD 0, c := v.getLsbD 1, n := v.getLsbD 2, v := v.getLsbD 3 }
        up := v.extractLsb' 15 17 } ∧
      t.sup = s.sup ∧
      (v.getLsbD 5 = false →
        t.cc = { s.cc with uTrap := true, gie := false, sleep := false, step := false } ∧
        t.lock = .off) ∧
      (v.getLsbD 5 = true → v.getLsbD 4 = true →
        t.cc = { s.cc with sleep := true } ∧ t.lock = s.lock) ∧
      (v.getLsbD 5 = true → v.getLsbD 4 = false → t.cc = s.cc ∧ t.lock = s.lock) ∧
      t.icache = s.icache ∧ t.halted = s.halted ∧ t.cfg = s.cfg ∧ t.mem = s.mem ∧
      t.phase = s.phase ∧ t.inputs = s.inputs

/-- 10_state.md R48: a supervisor's write of uCC can clear the user cause bits and set none (the
spec's own choice, D35, log 27). -/
def Obligations.SupervisorWritesUserStatus : Prop :=
  ∀ (s : State) (v : Word),
    ∃ t, s.writeUserCc v = t ∧
      t.usr = { s.usr with
        flags := { z := v.getLsbD 0, c := v.getLsbD 1, n := v.getLsbD 2, v := v.getLsbD 3 }
        up := v.extractLsb' 15 17 } ∧
      t.sup = s.sup ∧
      t.cc = { s.cc with
        uBreak := s.cc.uBreak && v.getLsbD 7
        uIll := s.cc.uIll && v.getLsbD 8
        uTrap := s.cc.uTrap && v.getLsbD 9
        uBusErr := s.cc.uBusErr && v.getLsbD 10
        uDive := s.cc.uDive && v.getLsbD 11
        uFpe := s.cc.uFpe && v.getLsbD 12 } ∧
      t.icache = s.icache ∧ t.lock = s.lock ∧ t.halted = s.halted ∧ t.cfg = s.cfg ∧
      t.mem = s.mem ∧ t.phase = s.phase ∧ t.inputs = s.inputs

/-- 47_derived_instructions.md R290, R308, R314, 60_exceptions.md R355, R371, R372: what the words OR
$GIE,CC (RTU), OR $GIE|$SLEEP,CC (WAIT) and OR $SLEEP,CC (HALT) do in supervisor mode (with the
spec's own choices D18, D20, D34, log 27; that HALT leaves the lock as it stands is the model's, log
31). -/
def Obligations.ReturnWaitAndHalt : Prop :=
  ∀ s : State, s.cc.gie = false →
    (∃ t, exec (.or .always .cc (.imm 0x20#18)) s = .next t ∧
      t.cc.gie = true ∧ t.cc.sleep = false ∧ t.cc.userCauses.all (fun x => !x) = true ∧
      t.cc.vph = false ∧ t.cc.step = s.cc.step ∧ t.cc.breakEn = s.cc.breakEn ∧
      t.sup = { s.sup with pc := s.pc + 1#32 } ∧ t.usr = s.usr ∧ t.lock = .off ∧
      t.halted = s.halted ∧ s.outerKept t) ∧
    (∃ t, exec (.or .always .cc (.imm 0x30#18)) s = .next t ∧
      t.cc.gie = true ∧ t.cc.sleep = true ∧ t.cc.userCauses.all (fun x => !x) = true ∧
      t.cc.vph = false ∧ t.cc.step = s.cc.step ∧ t.cc.breakEn = s.cc.breakEn ∧
      t.sup = { s.sup with pc := s.pc + 1#32 } ∧ t.usr = s.usr ∧ t.lock = .off ∧
      t.halted = s.halted ∧ s.outerKept t) ∧
    (∃ t, exec (.or .always .cc (.imm 0x10#18)) s = .next t ∧
      t.cc = { s.cc with sleep := true } ∧ t.halted = true ∧
      t.sup = { s.sup with pc := s.pc + 1#32 } ∧ t.usr = s.usr ∧ t.lock = s.lock ∧
      s.outerKept t)

/-- 47_derived_instructions.md R312, R290, 10_state.md R47: in user mode AND ~$GIE,CC (TRAP) enters
supervisor mode with the trap bit set and the user flags kept, and OR $SLEEP,CC sleeps (with the
spec's own choices D21 to D23, log 27). -/
def Obligations.TrapAndUserSleep : Prop :=
  ∀ s : State, s.cc.gie = true →
    (∃ t, exec (.and .always .cc (.imm 0x3FFDF#18)) s = .next t ∧
      s.enteredSupervisor t { s.cc with uTrap := true } (fun pc => pc = s.pc + 1#32)) ∧
    (∃ t, exec (.or .always .cc (.imm 0x10#18)) s = .next t ∧
      t.cc = { s.cc with sleep := true } ∧ t.halted = s.halted ∧
      t.usr = { s.usr with pc := s.pc + 1#32 } ∧ t.sup = s.sup ∧ t.lock = s.lock ∧
      s.outerKept t)

/-! ### Compact words -/

/-- 00_scope.md R8: with OPT_VLIW false a compact word raises IllegalInstruction (the spec's own
choice, D4, U15, log 27; the PC: D23, log 11; the lock: log 26). -/
def Obligations.CompactDisabledIsIllegal : Prop :=
  ∀ (h1 h2 : Half) (vcnd : BitVec 3) (s : State), s.cfg.optVliw = false →
    raises (.vliw h1 vcnd h2) s .illegalInstruction

/-- 30_encoding.md R117, R119 to R121, 45_special_fp.md R245: the compact words the spec refuses (its
own choices U2, U7, U8, U9), a second half of opcode 5'h18 to 5'h1a with DR = 14 once the first has
completed. That a refusal named by R119 to R121 is one of the whole word before its first half, and a
refused half one of the whole word, is the model's (log 19). -/
def Obligations.CompactRefusals : Prop :=
  ∀ (h1 h2 : Half) (vcnd : BitVec 3) (s : State), s.cfg.optVliw = true →
    (((h1.isLdi = true ∨ h2.isLdi = true) ∧ s.cfg.vliwLdi = none) ∨
      (h1.op = 0x0f#5 ∧ h1.sel = false) ∨ (h2.op = 0x0f#5 ∧ h2.sel = false) ∨
      (h1.dr = .cc ∧ h1.op.toNat ≤ 0x0f) ∨ (h1.dr = .cc ∧ h1.op = 0x12#5) ∨
      (h1.dr = .cc ∧ 0x14 ≤ h1.op.toNat ∧ h1.op.toNat ≤ 0x1a) ∨
      (h1.dr = .pc ∧ h1.op = 0x19#5) ∨ (h1.dr = .pc ∧ h1.op = 0x1a#5) ∨
      (h2.dr = .cc ∧ 0x18 ≤ h2.op.toNat ∧ h2.op.toNat ≤ 0x1a ∧
        s.halfCompletes (firstCond vcnd) h1 = true)) →
    ∃ r, exec (.vliw h1 vcnd h2) s = .refused r

/-- 30_encoding.md R116 to R118, R120, R121: VCND gives the first half the condition of code {0,
VCND[1:0]} and the second the same or always; a half stands for the one-instruction word of its
fields. After a first half that completes without a jump, a compact word does what the
Standard-equivalent word of its second half does, begun with the PC still at the compact word; and if
both halves are of the kind that always completes, the word completes: the PC advances once, and
nothing but general registers and flags of the active set changes. Field positions, immediates and
the order are the spec's own choices (D5, D6, D8, D9, log 17); `phase` after a word is the model's
(log 30). -/
def Obligations.CompactHalvesRunInOrder : Prop :=
  (∀ vcnd : BitVec 3,
    firstCond vcnd = [Cond.always, .lt, .z, .nz].getD (vcnd.toNat % 4) .always ∧
    secondCond vcnd = if 4 ≤ vcnd.toNat then firstCond vcnd else .always) ∧
  (∀ (cnd : Cond) (h : Half), h.op ≠ 0x0f#5 →
    halfInstr cnd h = decodeWord (0#1 ++ h.dr.bits ++ h.op ++ cnd.bits ++
      (if h.sel then 1#1 ++ h.f ++ 0#14 else 0#1 ++ BitVec.ofInt 18 h.f.toInt))) ∧
  (∀ (cnd : Cond) (h : Half), h.op = 0x0f#5 → h.sel = true →
    halfInstr cnd h = .mov cnd h.dr false (Reg.ofBits h.f) false 0#13) ∧
  (∀ (cnd : Cond) (h : Half) (b : OpB),
    b = (if h.sel then .reg (Reg.ofBits h.f) 0#14 else .imm (BitVec.ofInt 18 h.f.toInt)) →
    (h.op = 0x00#5 → halfInstr cnd h = .sub cnd h.dr b) ∧
    (h.op = 0x02#5 → halfInstr cnd h = .add cnd h.dr b) ∧
    (h.op = 0x10#5 → halfInstr cnd h = .cmp cnd h.dr b) ∧
    (h.op = 0x12#5 → halfInstr cnd h = .lod cnd h.dr b) ∧
    (h.op = 0x13#5 → halfInstr cnd h = .sto cnd h.dr b) ∧
    (h.op = 0x15#5 → halfInstr cnd h = .divs cnd h.dr b)) ∧
  ∀ (h1 h2 : Half) (vcnd : BitVec 3) (s : State), s.cfg.optVliw = true →
    (s.halfCompletes (firstCond vcnd) h1 = true → isLdiOrMovImmediate h2 = false →
      ∃ t, exec (halfInstr (firstCond vcnd) h1) { s with phase := .first } = .next t ∧
        exec (.vliw h1 vcnd h2) s =
          exec (halfInstr (secondCond vcnd) h2)
            { t.setPc s.bank s.pc with phase := .second }) ∧
    (plainHalf h1 = true → plainHalf h2 = true →
      ∃ t, exec (.vliw h1 vcnd h2) s = .next t ∧ s.pcAt t (s.pc + 1#32) ∧
        t.regs s.bank.other = s.regs s.bank.other ∧ (t.regs s.bank).up = (s.regs s.bank).up ∧
        (∀ j : Fin 14, h1.dr ≠ .gpr j → h2.dr ≠ .gpr j →
          (t.regs s.bank).gpr[j] = (s.regs s.bank).gpr[j]) ∧
        ({ s with phase := .second } : State).restKept t)

/-- 30_encoding.md R121, 46_control_transfer.md R271: a first half that writes the PC, by whatever
opcode that writes DR, ends the word, whatever its second half (the spec's own choice, D9, log 17).
A load immediate as the first half is in CompactLoadImmediate. -/
def Obligations.CompactJumpSkipsSecondHalf : Prop :=
  ∀ (h1 h2 : Half) (vcnd : BitVec 3) (s : State), s.cfg.optVliw = true →
    s.halfJumps h1 = true → s.condHolds (firstCond vcnd) = true → s.halfAllowed h2 = true →
    exec (.vliw h1 vcnd h2) s = exec (halfInstr (firstCond vcnd) h1) { s with phase := .first }

/-- 60_exceptions.md R350, R351, 10_state.md R40: a fault in the first half (an unimplemented opcode, a
zero divisor, a bus error) sets VPH when it enters supervisor mode, and not in supervisor mode;
nothing of the second half happens. That an unimplemented opcode raises whatever its condition (D17)
and that the faulting half writes nothing (D16, D30) are the spec's own choices (log 27), as are the
PC (D23, log 11) and the field positions (D5, log 17); the lock is the model's (log 26). -/
def Obligations.CompactFirstHalfFaultSetsPhase : Prop :=
  ∀ (h1 h2 : Half) (vcnd : BitVec 3) (s : State) (x : Exc), s.cfg.optVliw = true →
    s.halfRaises (firstCond vcnd) h1 x = true → s.halfAllowed h2 = true →
    ∃ t, exec (.vliw h1 vcnd h2) s = .next t ∧
      (s.cc.gie = true →
        ({ s with phase := .first } : State).enteredSupervisor t
          { s.cc.setUserCause x with vph := true } (excPcAllowed s.cfg s.pc)) ∧
      (s.cc.gie = false →
        ({ s with phase := .first } : State).haltedInPlace t (s.cc.setSupCause x) .off)

/-- 30_encoding.md R119: a load immediate in a half, where the configuration gives a layout. Its value
is the word's bits at the listed positions, sign-extended; the half obeys its condition if the layout
says so; a first half whose immediate takes in a bit of VCND leaves both halves unconditional. That
the parameter has this form is the model's (log 18); the order of the halves and the field positions
are the spec's own choices (D5, D7, D9, logs 17 and 18). -/
def Obligations.CompactLoadImmediate : Prop :=
  (∀ (w : Word) (p : List Nat), 0 < p.length → p.length ≤ 32 → ∀ k, k < 32 →
    (pickSigned w p).getLsbD k = w.getLsbD (p.getD (p.length - 1 - k) (p.headD 0))) ∧
  ∀ (h1 h2 : Half) (vcnd : BitVec 3) (s : State) (l : LdiLayout), s.cfg.optVliw = true →
    s.cfg.vliwLdi = some l →
    (∀ c1 c2 : Cond, h1.isLdi = true → h1.dr ≠ .cc → s.halfAllowed h2 = true →
      (l.first.any (fun q => decide (19 ≤ q) && decide (q ≤ 21)) = true →
        c1 = .always ∧ c2 = .always) →
      (l.first.any (fun q => decide (19 ≤ q) && decide (q ≤ 21)) = false →
        c1 = firstCond vcnd ∧ c2 = secondCond vcnd) →
      (l.conditional = true ∧ s.condHolds c1 = false →
        secondHalfEnds (compactWord h1 vcnd h2) l c2 h2 { s with phase := .second }
          (exec (.vliw h1 vcnd h2) s)) ∧
      (l.conditional = false ∨ s.condHolds c1 = true →
        (∀ j : Fin 14, h1.dr = .gpr j →
          secondHalfEnds (compactWord h1 vcnd h2) l c2 h2
            { s.setGpr s.bank j (pickSigned (compactWord h1 vcnd h2) l.first) with
              phase := .second }
            (exec (.vliw h1 vcnd h2) s)) ∧
        (h1.dr = .pc →
          ∃ t, exec (.vliw h1 vcnd h2) s = .next t ∧
            ({ s with phase := .first } : State).jumpedTo t
              (pickSigned (compactWord h1 vcnd h2) l.first)))) ∧
    (isLdiOrMovImmediate h1 = false → h2.isLdi = true →
      s.halfCompletes (firstCond vcnd) h1 = true →
      ∃ t, exec (halfInstr (firstCond vcnd) h1) { s with phase := .first } = .next t ∧
        secondHalfEnds (compactWord h1 vcnd h2) l (secondCond vcnd) h2
          { t.setPc s.bank s.pc with phase := .second } (exec (.vliw h1 vcnd h2) s))

/-! ### Rules of the whole machine -/

/-- 10_state.md R25, 60_exceptions.md R360: a step in user mode without a reset leaves the supervisor
register set, sCC's bits and the break enable as they are, clears nothing from the cache and
cannot set STEP (with the spec's own choice D18, log 27). -/
def Obligations.UserStepKeepsSupervisorState : Prop :=
  ∀ s t : State, s.cc.gie = true → s.input.reset = false → step s = .next t →
    t.sup = s.sup ∧ t.cc.breakEn = s.cc.breakEn ∧ t.cc.sIll = s.cc.sIll ∧
    t.cc.sBusErr = s.cc.sBusErr ∧ t.cc.sDive = s.cc.sDive ∧ t.cc.sFpe = s.cc.sFpe ∧
    (∀ e, e ∈ s.icache → e ∈ t.icache) ∧ (t.cc.step = true → s.cc.step = true)

/-- 10_state.md R25: what a step in user mode does is the same whatever the supervisor register set
holds. The two steps draw the same numbers, so the statement equates their free values: that no free
value depends on the supervisor's registers is the model's reading (log 7, unsafe there). -/
def Obligations.UserStepIgnoresSupervisorSet : Prop :=
  ∀ (s : State) (r : RegSet), s.cc.gie = true → s.input.reset = false →
    step { s with sup := r } = mapNext (fun t => { t with sup := r }) (step s)

/-- 10_state.md R24, R25: an instruction executed in supervisor mode changes nothing of the user
register set unless it is a MOV with its A bit set. That the A bit names DR's set is the spec's own
choice (D10, log 27). -/
def Obligations.SupervisorReachesUserSetOnlyByMov : Prop :=
  ∀ (i : Instr) (s t : State), s.cc.gie = false → movesToUser i = false → exec i s = .next t →
    t.usr = s.usr

/-- 60_exceptions.md R361: an instruction executed in supervisor mode after which the mode is user
names register 14 as its destination. -/
def Obligations.UserModeEnteredOnlyThroughStatus : Prop :=
  ∀ (i : Instr) (s t : State), s.cc.gie = false → exec i s = .next t → t.cc.gie = true →
    namesCc i = true

/-- 20_memory.md R72: an instruction that is not a store changes no byte of memory. -/
def Obligations.OnlyStoresChangeMemory : Prop :=
  ∀ (i : Instr) (s t : State), storesMemory i = false → exec i s = .next t →
    ∀ a, t.mem.readByte a = s.mem.readByte a
end

