-- ==== Sys2Proof/Laws/Arith.lean ====
section
/-! SUPPORT. The results of the shifts and multiplications as arithmetic on numbers. -/

namespace Sys2Proof.Machine

/-- A right shift is the floor of the quotient. -/
theorem ushiftRight_eq_div (a : Word) (n : Nat) :
    a >>> n = BitVec.ofNat 32 (a.toNat / 2 ^ n) := by
  apply BitVec.eq_of_toNat_eq
  rw [BitVec.toNat_ushiftRight, BitVec.toNat_ofNat, Nat.shiftRight_eq_div_pow]
  exact (Nat.mod_eq_of_lt (lt_of_le_of_lt (Nat.div_le_self _ _) a.isLt)).symm

/-- A left shift is the product modulo 2^32. -/
theorem shiftLeft_eq_mul (a : Word) (n : Nat) :
    a <<< n = BitVec.ofNat 32 (a.toNat * 2 ^ n) := by
  apply BitVec.eq_of_toNat_eq
  rw [BitVec.toNat_shiftLeft, BitVec.toNat_ofNat, Nat.shiftLeft_eq]

/-- An arithmetic right shift is the floor of the signed quotient. -/
theorem sshiftRight_eq_div (a : Word) (n : Nat) :
    a.sshiftRight n = BitVec.ofInt 32 (a.toInt / 2 ^ n) := by
  unfold BitVec.sshiftRight
  rw [Int.shiftRight_eq_div_pow]
  norm_cast

/-- The low word of a product. -/
theorem mul_eq_ofNat (a b : Word) : a * b = BitVec.ofNat 32 (a.toNat * b.toNat) := by
  apply BitVec.eq_of_toNat_eq
  simp

/-- The high word of the unsigned product. -/
theorem mpyuhi_value (a b : Word) :
    (mpyuhiResult a b).value = BitVec.ofNat 32 (a.toNat * b.toNat / 2 ^ 32) := by
  have h := Nat.mul_lt_mul'' a.isLt b.isLt
  apply BitVec.eq_of_toNat_eq
  simp only [mpyuhiResult, AluResult.openCV, BitVec.extractLsb'_toNat, BitVec.toNat_ofNat,
    Nat.shiftRight_eq_div_pow]
  omega

/-- The high word of the signed product. -/
theorem mpyshi_value (a b : Word) :
    (mpyshiResult a b).value = BitVec.ofInt 32 (a.toInt * b.toInt / 2 ^ 32) := by
  apply BitVec.eq_of_toNat_eq
  simp only [mpyshiResult, AluResult.openCV]
  generalize a.toInt * b.toInt = p
  simp only [BitVec.extractLsb'_toNat, BitVec.toNat_ofInt, Nat.shiftRight_eq_div_pow]
  omega

end Sys2Proof.Machine
end

