-- ==== Sys2Proof/Laws/Decode.lean ====
section
/-! SUPPORT. The fields of the words the encoder builds, and the words rebuilt from their fields. -/

namespace Sys2Proof

/-! ### Names of fields -/

@[simp] theorem Reg.ofBits_bits (r : Reg) : Reg.ofBits r.bits = r := by
  cases r with
  | gpr i => revert i; decide
  | cc => rfl
  | pc => rfl

@[simp] theorem Reg.bits_ofBits (b : BitVec 4) : (Reg.ofBits b).bits = b := by
  revert b; decide

@[simp] theorem Cond.ofBits_bits (cnd : Cond) : Cond.ofBits cnd.bits = cnd := by
  cases cnd <;> rfl

@[simp] theorem Cond.bits_ofBits (b : BitVec 3) : (Cond.ofBits b).bits = b := by
  revert b; decide

/-! ### Extraction from an append -/

/-- The upper part of an append. -/
theorem extract_append_high {m n : Nat} (x : BitVec m) (y : BitVec n) (k w : Nat) (h : n ≤ k) :
    (x ++ y).extractLsb' k w = x.extractLsb' (k - n) w := by
  apply BitVec.eq_of_getLsbD_eq
  intro i hi
  have h1 : ¬k + i < n := by omega
  simp [BitVec.getLsbD_append, h1, show k + i - n = k - n + i by omega]

/-- The lower part of an append. -/
theorem extract_append_low {m n : Nat} (x : BitVec m) (y : BitVec n) (k w : Nat)
    (h : k + w ≤ n) : (x ++ y).extractLsb' k w = y.extractLsb' k w := by
  apply BitVec.eq_of_getLsbD_eq
  intro i hi
  have h1 : k + i < n := by omega
  simp [BitVec.getLsbD_append, h1]

/-- A whole vector. -/
theorem extract_all {w : Nat} (x : BitVec w) : x.extractLsb' 0 w = x := by simp

/-- Two neighbouring fields side by side are one field. -/
theorem extract_join {w : Nat} (x : BitVec w) (k m n : Nat) :
    x.extractLsb' (k + n) m ++ x.extractLsb' k n = x.extractLsb' k (m + n) := by
  apply BitVec.eq_of_getLsbD_eq
  intro i hi
  simp only [BitVec.getLsbD_append, BitVec.getLsbD_extractLsb']
  by_cases h : i < n
  · simp [h, hi]
  · simp [h, hi, show i - n < m by omega, show k + n + (i - n) = k + i by omega]

/-- One bit as a field. -/
theorem ofBool_getLsbD {w : Nat} (x : BitVec w) (k : Nat) :
    BitVec.ofBool (x.getLsbD k) = x.extractLsb' k 1 := by
  apply BitVec.eq_of_getLsbD_eq
  intro i hi
  obtain rfl : i = 0 := by omega
  simp

/-- A one-bit field names its bit. -/
theorem getLsbD_of_extract {w : Nat} {x : BitVec w} {k : Nat} {b : Bool}
    (h : x.extractLsb' k 1 = BitVec.ofBool b) : x.getLsbD k = b := by
  rw [← ofBool_getLsbD] at h
  cases hx : x.getLsbD k <;> cases b <;> simp_all

/-! ### Operand B -/

@[simp] theorem OpB.ofBits_bits (b : OpB) : OpB.ofBits b.bits = b := by
  cases b with
  | imm i =>
    have h : (OpB.imm i).bits.getLsbD 18 = false :=
      getLsbD_of_extract ((extract_append_high 0#1 i 18 1 (by decide)).trans (extract_all _))
    have hl : (OpB.imm i).bits.extractLsb' 0 18 = i :=
      (extract_append_low 0#1 i 0 18 (by decide)).trans (extract_all i)
    simp only [OpB.ofBits, h, hl, Bool.false_eq_true, if_false]
  | reg r off =>
    have h : (OpB.reg r off).bits.getLsbD 18 = true :=
      getLsbD_of_extract ((extract_append_high (1#1 ++ r.bits) off 18 1 (by decide)).trans
        ((extract_append_high 1#1 r.bits 4 1 (by decide)).trans (extract_all _)))
    have hr : (OpB.reg r off).bits.extractLsb' 14 4 = r.bits :=
      (extract_append_high (1#1 ++ r.bits) off 14 4 (by decide)).trans
        ((extract_append_low 1#1 r.bits 0 4 (by decide)).trans (extract_all _))
    have hl : (OpB.reg r off).bits.extractLsb' 0 14 = off :=
      (extract_append_low (1#1 ++ r.bits) off 0 14 (by decide)).trans (extract_all off)
    simp only [OpB.ofBits, h, hr, hl, if_true, Reg.ofBits_bits]

@[simp] theorem OpB.bits_ofBits (b : BitVec 19) : (OpB.ofBits b).bits = b := by
  have key : b.extractLsb' 18 1 ++ b.extractLsb' 0 18 = b :=
    (extract_join b 0 1 18).trans (extract_all b)
  cases h : b.getLsbD 18
  · have e : b.extractLsb' 18 1 = 0#1 := by rw [← ofBool_getLsbD, h]; rfl
    rw [e] at key
    simp only [OpB.ofBits, h, Bool.false_eq_true, if_false, OpB.bits]
    exact key
  · have e : b.extractLsb' 18 1 = 1#1 := by rw [← ofBool_getLsbD, h]; rfl
    have j : b.extractLsb' 14 4 ++ b.extractLsb' 0 14 = b.extractLsb' 0 18 :=
      extract_join b 0 4 14
    have k : (1#1 ++ b.extractLsb' 14 4) ++ b.extractLsb' 0 14
        = 1#1 ++ (b.extractLsb' 14 4 ++ b.extractLsb' 0 14) := by
      rw [BitVec.append_assoc]; rfl
    rw [e, ← j] at key
    simp only [OpB.ofBits, h, if_true, OpB.bits, Reg.bits_ofBits]
    exact k.trans key

/-! ### Fields of a Standard format word -/

section Std

variable (op : BitVec 5) (cnd : Cond) (dr : Reg) (x : BitVec 19)

theorem extract_stdWord_high (k w : Nat) (h : 19 ≤ k) :
    (stdWord op cnd dr x).extractLsb' k w
      = (0#1 ++ dr.bits ++ op ++ cnd.bits).extractLsb' (k - 19) w :=
  extract_append_high (0#1 ++ dr.bits ++ op ++ cnd.bits) x k w h

theorem stdWord_bit31 : (stdWord op cnd dr x).getLsbD 31 = false := by
  apply getLsbD_of_extract
  simp (disch := decide) only [extract_stdWord_high, extract_append_high]
  simp

@[simp] theorem drField_stdWord : drField (stdWord op cnd dr x) = dr := by
  simp (disch := decide) only [drField, extract_stdWord_high, extract_append_high,
    extract_append_low]
  simp

@[simp] theorem opField_stdWord : opField (stdWord op cnd dr x) = op := by
  simp (disch := decide) only [opField, extract_stdWord_high, extract_append_high,
    extract_append_low]
  simp

@[simp] theorem cndField_stdWord : cndField (stdWord op cnd dr x) = cnd := by
  simp (disch := decide) only [cndField, extract_stdWord_high, extract_append_low]
  simp

@[simp] theorem low19_stdWord : (stdWord op cnd dr x).extractLsb' 0 19 = x :=
  (extract_append_low (0#1 ++ dr.bits ++ op ++ cnd.bits) x 0 19 (by decide)).trans (extract_all x)

@[simp] theorem opBField_stdWord (b : OpB) : opBField (stdWord op cnd dr b.bits) = b := by
  simp [opBField]

/-- Bit 18 of a Standard format word is the top bit of its Operand B field. -/
theorem stdWord_bit18 : (stdWord op cnd dr x).getLsbD 18 = x.getLsbD 18 := by
  have h := congrArg (fun y => y.getLsbD 18) (low19_stdWord op cnd dr x)
  rw [← h, BitVec.getLsbD_extractLsb']
  rfl

/-- A Standard format word is no compact word. -/
theorem decodeWord_stdWord :
    decodeWord (stdWord op cnd dr x) = decodeSingle (stdWord op cnd dr x) := by
  simp only [decodeWord, stdWord_bit31, Bool.false_eq_true, if_false]

@[simp] theorem decodeStd_stdWord (b : OpB) (mk : Cond → Reg → OpB → Instr) :
    decodeStd (stdWord op cnd dr b.bits) mk = mk cnd dr b := by
  simp [decodeStd]

end Std

/-! ### Fields of a MOV word -/

section Mov

variable (cnd : Cond) (dr br : Reg) (a bu : Bool) (off : BitVec 13)

theorem extract_movWord_high (k w : Nat) (h : 13 ≤ k) :
    (movWord cnd dr a br bu off).extractLsb' k w
      = (0#1 ++ dr.bits ++ 0x0f#5 ++ cnd.bits ++ BitVec.ofBool a ++ br.bits
          ++ BitVec.ofBool bu).extractLsb' (k - 13) w :=
  extract_append_high (0#1 ++ dr.bits ++ 0x0f#5 ++ cnd.bits ++ BitVec.ofBool a ++ br.bits
    ++ BitVec.ofBool bu) off k w h

theorem movWord_bit31 : (movWord cnd dr a br bu off).getLsbD 31 = false := by
  apply getLsbD_of_extract
  simp (disch := decide) only [extract_movWord_high, extract_append_high]
  simp

@[simp] theorem opField_movWord : opField (movWord cnd dr a br bu off) = 0x0f#5 := by
  simp (disch := decide) only [opField, extract_movWord_high, extract_append_high,
    extract_append_low]
  simp

@[simp] theorem drField_movWord : drField (movWord cnd dr a br bu off) = dr := by
  simp (disch := decide) only [drField, extract_movWord_high, extract_append_high,
    extract_append_low]
  simp

@[simp] theorem cndField_movWord : cndField (movWord cnd dr a br bu off) = cnd := by
  simp (disch := decide) only [cndField, extract_movWord_high, extract_append_high,
    extract_append_low]
  simp

/-- A MOV word decodes to its fields. -/
theorem decodeMov_movWord :
    decodeMov (movWord cnd dr a br bu off) = .mov cnd dr a br bu off := by
  have h18 : (movWord cnd dr a br bu off).getLsbD 18 = a := by
    apply getLsbD_of_extract
    simp (disch := decide) only [extract_movWord_high, extract_append_high, extract_append_low]
    simp
  have h13 : (movWord cnd dr a br bu off).getLsbD 13 = bu := by
    apply getLsbD_of_extract
    simp (disch := decide) only [extract_movWord_high, extract_append_low]
    simp
  have h0 : (movWord cnd dr a br bu off).extractLsb' 0 13 = off :=
    (extract_append_low (0#1 ++ dr.bits ++ 0x0f#5 ++ cnd.bits ++ BitVec.ofBool a ++ br.bits
      ++ BitVec.ofBool bu) off 0 13 (by decide)).trans (extract_all off)
  simp (disch := decide) only [decodeMov, cndField, drField, h18, h13, h0, extract_movWord_high,
    extract_append_high,
    extract_append_low]
  simp

end Mov

/-! ### Fields of an LDI word -/

section Ldi

variable (dr : Reg) (i : BitVec 23)

theorem extract_ldiWord_high (k w : Nat) (h : 23 ≤ k) :
    (ldiWord dr i).extractLsb' k w = (0#1 ++ dr.bits ++ 0xb#4).extractLsb' (k - 23) w :=
  extract_append_high (0#1 ++ dr.bits ++ 0xb#4) i k w h

theorem ldiWord_bit31 : (ldiWord dr i).getLsbD 31 = false := by
  apply getLsbD_of_extract
  simp (disch := decide) only [extract_ldiWord_high, extract_append_high]
  simp

@[simp] theorem drField_ldiWord : drField (ldiWord dr i) = dr := by
  simp (disch := decide) only [drField, extract_ldiWord_high, extract_append_high,
    extract_append_low]
  simp

@[simp] theorem low23_ldiWord : (ldiWord dr i).extractLsb' 0 23 = i :=
  (extract_append_low (0#1 ++ dr.bits ++ 0xb#4) i 0 23 (by decide)).trans (extract_all i)

/-- The opcode of an LDI word: its low bit is the top bit of the immediate (R110). -/
theorem opField_ldiWord :
    opField (ldiWord dr i) = 0x16#5 ∨ opField (ldiWord dr i) = 0x17#5 := by
  have hj : (ldiWord dr i).extractLsb' 23 4 ++ (ldiWord dr i).extractLsb' 22 1
      = opField (ldiWord dr i) := extract_join (ldiWord dr i) 22 4 1
  have hb : (ldiWord dr i).extractLsb' 23 4 = 0xb#4 := by
    simp (disch := decide) only [extract_ldiWord_high, extract_append_low]
    simp
  rw [← hj, hb, ← ofBool_getLsbD]
  cases (ldiWord dr i).getLsbD 22 <;> decide

end Ldi

/-! ### Fields of a compact word -/

section Compact

variable (h1 h2 : Half) (vcnd : BitVec 3)

/-- The bits of a compact word above the last four. -/
def compactHigh : BitVec (1 + 4 + 5 + 3 + 1 + 4 + 4 + 5 + 1) :=
  1#1 ++ h1.dr.bits ++ h1.op ++ vcnd ++ BitVec.ofBool h1.sel ++ h1.f ++ h2.dr.bits ++ h2.op ++
    BitVec.ofBool h2.sel

theorem extract_compactWord_high (k w : Nat) (h : 4 ≤ k) :
    (compactWord h1 vcnd h2).extractLsb' k w = (compactHigh h1 h2 vcnd).extractLsb' (k - 4) w :=
  extract_append_high (compactHigh h1 h2 vcnd) h2.f k w h

theorem compactWord_bit31 : (compactWord h1 vcnd h2).getLsbD 31 = true := by
  apply getLsbD_of_extract
  simp (disch := decide) only [extract_compactWord_high, compactHigh, extract_append_high]
  simp

/-- A compact word decodes to its halves. -/
theorem decodeCompact_compactWord :
    decodeCompact (compactWord h1 vcnd h2) = .vliw h1 vcnd h2 := by
  have h18 : (compactWord h1 vcnd h2).getLsbD 18 = h1.sel := by
    apply getLsbD_of_extract
    simp (disch := decide) only [extract_compactWord_high, compactHigh, extract_append_high,
      extract_append_low]
    simp
  have h4 : (compactWord h1 vcnd h2).getLsbD 4 = h2.sel := by
    apply getLsbD_of_extract
    simp (disch := decide) only [extract_compactWord_high, compactHigh, extract_append_low]
    simp
  have h0 : (compactWord h1 vcnd h2).extractLsb' 0 4 = h2.f :=
    (extract_append_low (compactHigh h1 h2 vcnd) h2.f 0 4 (by decide)).trans (extract_all h2.f)
  simp (disch := decide) only [decodeCompact, drField, opField, h18, h4, h0,
    extract_compactWord_high, compactHigh,
    extract_append_high, extract_append_low]
  simp

end Compact

/-! ### Words rebuilt from their fields -/

/-- A word with bit 31 clear is the Standard format word of its fields. -/
theorem stdWord_fields {w : Word} (h : w.getLsbD 31 = false) :
    stdWord (opField w) (cndField w) (drField w) (w.extractLsb' 0 19) = w := by
  have e : (0#1 : BitVec 1) = w.extractLsb' 31 1 := by rw [← ofBool_getLsbD, h]; rfl
  simp only [stdWord, opField, cndField, drField, Reg.bits_ofBits, Cond.bits_ofBits]
  rw [e]
  have j1 : w.extractLsb' 31 1 ++ w.extractLsb' 27 4 = w.extractLsb' 27 (1 + 4) :=
    extract_join w 27 1 4
  have j2 : w.extractLsb' 27 (1 + 4) ++ w.extractLsb' 22 5 = w.extractLsb' 22 (1 + 4 + 5) :=
    extract_join w 22 (1 + 4) 5
  have j3 : w.extractLsb' 22 (1 + 4 + 5) ++ w.extractLsb' 19 3 = w.extractLsb' 19 (1 + 4 + 5 + 3) :=
    extract_join w 19 (1 + 4 + 5) 3
  rw [j1, j2, j3]
  exact (extract_join w 0 (1 + 4 + 5 + 3) 19).trans (extract_all w)

/-- A word with bit 31 clear and the opcode of MOV is the MOV word of its fields. -/
theorem movWord_fields {w : Word} (h : w.getLsbD 31 = false) (ho : opField w = 0x0f#5) :
    encodeWord (decodeMov w) = w := by
  have e : (0#1 : BitVec 1) = w.extractLsb' 31 1 := by rw [← ofBool_getLsbD, h]; rfl
  simp only [decodeMov, encodeWord, movWord, cndField, drField, Reg.bits_ofBits, Cond.bits_ofBits,
    ofBool_getLsbD]
  rw [e, ← ho]
  simp only [opField]
  have j1 : w.extractLsb' 31 1 ++ w.extractLsb' 27 4 = w.extractLsb' 27 (1 + 4) :=
    extract_join w 27 1 4
  have j2 : w.extractLsb' 27 (1 + 4) ++ w.extractLsb' 22 5 = w.extractLsb' 22 (1 + 4 + 5) :=
    extract_join w 22 (1 + 4) 5
  have j3 : w.extractLsb' 22 (1 + 4 + 5) ++ w.extractLsb' 19 3 = w.extractLsb' 19 (1 + 4 + 5 + 3) :=
    extract_join w 19 (1 + 4 + 5) 3
  have j4 : w.extractLsb' 19 (1 + 4 + 5 + 3) ++ w.extractLsb' 18 1
      = w.extractLsb' 18 (1 + 4 + 5 + 3 + 1) :=
    extract_join w 18 (1 + 4 + 5 + 3) 1
  have j5 : w.extractLsb' 18 (1 + 4 + 5 + 3 + 1) ++ w.extractLsb' 14 4
      = w.extractLsb' 14 (1 + 4 + 5 + 3 + 1 + 4) :=
    extract_join w 14 (1 + 4 + 5 + 3 + 1) 4
  have j6 : w.extractLsb' 14 (1 + 4 + 5 + 3 + 1 + 4) ++ w.extractLsb' 13 1
      = w.extractLsb' 13 (1 + 4 + 5 + 3 + 1 + 4 + 1) :=
    extract_join w 13 (1 + 4 + 5 + 3 + 1 + 4) 1
  rw [j1, j2, j3, j4, j5, j6]
  exact (extract_join w 0 (1 + 4 + 5 + 3 + 1 + 4 + 1) 13).trans (extract_all w)

/-- A word with bit 31 clear and an opcode of LDI is the LDI word of its fields. -/
theorem ldiWord_fields {w : Word} (h : w.getLsbD 31 = false)
    (ho : w.extractLsb' 23 4 = 0xb#4) : ldiWord (drField w) (w.extractLsb' 0 23) = w := by
  have e : (0#1 : BitVec 1) = w.extractLsb' 31 1 := by rw [← ofBool_getLsbD, h]; rfl
  simp only [ldiWord, drField, Reg.bits_ofBits]
  rw [e, ← ho]
  have j1 : w.extractLsb' 31 1 ++ w.extractLsb' 27 4 = w.extractLsb' 27 (1 + 4) :=
    extract_join w 27 1 4
  have j2 : w.extractLsb' 27 (1 + 4) ++ w.extractLsb' 23 4 = w.extractLsb' 23 (1 + 4 + 4) :=
    extract_join w 23 (1 + 4) 4
  rw [j1, j2]
  exact (extract_join w 0 (1 + 4 + 4) 23).trans (extract_all w)

/-- A word with bit 31 set is the compact word of its fields. -/
theorem compactWord_fields {w : Word} (h : w.getLsbD 31 = true) :
    encodeWord (decodeCompact w) = w := by
  have e : (1#1 : BitVec 1) = w.extractLsb' 31 1 := by rw [← ofBool_getLsbD, h]; rfl
  simp only [decodeCompact, encodeWord, compactWord, drField, opField, Reg.bits_ofBits,
    ofBool_getLsbD]
  rw [e]
  have j1 : w.extractLsb' 31 1 ++ w.extractLsb' 27 4 = w.extractLsb' 27 (1 + 4) :=
    extract_join w 27 1 4
  have j2 : w.extractLsb' 27 (1 + 4) ++ w.extractLsb' 22 5 = w.extractLsb' 22 (1 + 4 + 5) :=
    extract_join w 22 (1 + 4) 5
  have j3 : w.extractLsb' 22 (1 + 4 + 5) ++ w.extractLsb' 19 3 = w.extractLsb' 19 (1 + 4 + 5 + 3) :=
    extract_join w 19 (1 + 4 + 5) 3
  have j4 : w.extractLsb' 19 (1 + 4 + 5 + 3) ++ w.extractLsb' 18 1
      = w.extractLsb' 18 (1 + 4 + 5 + 3 + 1) :=
    extract_join w 18 (1 + 4 + 5 + 3) 1
  have j5 : w.extractLsb' 18 (1 + 4 + 5 + 3 + 1) ++ w.extractLsb' 14 4
      = w.extractLsb' 14 (1 + 4 + 5 + 3 + 1 + 4) :=
    extract_join w 14 (1 + 4 + 5 + 3 + 1) 4
  have j6 : w.extractLsb' 14 (1 + 4 + 5 + 3 + 1 + 4) ++ w.extractLsb' 10 4
      = w.extractLsb' 10 (1 + 4 + 5 + 3 + 1 + 4 + 4) :=
    extract_join w 10 (1 + 4 + 5 + 3 + 1 + 4) 4
  have j7 : w.extractLsb' 10 (1 + 4 + 5 + 3 + 1 + 4 + 4) ++ w.extractLsb' 5 5
      = w.extractLsb' 5 (1 + 4 + 5 + 3 + 1 + 4 + 4 + 5) :=
    extract_join w 5 (1 + 4 + 5 + 3 + 1 + 4 + 4) 5
  have j8 : w.extractLsb' 5 (1 + 4 + 5 + 3 + 1 + 4 + 4 + 5) ++ w.extractLsb' 4 1
      = w.extractLsb' 4 (1 + 4 + 5 + 3 + 1 + 4 + 4 + 5 + 1) :=
    extract_join w 4 (1 + 4 + 5 + 3 + 1 + 4 + 4 + 5) 1
  rw [j1, j2, j3, j4, j5, j6, j7, j8]
  exact (extract_join w 0 (1 + 4 + 5 + 3 + 1 + 4 + 4 + 5 + 1) 4).trans (extract_all w)

/-- The bytes of a word put together again are the word. -/
theorem bytesWord_extract (v : Word) :
    bytesWord (v.extractLsb' 0 8) (v.extractLsb' 8 8) (v.extractLsb' 16 8) (v.extractLsb' 24 8)
      = v := by
  apply BitVec.eq_of_getLsbD_eq
  intro i hi
  simp only [bytesWord, BitVec.getLsbD_append, BitVec.getLsbD_extractLsb']
  by_cases h0 : i < 8
  · simp [h0]
  · by_cases h1 : i < 16
    · have : i - 8 < 8 := by omega
      simp [h0, this, show 8 + (i - 8) = i by omega]
    · by_cases h2 : i < 24
      · have h3 : ¬i - 8 < 8 := by omega
        have : i - 8 - 8 < 8 := by omega
        simp [h0, h3, this, show 16 + (i - 8 - 8) = i by omega]
      · have h3 : ¬i - 8 < 8 := by omega
        have h4 : ¬i - 8 - 8 < 8 := by omega
        have : i - 8 - 8 - 8 < 8 := by omega
        simp [h0, h3, h4, this, show 24 + (i - 8 - 8 - 8) = i by omega]

/-- The bytes of a word decode to the instruction of the word. -/
theorem decode_wordBytes (w : Word) (rest : List Byte) :
    decode (wordBytes w ++ rest) = .ok (decodeWord w, rest) := by
  simp only [wordBytes, List.cons_append, List.nil_append, decode, bytesWord_extract]

/-- The opcodes of LDI: bits 4..1 are 4'hb (R110). -/
theorem ldiPrefix_of_opField {w : Word} (h : opField w = 0x16#5 ∨ opField w = 0x17#5) :
    w.extractLsb' 23 4 = 0xb#4 := by
  have e : (opField w).extractLsb' 1 4 = w.extractLsb' 23 4 := by
    apply BitVec.eq_of_getLsbD_eq
    intro i hi
    simp [opField, show 1 + i < 5 by omega, show 22 + (1 + i) = 23 + i by omega]
  rw [← e]
  rcases h with h | h <;> rw [h] <;> decide

/-- Four bytes decode to the instruction of their word. -/
theorem decode_four (b0 b1 b2 b3 : Byte) (rest : List Byte) :
    decode (b0 :: b1 :: b2 :: b3 :: rest) = .ok (decodeWord (bytesWord b0 b1 b2 b3), rest) := rfl

end Sys2Proof
end

