-- ==== Sys2Proof/Laws/Memory.lean ====
section
/-! SUPPORT. Memory: a read after a write, and every operation keeps the canonical form. -/

namespace Sys2Proof.Machine

/-! ### The canonical form -/

theorem Memory.wf_cons (k : Nat) (b : Byte) (rest : Memory) :
    Memory.wf ((k, b) :: rest) = true ↔
      b ≠ Memory.unlisted ∧ (∀ c ∈ rest, k < c.1) ∧ Memory.wf rest = true := by
  simp [Memory.wf, and_assoc]

/-- A cell below every listed one is not listed. -/
theorem Memory.readByte_of_lt {m : Memory} {a : Nat} (h : ∀ c ∈ m, a < c.1) :
    m.readByte a = Memory.unlisted := by
  cases m with
  | nil => rfl
  | cons c rest =>
    have := h c (by simp)
    obtain ⟨k, b⟩ := c
    simp only at this
    simp [Memory.readByte, Nat.ne_of_lt this, this]

/-- The cells of memory after a byte write: the written one, or one listed before. -/
theorem Memory.mem_writeByte {m : Memory} {a : Nat} {v : Byte} {c : Host.Cell}
    (h : c ∈ m.writeByte a v) : c = (a, v) ∨ c ∈ m := by
  induction m with
  | nil =>
    simp only [Memory.writeByte] at h
    split at h <;> simp_all
  | cons d rest ih =>
    obtain ⟨k, b⟩ := d
    simp only [Memory.writeByte] at h
    split at h
    · split at h
      · exact .inr (List.mem_cons_of_mem _ h)
      · rcases List.mem_cons.1 h with h | h
        · exact .inl h
        · exact .inr (List.mem_cons_of_mem _ h)
    · split at h
      · split at h
        · exact .inr h
        · rcases List.mem_cons.1 h with h | h
          · exact .inl h
          · exact .inr h
      · rcases List.mem_cons.1 h with h | h
        · exact .inr (by simp [h])
        · rcases ih h with h | h
          · exact .inl h
          · exact .inr (List.mem_cons_of_mem _ h)

/-- A byte write keeps the canonical form. -/
theorem Memory.writeByte_wf {m : Memory} (a : Nat) (v : Byte) (h : m.wf = true) :
    (m.writeByte a v).wf = true := by
  induction m with
  | nil =>
    simp only [Memory.writeByte]
    split <;> simp_all [Memory.wf]
  | cons d rest ih =>
    obtain ⟨k, b⟩ := d
    obtain ⟨hb, hk, hr⟩ := (Memory.wf_cons k b rest).1 h
    simp only [Memory.writeByte]
    split
    · rename_i e
      subst e
      split
      · exact hr
      · rename_i hv
        exact (Memory.wf_cons _ _ _).2 ⟨hv, hk, hr⟩
    · split
      · rename_i hlt
        split
        · exact h
        · rename_i hv
          refine (Memory.wf_cons _ _ _).2 ⟨hv, fun c hc => ?_, h⟩
          rcases List.mem_cons.1 hc with rfl | hc
          · exact hlt
          · exact Nat.lt_trans hlt (hk c hc)
      · rename_i hne hge
        refine (Memory.wf_cons _ _ _).2 ⟨hb, fun c hc => ?_, ih hr⟩
        rcases Memory.mem_writeByte hc with rfl | hc
        · simp only; omega
        · exact hk c hc

/-- A byte write inside the address space keeps every listed cell inside it. -/
theorem Memory.writeByte_inSpace {m : Memory} {aw a : Nat} (v : Byte)
    (h : m.inSpace aw = true) (ha : a < 4 * 2 ^ aw) : (m.writeByte a v).inSpace aw = true := by
  simp only [Memory.inSpace, List.all_eq_true, decide_eq_true_eq] at h ⊢
  intro c hc
  rcases Memory.mem_writeByte hc with rfl | hc
  · exact ha
  · exact h c hc

/-! ### Reading what was written -/

/-- What a byte reads as after a byte write. -/
theorem Memory.readByte_writeByte {m : Memory} (a x : Nat) (v : Byte) (h : m.wf = true) :
    (m.writeByte a v).readByte x = if x = a then v else m.readByte x := by
  induction m with
  | nil =>
    simp only [Memory.writeByte, Memory.readByte]
    split
    · split <;> simp_all [Memory.readByte]
    · simp only [Memory.readByte]
      split
      · rfl
      · split <;> rfl
  | cons d rest ih =>
    obtain ⟨k, b⟩ := d
    obtain ⟨hb, hk, hr⟩ := (Memory.wf_cons k b rest).1 h
    simp only [Memory.writeByte]
    split
    · rename_i e
      subst e
      split
      · rename_i hv
        subst hv
        by_cases hx : x = a
        · subst hx
          simp [Memory.readByte_of_lt hk]
        · rw [if_neg hx]
          by_cases hlt : x < a
          · simp only [Memory.readByte, if_neg hx, if_pos hlt]
            exact Memory.readByte_of_lt (fun c hc => Nat.lt_trans hlt (hk c hc))
          · simp [Memory.readByte, if_neg hx, if_neg hlt]
      · simp only [Memory.readByte]
        split
        · rfl
        · rfl
    · rename_i hne
      split
      · rename_i hlt
        split
        · rename_i hv
          subst hv
          split
          · rename_i hx
            subst hx
            simp [Memory.readByte, hne, hlt]
          · rfl
        · simp only [Memory.readByte]
          split
          · rfl
          · split
            · rename_i hxa
              have : x ≠ k := by omega
              have h2 : x < k := by omega
              simp [this, h2]
            · rfl
      · rename_i hge
        simp only [Memory.readByte, ih hr]
        by_cases hxk : x = k
        · subst hxk
          have : x ≠ a := fun e => hne e.symm
          simp [this]
        · simp only [if_neg hxk]
          by_cases hx : x = a
          · subst hx
            simp [hge]
          · simp [hx]

/-- A word write keeps the canonical form. -/
theorem Memory.writeWord_wf {m : Memory} (a : Nat) (v : Word) (h : m.wf = true) :
    (m.writeWord a v).wf = true :=
  Memory.writeByte_wf _ _ (Memory.writeByte_wf _ _ (Memory.writeByte_wf _ _
    (Memory.writeByte_wf _ _ h)))

/-- A word write at a word address of the bus keeps every listed cell in the address space. -/
theorem Memory.writeWord_inSpace {m : Memory} {aw a : Nat} (v : Word)
    (h : m.inSpace aw = true) (ha : a < 2 ^ aw) : (m.writeWord a v).inSpace aw = true := by
  unfold Memory.writeWord
  exact Memory.writeByte_inSpace _ (Memory.writeByte_inSpace _ (Memory.writeByte_inSpace _
    (Memory.writeByte_inSpace _ h (by omega)) (by omega)) (by omega)) (by omega)

/-- What a byte reads as after a word write. -/
theorem Memory.readByte_writeWord {m : Memory} (a x : Nat) (v : Word) (h : m.wf = true) :
    (m.writeWord a v).readByte x =
      if x = 4 * a + 3 then v.extractLsb' 24 8
      else if x = 4 * a + 2 then v.extractLsb' 16 8
      else if x = 4 * a + 1 then v.extractLsb' 8 8
      else if x = 4 * a then v.extractLsb' 0 8
      else m.readByte x := by
  have h1 := Memory.writeByte_wf (4 * a) (v.extractLsb' 0 8) h
  have h2 := Memory.writeByte_wf (4 * a + 1) (v.extractLsb' 8 8) h1
  have h3 := Memory.writeByte_wf (4 * a + 2) (v.extractLsb' 16 8) h2
  simp only [Memory.writeWord, Memory.readByte_writeByte _ _ _ h3,
    Memory.readByte_writeByte _ _ _ h2, Memory.readByte_writeByte _ _ _ h1,
    Memory.readByte_writeByte _ _ _ h]

/-- A word write leaves every byte outside the word alone. -/
theorem Memory.readByte_writeWord_outside {m : Memory} (a x : Nat) (v : Word) (h : m.wf = true)
    (hx : ¬(4 * a ≤ x ∧ x < 4 * a + 4)) : (m.writeWord a v).readByte x = m.readByte x := by
  rw [Memory.readByte_writeWord a x v h]
  have h0 : x ≠ 4 * a := by omega
  have h1 : x ≠ 4 * a + 1 := by omega
  have h2 : x ≠ 4 * a + 2 := by omega
  have h3 : x ≠ 4 * a + 3 := by omega
  simp [h0, h1, h2, h3]

/-- A word reads back as written. -/
theorem Memory.readWord_writeWord_same {m : Memory} (a : Nat) (v : Word) (h : m.wf = true) :
    (m.writeWord a v).readWord a = v := by
  simp only [Memory.readWord, Memory.readByte_writeWord _ _ _ h]
  simp [bytesWord_extract]

/-- A word write leaves every other word alone. -/
theorem Memory.readWord_writeWord_other {m : Memory} {a x : Nat} (v : Word) (h : m.wf = true)
    (hx : x ≠ a) : (m.writeWord a v).readWord x = m.readWord x := by
  simp only [Memory.readWord]
  rw [Memory.readByte_writeWord_outside a (4 * x) v h (by omega),
    Memory.readByte_writeWord_outside a (4 * x + 1) v h (by omega),
    Memory.readByte_writeWord_outside a (4 * x + 2) v h (by omega),
    Memory.readByte_writeWord_outside a (4 * x + 3) v h (by omega)]

/-- Memory at reset has the canonical form. -/
theorem State.reset_mem_wf : State.reset.mem.wf = true := rfl

/-- A bus address lies in the address space. -/
theorem State.busAddr_lt (s : State) (a : Word) : s.busAddr a < 2 ^ s.cfg.aw :=
  Nat.mod_lt _ (Nat.two_pow_pos _)

/-- A store keeps the memory canonical and in the address space. -/
theorem State.storeWord_memOk {s : State} (a v : Word) (h : s.memOk = true) :
    (s.storeWord (s.busAddr a) v).memOk = true := by
  simp only [State.memOk, Bool.and_eq_true] at h ⊢
  exact ⟨Memory.writeWord_wf _ _ h.1, Memory.writeWord_inSpace _ h.2 (s.busAddr_lt a)⟩

/-- What a memory write can do. -/
theorem State.memWrite_cases {s t : State} {a v : Word} (h : s.memWrite a v = some t) :
    s.busError .write a = false ∧ t = s.storeWord (s.busAddr a) v := by
  unfold State.memWrite at h
  split at h
  · cases h
  · rename_i hb
    exact ⟨by simpa using hb, by simpa using h.symm⟩

/-- What a memory read can do. -/
theorem State.memRead_cases {s : State} {a v : Word} (h : s.memRead a = some v) :
    s.busError .read a = false ∧ v = s.mem.readWord (s.busAddr a) := by
  unfold State.memRead at h
  split at h
  · cases h
  · rename_i hb
    exact ⟨by simpa using hb, by simpa using h.symm⟩

end Sys2Proof.Machine
end

