-- ==== Sys2Proof/Laws/State.lean ====
section
/-! SUPPORT. What each update of the state does to each field: the small lemmas later proofs cite
instead of unfolding an update. -/

namespace Sys2Proof.Machine

@[simp] theorem Bank.pick_sup {α : Type} (x y : α) : Bank.sup.pick x y = x := rfl
@[simp] theorem Bank.pick_usr {α : Type} (x y : α) : Bank.usr.pick x y = y := rfl
@[simp] theorem Bank.other_ne (b : Bank) : b.other ≠ b := by cases b <;> decide
@[simp] theorem Bank.ne_other (b : Bank) : b ≠ b.other := by cases b <;> decide
@[simp] theorem Bank.other_sup : Bank.sup.other = .usr := rfl
@[simp] theorem Bank.other_usr : Bank.usr.other = .sup := rfl
theorem Bank.eq_or_eq_other (b b' : Bank) : b' = b ∨ b' = b.other := by
  cases b <;> cases b' <;> decide

@[simp] theorem State.regs_sup (s : State) : s.regs .sup = s.sup := rfl
@[simp] theorem State.regs_usr (s : State) : s.regs .usr = s.usr := rfl
theorem State.bank_of_supervisor {s : State} (h : s.cc.gie = false) : s.bank = .sup := by
  simp [State.bank, h]
theorem State.bank_of_user {s : State} (h : s.cc.gie = true) : s.bank = .usr := by
  simp [State.bank, h]
@[simp] theorem State.bank_eq_usr (s : State) : s.bank = .usr ↔ s.cc.gie = true := by
  cases h : s.cc.gie <;> simp [State.bank, h]
@[simp] theorem State.bank_eq_sup (s : State) : s.bank = .sup ↔ s.cc.gie = false := by
  cases h : s.cc.gie <;> simp [State.bank, h]


/-! ### withRegs -/

@[simp] theorem State.withRegs_cfg (s : State) (b : Bank) (r : RegSet) :
    (s.withRegs b r).cfg = s.cfg := rfl
@[simp] theorem State.withRegs_cc (s : State) (b : Bank) (r : RegSet) :
    (s.withRegs b r).cc = s.cc := rfl
@[simp] theorem State.withRegs_icache (s : State) (b : Bank) (r : RegSet) :
    (s.withRegs b r).icache = s.icache := rfl
@[simp] theorem State.withRegs_lock (s : State) (b : Bank) (r : RegSet) :
    (s.withRegs b r).lock = s.lock := rfl
@[simp] theorem State.withRegs_halted (s : State) (b : Bank) (r : RegSet) :
    (s.withRegs b r).halted = s.halted := rfl
@[simp] theorem State.withRegs_phase (s : State) (b : Bank) (r : RegSet) :
    (s.withRegs b r).phase = s.phase := rfl
@[simp] theorem State.withRegs_mem (s : State) (b : Bank) (r : RegSet) :
    (s.withRegs b r).mem = s.mem := rfl
@[simp] theorem State.withRegs_inputs (s : State) (b : Bank) (r : RegSet) :
    (s.withRegs b r).inputs = s.inputs := rfl
@[simp] theorem State.withRegs_fresh (s : State) (b : Bank) (r : RegSet) :
    (s.withRegs b r).fresh = s.fresh := rfl
@[simp] theorem State.withRegs_bank (s : State) (b : Bank) (r : RegSet) :
    (s.withRegs b r).bank = s.bank := rfl
@[simp] theorem State.withRegs_sup_usr (s : State) (r : RegSet) :
    (s.withRegs .sup r).usr = s.usr := rfl
@[simp] theorem State.withRegs_usr_sup (s : State) (r : RegSet) :
    (s.withRegs .usr r).sup = s.sup := rfl
@[simp] theorem State.withRegs_regs_other (s : State) (b : Bank) (r : RegSet) :
    (s.withRegs b r).regs b.other = s.regs b.other := by
  cases b <;> rfl
@[simp] theorem State.withRegs_regs_same (s : State) (b : Bank) (r : RegSet) :
    (s.withRegs b r).regs b = r := by
  cases b <;> rfl
@[simp] theorem State.withRegs_sup (s : State) (r : RegSet) : (s.withRegs .sup r).sup = r := rfl
@[simp] theorem State.withRegs_usr (s : State) (r : RegSet) : (s.withRegs .usr r).usr = r := rfl

/-! ### setGpr -/

@[simp] theorem State.setGpr_cfg (s : State) (b : Bank) (i : Fin 14) (v : Word) :
    (s.setGpr b i v).cfg = s.cfg := rfl
@[simp] theorem State.setGpr_cc (s : State) (b : Bank) (i : Fin 14) (v : Word) :
    (s.setGpr b i v).cc = s.cc := rfl
@[simp] theorem State.setGpr_icache (s : State) (b : Bank) (i : Fin 14) (v : Word) :
    (s.setGpr b i v).icache = s.icache := rfl
@[simp] theorem State.setGpr_lock (s : State) (b : Bank) (i : Fin 14) (v : Word) :
    (s.setGpr b i v).lock = s.lock := rfl
@[simp] theorem State.setGpr_halted (s : State) (b : Bank) (i : Fin 14) (v : Word) :
    (s.setGpr b i v).halted = s.halted := rfl
@[simp] theorem State.setGpr_phase (s : State) (b : Bank) (i : Fin 14) (v : Word) :
    (s.setGpr b i v).phase = s.phase := rfl
@[simp] theorem State.setGpr_mem (s : State) (b : Bank) (i : Fin 14) (v : Word) :
    (s.setGpr b i v).mem = s.mem := rfl
@[simp] theorem State.setGpr_inputs (s : State) (b : Bank) (i : Fin 14) (v : Word) :
    (s.setGpr b i v).inputs = s.inputs := rfl
@[simp] theorem State.setGpr_fresh (s : State) (b : Bank) (i : Fin 14) (v : Word) :
    (s.setGpr b i v).fresh = s.fresh := rfl
@[simp] theorem State.setGpr_bank (s : State) (b : Bank) (i : Fin 14) (v : Word) :
    (s.setGpr b i v).bank = s.bank := rfl
@[simp] theorem State.setGpr_sup_usr (s : State) (i : Fin 14) (v : Word) :
    (s.setGpr .sup i v).usr = s.usr := rfl
@[simp] theorem State.setGpr_usr_sup (s : State) (i : Fin 14) (v : Word) :
    (s.setGpr .usr i v).sup = s.sup := rfl
@[simp] theorem State.setGpr_regs_other (s : State) (b : Bank) (i : Fin 14) (v : Word) :
    (s.setGpr b i v).regs b.other = s.regs b.other := by
  cases b <;> rfl
theorem State.setGpr_regs_same (s : State) (b : Bank) (i : Fin 14) (v : Word) :
    (s.setGpr b i v).regs b = { s.regs b with gpr := (s.regs b).gpr.set i v } := by
  cases b <;> rfl
@[simp] theorem State.setGpr_regs_gpr_same (s : State) (b : Bank) (i : Fin 14) (v : Word) :
    ((s.setGpr b i v).regs b).gpr = (s.regs b).gpr.set i v := by
  cases b <;> rfl
@[simp] theorem State.setGpr_sup_gpr (s : State) (i : Fin 14) (v : Word) :
    (s.setGpr .sup i v).sup.gpr = s.sup.gpr.set i v := rfl
@[simp] theorem State.setGpr_usr_gpr (s : State) (i : Fin 14) (v : Word) :
    (s.setGpr .usr i v).usr.gpr = s.usr.gpr.set i v := rfl
@[simp] theorem State.setGpr_regs_pc (s : State) (b : Bank) (i : Fin 14) (v : Word) (b' : Bank) :
    ((s.setGpr b i v).regs b').pc = (s.regs b').pc := by
  cases b <;> cases b' <;> rfl
@[simp] theorem State.setGpr_supset_pc (s : State) (b : Bank) (i : Fin 14) (v : Word) :
    (s.setGpr b i v).sup.pc = s.sup.pc := by
  cases b <;> rfl
@[simp] theorem State.setGpr_usrset_pc (s : State) (b : Bank) (i : Fin 14) (v : Word) :
    (s.setGpr b i v).usr.pc = s.usr.pc := by
  cases b <;> rfl
@[simp] theorem State.setGpr_regs_flags (s : State) (b : Bank) (i : Fin 14) (v : Word) (b' : Bank) :
    ((s.setGpr b i v).regs b').flags = (s.regs b').flags := by
  cases b <;> cases b' <;> rfl
@[simp] theorem State.setGpr_supset_flags (s : State) (b : Bank) (i : Fin 14) (v : Word) :
    (s.setGpr b i v).sup.flags = s.sup.flags := by
  cases b <;> rfl
@[simp] theorem State.setGpr_usrset_flags (s : State) (b : Bank) (i : Fin 14) (v : Word) :
    (s.setGpr b i v).usr.flags = s.usr.flags := by
  cases b <;> rfl
@[simp] theorem State.setGpr_regs_up (s : State) (b : Bank) (i : Fin 14) (v : Word) (b' : Bank) :
    ((s.setGpr b i v).regs b').up = (s.regs b').up := by
  cases b <;> cases b' <;> rfl
@[simp] theorem State.setGpr_supset_up (s : State) (b : Bank) (i : Fin 14) (v : Word) :
    (s.setGpr b i v).sup.up = s.sup.up := by
  cases b <;> rfl
@[simp] theorem State.setGpr_usrset_up (s : State) (b : Bank) (i : Fin 14) (v : Word) :
    (s.setGpr b i v).usr.up = s.usr.up := by
  cases b <;> rfl
@[simp] theorem State.setGpr_pc (s : State) (b : Bank) (i : Fin 14) (v : Word) :
    (s.setGpr b i v).pc = s.pc := by
  simp [State.pc]

/-! ### setPc -/

@[simp] theorem State.setPc_cfg (s : State) (b : Bank) (v : Word) : (s.setPc b v).cfg = s.cfg := rfl
@[simp] theorem State.setPc_cc (s : State) (b : Bank) (v : Word) : (s.setPc b v).cc = s.cc := rfl
@[simp] theorem State.setPc_icache (s : State) (b : Bank) (v : Word) :
    (s.setPc b v).icache = s.icache := rfl
@[simp] theorem State.setPc_lock (s : State) (b : Bank) (v : Word) :
    (s.setPc b v).lock = s.lock := rfl
@[simp] theorem State.setPc_halted (s : State) (b : Bank) (v : Word) :
    (s.setPc b v).halted = s.halted := rfl
@[simp] theorem State.setPc_phase (s : State) (b : Bank) (v : Word) :
    (s.setPc b v).phase = s.phase := rfl
@[simp] theorem State.setPc_mem (s : State) (b : Bank) (v : Word) : (s.setPc b v).mem = s.mem := rfl
@[simp] theorem State.setPc_inputs (s : State) (b : Bank) (v : Word) :
    (s.setPc b v).inputs = s.inputs := rfl
@[simp] theorem State.setPc_fresh (s : State) (b : Bank) (v : Word) :
    (s.setPc b v).fresh = s.fresh := rfl
@[simp] theorem State.setPc_bank (s : State) (b : Bank) (v : Word) :
    (s.setPc b v).bank = s.bank := rfl
@[simp] theorem State.setPc_sup_usr (s : State) (v : Word) : (s.setPc .sup v).usr = s.usr := rfl
@[simp] theorem State.setPc_usr_sup (s : State) (v : Word) : (s.setPc .usr v).sup = s.sup := rfl
@[simp] theorem State.setPc_regs_other (s : State) (b : Bank) (v : Word) :
    (s.setPc b v).regs b.other = s.regs b.other := by
  cases b <;> rfl
theorem State.setPc_regs_same (s : State) (b : Bank) (v : Word) :
    (s.setPc b v).regs b = { s.regs b with pc := v } := by
  cases b <;> rfl
@[simp] theorem State.setPc_regs_gpr (s : State) (b : Bank) (v : Word) (b' : Bank) :
    ((s.setPc b v).regs b').gpr = (s.regs b').gpr := by
  cases b <;> cases b' <;> rfl
@[simp] theorem State.setPc_supset_gpr (s : State) (b : Bank) (v : Word) :
    (s.setPc b v).sup.gpr = s.sup.gpr := by
  cases b <;> rfl
@[simp] theorem State.setPc_usrset_gpr (s : State) (b : Bank) (v : Word) :
    (s.setPc b v).usr.gpr = s.usr.gpr := by
  cases b <;> rfl
@[simp] theorem State.setPc_regs_pc_same (s : State) (b : Bank) (v : Word) :
    ((s.setPc b v).regs b).pc = v := by
  cases b <;> rfl
@[simp] theorem State.setPc_sup_pc (s : State) (v : Word) : (s.setPc .sup v).sup.pc = v := rfl
@[simp] theorem State.setPc_usr_pc (s : State) (v : Word) : (s.setPc .usr v).usr.pc = v := rfl
@[simp] theorem State.setPc_regs_flags (s : State) (b : Bank) (v : Word) (b' : Bank) :
    ((s.setPc b v).regs b').flags = (s.regs b').flags := by
  cases b <;> cases b' <;> rfl
@[simp] theorem State.setPc_supset_flags (s : State) (b : Bank) (v : Word) :
    (s.setPc b v).sup.flags = s.sup.flags := by
  cases b <;> rfl
@[simp] theorem State.setPc_usrset_flags (s : State) (b : Bank) (v : Word) :
    (s.setPc b v).usr.flags = s.usr.flags := by
  cases b <;> rfl
@[simp] theorem State.setPc_regs_up (s : State) (b : Bank) (v : Word) (b' : Bank) :
    ((s.setPc b v).regs b').up = (s.regs b').up := by
  cases b <;> cases b' <;> rfl
@[simp] theorem State.setPc_supset_up (s : State) (b : Bank) (v : Word) :
    (s.setPc b v).sup.up = s.sup.up := by
  cases b <;> rfl
@[simp] theorem State.setPc_usrset_up (s : State) (b : Bank) (v : Word) :
    (s.setPc b v).usr.up = s.usr.up := by
  cases b <;> rfl

/-! ### setFlagsOf -/

@[simp] theorem State.setFlagsOf_cfg (s : State) (b : Bank) (f : Flags) :
    (s.setFlagsOf b f).cfg = s.cfg := rfl
@[simp] theorem State.setFlagsOf_cc (s : State) (b : Bank) (f : Flags) :
    (s.setFlagsOf b f).cc = s.cc := rfl
@[simp] theorem State.setFlagsOf_icache (s : State) (b : Bank) (f : Flags) :
    (s.setFlagsOf b f).icache = s.icache := rfl
@[simp] theorem State.setFlagsOf_lock (s : State) (b : Bank) (f : Flags) :
    (s.setFlagsOf b f).lock = s.lock := rfl
@[simp] theorem State.setFlagsOf_halted (s : State) (b : Bank) (f : Flags) :
    (s.setFlagsOf b f).halted = s.halted := rfl
@[simp] theorem State.setFlagsOf_phase (s : State) (b : Bank) (f : Flags) :
    (s.setFlagsOf b f).phase = s.phase := rfl
@[simp] theorem State.setFlagsOf_mem (s : State) (b : Bank) (f : Flags) :
    (s.setFlagsOf b f).mem = s.mem := rfl
@[simp] theorem State.setFlagsOf_inputs (s : State) (b : Bank) (f : Flags) :
    (s.setFlagsOf b f).inputs = s.inputs := rfl
@[simp] theorem State.setFlagsOf_fresh (s : State) (b : Bank) (f : Flags) :
    (s.setFlagsOf b f).fresh = s.fresh := rfl
@[simp] theorem State.setFlagsOf_bank (s : State) (b : Bank) (f : Flags) :
    (s.setFlagsOf b f).bank = s.bank := rfl
@[simp] theorem State.setFlagsOf_sup_usr (s : State) (f : Flags) :
    (s.setFlagsOf .sup f).usr = s.usr := rfl
@[simp] theorem State.setFlagsOf_usr_sup (s : State) (f : Flags) :
    (s.setFlagsOf .usr f).sup = s.sup := rfl
@[simp] theorem State.setFlagsOf_regs_other (s : State) (b : Bank) (f : Flags) :
    (s.setFlagsOf b f).regs b.other = s.regs b.other := by
  cases b <;> rfl
theorem State.setFlagsOf_regs_same (s : State) (b : Bank) (f : Flags) :
    (s.setFlagsOf b f).regs b = { s.regs b with flags := f } := by
  cases b <;> rfl
@[simp] theorem State.setFlagsOf_regs_gpr (s : State) (b : Bank) (f : Flags) (b' : Bank) :
    ((s.setFlagsOf b f).regs b').gpr = (s.regs b').gpr := by
  cases b <;> cases b' <;> rfl
@[simp] theorem State.setFlagsOf_supset_gpr (s : State) (b : Bank) (f : Flags) :
    (s.setFlagsOf b f).sup.gpr = s.sup.gpr := by
  cases b <;> rfl
@[simp] theorem State.setFlagsOf_usrset_gpr (s : State) (b : Bank) (f : Flags) :
    (s.setFlagsOf b f).usr.gpr = s.usr.gpr := by
  cases b <;> rfl
@[simp] theorem State.setFlagsOf_regs_pc (s : State) (b : Bank) (f : Flags) (b' : Bank) :
    ((s.setFlagsOf b f).regs b').pc = (s.regs b').pc := by
  cases b <;> cases b' <;> rfl
@[simp] theorem State.setFlagsOf_supset_pc (s : State) (b : Bank) (f : Flags) :
    (s.setFlagsOf b f).sup.pc = s.sup.pc := by
  cases b <;> rfl
@[simp] theorem State.setFlagsOf_usrset_pc (s : State) (b : Bank) (f : Flags) :
    (s.setFlagsOf b f).usr.pc = s.usr.pc := by
  cases b <;> rfl
@[simp] theorem State.setFlagsOf_regs_flags_same (s : State) (b : Bank) (f : Flags) :
    ((s.setFlagsOf b f).regs b).flags = f := by
  cases b <;> rfl
@[simp] theorem State.setFlagsOf_sup_flags (s : State) (f : Flags) :
    (s.setFlagsOf .sup f).sup.flags = f := rfl
@[simp] theorem State.setFlagsOf_usr_flags (s : State) (f : Flags) :
    (s.setFlagsOf .usr f).usr.flags = f := rfl
@[simp] theorem State.setFlagsOf_regs_up (s : State) (b : Bank) (f : Flags) (b' : Bank) :
    ((s.setFlagsOf b f).regs b').up = (s.regs b').up := by
  cases b <;> cases b' <;> rfl
@[simp] theorem State.setFlagsOf_supset_up (s : State) (b : Bank) (f : Flags) :
    (s.setFlagsOf b f).sup.up = s.sup.up := by
  cases b <;> rfl
@[simp] theorem State.setFlagsOf_usrset_up (s : State) (b : Bank) (f : Flags) :
    (s.setFlagsOf b f).usr.up = s.usr.up := by
  cases b <;> rfl
@[simp] theorem State.setFlagsOf_pc (s : State) (b : Bank) (f : Flags) :
    (s.setFlagsOf b f).pc = s.pc := by
  simp [State.pc]

/-! ### setUp -/

@[simp] theorem State.setUp_cfg (s : State) (b : Bank) (u : BitVec 17) :
    (s.setUp b u).cfg = s.cfg := rfl
@[simp] theorem State.setUp_cc (s : State) (b : Bank) (u : BitVec 17) :
    (s.setUp b u).cc = s.cc := rfl
@[simp] theorem State.setUp_icache (s : State) (b : Bank) (u : BitVec 17) :
    (s.setUp b u).icache = s.icache := rfl
@[simp] theorem State.setUp_lock (s : State) (b : Bank) (u : BitVec 17) :
    (s.setUp b u).lock = s.lock := rfl
@[simp] theorem State.setUp_halted (s : State) (b : Bank) (u : BitVec 17) :
    (s.setUp b u).halted = s.halted := rfl
@[simp] theorem State.setUp_phase (s : State) (b : Bank) (u : BitVec 17) :
    (s.setUp b u).phase = s.phase := rfl
@[simp] theorem State.setUp_mem (s : State) (b : Bank) (u : BitVec 17) :
    (s.setUp b u).mem = s.mem := rfl
@[simp] theorem State.setUp_inputs (s : State) (b : Bank) (u : BitVec 17) :
    (s.setUp b u).inputs = s.inputs := rfl
@[simp] theorem State.setUp_fresh (s : State) (b : Bank) (u : BitVec 17) :
    (s.setUp b u).fresh = s.fresh := rfl
@[simp] theorem State.setUp_bank (s : State) (b : Bank) (u : BitVec 17) :
    (s.setUp b u).bank = s.bank := rfl
@[simp] theorem State.setUp_sup_usr (s : State) (u : BitVec 17) :
    (s.setUp .sup u).usr = s.usr := rfl
@[simp] theorem State.setUp_usr_sup (s : State) (u : BitVec 17) :
    (s.setUp .usr u).sup = s.sup := rfl
@[simp] theorem State.setUp_regs_other (s : State) (b : Bank) (u : BitVec 17) :
    (s.setUp b u).regs b.other = s.regs b.other := by
  cases b <;> rfl
theorem State.setUp_regs_same (s : State) (b : Bank) (u : BitVec 17) :
    (s.setUp b u).regs b = { s.regs b with up := u } := by
  cases b <;> rfl
@[simp] theorem State.setUp_regs_gpr (s : State) (b : Bank) (u : BitVec 17) (b' : Bank) :
    ((s.setUp b u).regs b').gpr = (s.regs b').gpr := by
  cases b <;> cases b' <;> rfl
@[simp] theorem State.setUp_supset_gpr (s : State) (b : Bank) (u : BitVec 17) :
    (s.setUp b u).sup.gpr = s.sup.gpr := by
  cases b <;> rfl
@[simp] theorem State.setUp_usrset_gpr (s : State) (b : Bank) (u : BitVec 17) :
    (s.setUp b u).usr.gpr = s.usr.gpr := by
  cases b <;> rfl
@[simp] theorem State.setUp_regs_pc (s : State) (b : Bank) (u : BitVec 17) (b' : Bank) :
    ((s.setUp b u).regs b').pc = (s.regs b').pc := by
  cases b <;> cases b' <;> rfl
@[simp] theorem State.setUp_supset_pc (s : State) (b : Bank) (u : BitVec 17) :
    (s.setUp b u).sup.pc = s.sup.pc := by
  cases b <;> rfl
@[simp] theorem State.setUp_usrset_pc (s : State) (b : Bank) (u : BitVec 17) :
    (s.setUp b u).usr.pc = s.usr.pc := by
  cases b <;> rfl
@[simp] theorem State.setUp_regs_flags (s : State) (b : Bank) (u : BitVec 17) (b' : Bank) :
    ((s.setUp b u).regs b').flags = (s.regs b').flags := by
  cases b <;> cases b' <;> rfl
@[simp] theorem State.setUp_supset_flags (s : State) (b : Bank) (u : BitVec 17) :
    (s.setUp b u).sup.flags = s.sup.flags := by
  cases b <;> rfl
@[simp] theorem State.setUp_usrset_flags (s : State) (b : Bank) (u : BitVec 17) :
    (s.setUp b u).usr.flags = s.usr.flags := by
  cases b <;> rfl
@[simp] theorem State.setUp_regs_up_same (s : State) (b : Bank) (u : BitVec 17) :
    ((s.setUp b u).regs b).up = u := by
  cases b <;> rfl
@[simp] theorem State.setUp_sup_up (s : State) (u : BitVec 17) : (s.setUp .sup u).sup.up = u := rfl
@[simp] theorem State.setUp_usr_up (s : State) (u : BitVec 17) : (s.setUp .usr u).usr.up = u := rfl
@[simp] theorem State.setUp_pc (s : State) (b : Bank) (u : BitVec 17) :
    (s.setUp b u).pc = s.pc := by
  simp [State.pc]
@[simp] theorem State.setPc_setPc (s : State) (b : Bank) (v w : Word) :
    (s.setPc b v).setPc b w = s.setPc b w := by
  cases b <;> rfl
/-- One general register after a write of one. -/
theorem State.setGpr_get (s : State) (b b' : Bank) (i j : Fin 14) (v : Word) :
    ((s.setGpr b i v).regs b').gpr[j] = if b' = b ∧ j = i then v else (s.regs b').gpr[j] := by
  rcases Bank.eq_or_eq_other b b' with rfl | rfl
  · simp only [setGpr_regs_gpr_same, true_and]
    by_cases h : j = i
    · subst h; simp
    · have : (i : Nat) ≠ j := fun e => h (Fin.ext e.symm)
      simp [h, Vector.getElem_set_ne, this]
  · simp

/-! ### draw -/

@[simp] theorem State.draw_cfg (s : State) : (s.draw).cfg = s.cfg := rfl
@[simp] theorem State.draw_sup (s : State) : (s.draw).sup = s.sup := rfl
@[simp] theorem State.draw_usr (s : State) : (s.draw).usr = s.usr := rfl
@[simp] theorem State.draw_cc (s : State) : (s.draw).cc = s.cc := rfl
@[simp] theorem State.draw_icache (s : State) : (s.draw).icache = s.icache := rfl
@[simp] theorem State.draw_lock (s : State) : (s.draw).lock = s.lock := rfl
@[simp] theorem State.draw_halted (s : State) : (s.draw).halted = s.halted := rfl
@[simp] theorem State.draw_phase (s : State) : (s.draw).phase = s.phase := rfl
@[simp] theorem State.draw_mem (s : State) : (s.draw).mem = s.mem := rfl
@[simp] theorem State.draw_inputs (s : State) : (s.draw).inputs = s.inputs := rfl
@[simp] theorem State.draw_fresh (s : State) : (s.draw).fresh = s.fresh + 1 := rfl
@[simp] theorem State.draw_bank (s : State) : s.draw.bank = s.bank := rfl
@[simp] theorem State.draw_pc (s : State) : s.draw.pc = s.pc := rfl
@[simp] theorem State.draw_regs (s : State) (b : Bank) : s.draw.regs b = s.regs b := rfl

/-! ### drawIf -/

@[simp] theorem State.drawIf_cfg (s : State) (m : Bool) :
    (s.drawIf m).cfg = s.cfg := by
  cases m <;> rfl
@[simp] theorem State.drawIf_sup (s : State) (m : Bool) :
    (s.drawIf m).sup = s.sup := by
  cases m <;> rfl
@[simp] theorem State.drawIf_usr (s : State) (m : Bool) :
    (s.drawIf m).usr = s.usr := by
  cases m <;> rfl
@[simp] theorem State.drawIf_cc (s : State) (m : Bool) :
    (s.drawIf m).cc = s.cc := by
  cases m <;> rfl
@[simp] theorem State.drawIf_icache (s : State) (m : Bool) :
    (s.drawIf m).icache = s.icache := by
  cases m <;> rfl
@[simp] theorem State.drawIf_lock (s : State) (m : Bool) :
    (s.drawIf m).lock = s.lock := by
  cases m <;> rfl
@[simp] theorem State.drawIf_halted (s : State) (m : Bool) :
    (s.drawIf m).halted = s.halted := by
  cases m <;> rfl
@[simp] theorem State.drawIf_phase (s : State) (m : Bool) :
    (s.drawIf m).phase = s.phase := by
  cases m <;> rfl
@[simp] theorem State.drawIf_mem (s : State) (m : Bool) :
    (s.drawIf m).mem = s.mem := by
  cases m <;> rfl
@[simp] theorem State.drawIf_inputs (s : State) (m : Bool) :
    (s.drawIf m).inputs = s.inputs := by
  cases m <;> rfl
@[simp] theorem State.drawIf_fresh (s : State) (m : Bool) :
    (s.drawIf m).fresh = if m then s.fresh + 1 else s.fresh := by
  cases m <;> rfl
@[simp] theorem State.drawIf_bank (s : State) (m : Bool) :
    (s.drawIf m).bank = s.bank := by
  cases m <;> rfl
@[simp] theorem State.drawIf_pc (s : State) (m : Bool) :
    (s.drawIf m).pc = s.pc := by
  cases m <;> rfl
@[simp] theorem State.drawIf_regs (s : State) (m : Bool) (b : Bank) :
    (s.drawIf m).regs b = s.regs b := by
  cases m <;> rfl

/-! ### clearICache -/

@[simp] theorem State.clearICache_cfg (s : State) : (s.clearICache).cfg = s.cfg := rfl
@[simp] theorem State.clearICache_sup (s : State) : (s.clearICache).sup = s.sup := rfl
@[simp] theorem State.clearICache_usr (s : State) : (s.clearICache).usr = s.usr := rfl
@[simp] theorem State.clearICache_cc (s : State) : (s.clearICache).cc = s.cc := rfl
@[simp] theorem State.clearICache_icache (s : State) : (s.clearICache).icache = [] := rfl
@[simp] theorem State.clearICache_lock (s : State) : (s.clearICache).lock = s.lock := rfl
@[simp] theorem State.clearICache_halted (s : State) : (s.clearICache).halted = s.halted := rfl
@[simp] theorem State.clearICache_phase (s : State) : (s.clearICache).phase = s.phase := rfl
@[simp] theorem State.clearICache_mem (s : State) : (s.clearICache).mem = s.mem := rfl
@[simp] theorem State.clearICache_inputs (s : State) : (s.clearICache).inputs = s.inputs := rfl
@[simp] theorem State.clearICache_fresh (s : State) : (s.clearICache).fresh = s.fresh := rfl

/-! ### halt -/

@[simp] theorem State.halt_cfg (s : State) : (s.halt).cfg = s.cfg := rfl
@[simp] theorem State.halt_sup (s : State) : (s.halt).sup = s.sup := rfl
@[simp] theorem State.halt_usr (s : State) : (s.halt).usr = s.usr := rfl
@[simp] theorem State.halt_cc (s : State) : (s.halt).cc = s.cc := rfl
@[simp] theorem State.halt_icache (s : State) : (s.halt).icache = s.icache := rfl
@[simp] theorem State.halt_lock (s : State) : (s.halt).lock = s.lock := rfl
@[simp] theorem State.halt_halted (s : State) : (s.halt).halted = true := rfl
@[simp] theorem State.halt_phase (s : State) : (s.halt).phase = s.phase := rfl
@[simp] theorem State.halt_mem (s : State) : (s.halt).mem = s.mem := rfl
@[simp] theorem State.halt_inputs (s : State) : (s.halt).inputs = s.inputs := rfl
@[simp] theorem State.halt_fresh (s : State) : (s.halt).fresh = s.fresh := rfl
@[simp] theorem State.halt_bank (s : State) : s.halt.bank = s.bank := rfl

/-! ### tick -/

@[simp] theorem State.tick_cfg (s : State) : (s.tick).cfg = s.cfg := rfl
@[simp] theorem State.tick_sup (s : State) : (s.tick).sup = s.sup := rfl
@[simp] theorem State.tick_usr (s : State) : (s.tick).usr = s.usr := rfl
@[simp] theorem State.tick_cc (s : State) : (s.tick).cc = s.cc := rfl
@[simp] theorem State.tick_icache (s : State) : (s.tick).icache = s.icache := rfl
@[simp] theorem State.tick_lock (s : State) : (s.tick).lock = s.lock := rfl
@[simp] theorem State.tick_halted (s : State) : (s.tick).halted = s.halted := rfl
@[simp] theorem State.tick_phase (s : State) : (s.tick).phase = s.phase := rfl
@[simp] theorem State.tick_mem (s : State) : (s.tick).mem = s.mem := rfl
@[simp] theorem State.tick_inputs (s : State) : (s.tick).inputs = s.inputs.tail := rfl
@[simp] theorem State.tick_fresh (s : State) : (s.tick).fresh = s.fresh := rfl
@[simp] theorem State.tick_bank (s : State) : s.tick.bank = s.bank := rfl
@[simp] theorem State.tick_pc (s : State) : s.tick.pc = s.pc := rfl
@[simp] theorem State.tick_regs (s : State) (b : Bank) : s.tick.regs b = s.regs b := rfl

/-! ### beginWord -/

@[simp] theorem State.beginWord_cfg (s : State) (i : Instr) : (s.beginWord i).cfg = s.cfg := rfl
@[simp] theorem State.beginWord_sup (s : State) (i : Instr) : (s.beginWord i).sup = s.sup := rfl
@[simp] theorem State.beginWord_usr (s : State) (i : Instr) : (s.beginWord i).usr = s.usr := rfl
@[simp] theorem State.beginWord_cc (s : State) (i : Instr) : (s.beginWord i).cc = s.cc := rfl
@[simp] theorem State.beginWord_icache (s : State) (i : Instr) :
    (s.beginWord i).icache = s.icache := rfl
@[simp] theorem State.beginWord_lock (s : State) (i : Instr) :
    (s.beginWord i).lock = (lockClasses s i).foldl LockState.after s.lock := rfl
@[simp] theorem State.beginWord_halted (s : State) (i : Instr) :
    (s.beginWord i).halted = s.halted := rfl
@[simp] theorem State.beginWord_phase (s : State) (i : Instr) :
    (s.beginWord i).phase = s.phase := rfl
@[simp] theorem State.beginWord_mem (s : State) (i : Instr) : (s.beginWord i).mem = s.mem := rfl
@[simp] theorem State.beginWord_inputs (s : State) (i : Instr) :
    (s.beginWord i).inputs = s.inputs := rfl
@[simp] theorem State.beginWord_fresh (s : State) (i : Instr) :
    (s.beginWord i).fresh = s.fresh := rfl
@[simp] theorem State.beginWord_bank (s : State) (i : Instr) : (s.beginWord i).bank = s.bank := rfl
@[simp] theorem State.beginWord_pc (s : State) (i : Instr) : (s.beginWord i).pc = s.pc := rfl
@[simp] theorem State.beginWord_regs (s : State) (i : Instr) (b : Bank) :
    (s.beginWord i).regs b = s.regs b := rfl

/-! ### trapToSupervisor -/

@[simp] theorem State.trapToSupervisor_cfg (s : State) : (s.trapToSupervisor).cfg = s.cfg := rfl
@[simp] theorem State.trapToSupervisor_sup (s : State) : (s.trapToSupervisor).sup = s.sup := rfl
@[simp] theorem State.trapToSupervisor_usr (s : State) : (s.trapToSupervisor).usr = s.usr := rfl
@[simp] theorem State.trapToSupervisor_cc (s : State) :
    (s.trapToSupervisor).cc = { s.cc with gie := false, sleep := false, step := false } := rfl
@[simp] theorem State.trapToSupervisor_icache (s : State) :
    (s.trapToSupervisor).icache = s.icache := rfl
@[simp] theorem State.trapToSupervisor_lock (s : State) : (s.trapToSupervisor).lock = .off := rfl
@[simp] theorem State.trapToSupervisor_halted (s : State) :
    (s.trapToSupervisor).halted = s.halted := rfl
@[simp] theorem State.trapToSupervisor_phase (s : State) :
    (s.trapToSupervisor).phase = s.phase := rfl
@[simp] theorem State.trapToSupervisor_mem (s : State) : (s.trapToSupervisor).mem = s.mem := rfl
@[simp] theorem State.trapToSupervisor_inputs (s : State) :
    (s.trapToSupervisor).inputs = s.inputs := rfl
@[simp] theorem State.trapToSupervisor_fresh (s : State) :
    (s.trapToSupervisor).fresh = s.fresh := rfl
@[simp] theorem State.trapToSupervisor_regs (s : State) (b : Bank) :
    s.trapToSupervisor.regs b = s.regs b := rfl

/-! ### returnToUser -/

@[simp] theorem State.returnToUser_cfg (s : State) : (s.returnToUser).cfg = s.cfg := rfl
@[simp] theorem State.returnToUser_sup (s : State) : (s.returnToUser).sup = s.sup := rfl
@[simp] theorem State.returnToUser_usr (s : State) : (s.returnToUser).usr = s.usr := rfl
@[simp] theorem State.returnToUser_icache (s : State) : (s.returnToUser).icache = s.icache := rfl
@[simp] theorem State.returnToUser_lock (s : State) : (s.returnToUser).lock = .off := rfl
@[simp] theorem State.returnToUser_halted (s : State) : (s.returnToUser).halted = s.halted := rfl
@[simp] theorem State.returnToUser_phase (s : State) : (s.returnToUser).phase = s.phase := rfl
@[simp] theorem State.returnToUser_mem (s : State) : (s.returnToUser).mem = s.mem := rfl
@[simp] theorem State.returnToUser_inputs (s : State) : (s.returnToUser).inputs = s.inputs := rfl
@[simp] theorem State.returnToUser_fresh (s : State) : (s.returnToUser).fresh = s.fresh := rfl
@[simp] theorem State.returnToUser_gie (s : State) : s.returnToUser.cc.gie = true := rfl
@[simp] theorem State.returnToUser_sleep (s : State) : s.returnToUser.cc.sleep = s.cc.sleep := rfl
@[simp] theorem State.returnToUser_step (s : State) : s.returnToUser.cc.step = s.cc.step := rfl
@[simp] theorem State.returnToUser_breakEn (s : State) :
    s.returnToUser.cc.breakEn = s.cc.breakEn := rfl
@[simp] theorem State.returnToUser_userCauses (s : State) :
    s.returnToUser.cc.userCauses = [false, false, false, false, false, false] := rfl
@[simp] theorem State.returnToUser_vph (s : State) : s.returnToUser.cc.vph = false := rfl
@[simp] theorem State.returnToUser_regs (s : State) (b : Bank) :
    s.returnToUser.regs b = s.regs b := rfl

/-! ### storeWord -/

@[simp] theorem State.storeWord_cfg (s : State) (a : Nat) (v : Word) :
    (s.storeWord a v).cfg = s.cfg := rfl
@[simp] theorem State.storeWord_sup (s : State) (a : Nat) (v : Word) :
    (s.storeWord a v).sup = s.sup := rfl
@[simp] theorem State.storeWord_usr (s : State) (a : Nat) (v : Word) :
    (s.storeWord a v).usr = s.usr := rfl
@[simp] theorem State.storeWord_cc (s : State) (a : Nat) (v : Word) :
    (s.storeWord a v).cc = s.cc := rfl
@[simp] theorem State.storeWord_lock (s : State) (a : Nat) (v : Word) :
    (s.storeWord a v).lock = s.lock := rfl
@[simp] theorem State.storeWord_halted (s : State) (a : Nat) (v : Word) :
    (s.storeWord a v).halted = s.halted := rfl
@[simp] theorem State.storeWord_phase (s : State) (a : Nat) (v : Word) :
    (s.storeWord a v).phase = s.phase := rfl
@[simp] theorem State.storeWord_mem (s : State) (a : Nat) (v : Word) :
    (s.storeWord a v).mem = s.mem.writeWord a v := rfl
@[simp] theorem State.storeWord_inputs (s : State) (a : Nat) (v : Word) :
    (s.storeWord a v).inputs = s.inputs := rfl
@[simp] theorem State.storeWord_fresh (s : State) (a : Nat) (v : Word) :
    (s.storeWord a v).fresh = s.fresh := rfl
@[simp] theorem State.storeWord_bank (s : State) (a : Nat) (v : Word) :
    (s.storeWord a v).bank = s.bank := rfl
@[simp] theorem State.storeWord_pc (s : State) (a : Nat) (v : Word) :
    (s.storeWord a v).pc = s.pc := rfl
@[simp] theorem State.storeWord_regs (s : State) (a : Nat) (v : Word) (b : Bank) :
    (s.storeWord a v).regs b = s.regs b := rfl

/-! ### setFlags, setFlagsGated, storeCcPlain -/

@[simp] theorem State.setFlags_cfg (s : State) (f : FlagResult) :
    (s.setFlags f).cfg = s.cfg := by
  simp [State.setFlags]
@[simp] theorem State.setFlags_cc (s : State) (f : FlagResult) :
    (s.setFlags f).cc = s.cc := by
  simp [State.setFlags]
@[simp] theorem State.setFlags_icache (s : State) (f : FlagResult) :
    (s.setFlags f).icache = s.icache := by
  simp [State.setFlags]
@[simp] theorem State.setFlags_lock (s : State) (f : FlagResult) :
    (s.setFlags f).lock = s.lock := by
  simp [State.setFlags]
@[simp] theorem State.setFlags_halted (s : State) (f : FlagResult) :
    (s.setFlags f).halted = s.halted := by
  simp [State.setFlags]
@[simp] theorem State.setFlags_phase (s : State) (f : FlagResult) :
    (s.setFlags f).phase = s.phase := by
  simp [State.setFlags]
@[simp] theorem State.setFlags_mem (s : State) (f : FlagResult) :
    (s.setFlags f).mem = s.mem := by
  simp [State.setFlags]
@[simp] theorem State.setFlags_inputs (s : State) (f : FlagResult) :
    (s.setFlags f).inputs = s.inputs := by
  simp [State.setFlags]
@[simp] theorem State.setFlags_bank (s : State) (f : FlagResult) :
    (s.setFlags f).bank = s.bank := by
  simp [State.setFlags]
@[simp] theorem State.setFlags_pc (s : State) (f : FlagResult) :
    (s.setFlags f).pc = s.pc := by
  simp [State.setFlags]
@[simp] theorem State.setFlags_regs_gpr (s : State) (f : FlagResult) (b' : Bank) :
    ((s.setFlags f).regs b').gpr = (s.regs b').gpr := by
  simp [State.setFlags]
@[simp] theorem State.setFlags_regs_pc (s : State) (f : FlagResult) (b' : Bank) :
    ((s.setFlags f).regs b').pc = (s.regs b').pc := by
  simp [State.setFlags]
@[simp] theorem State.setFlags_regs_up (s : State) (f : FlagResult) (b' : Bank) :
    ((s.setFlags f).regs b').up = (s.regs b').up := by
  simp [State.setFlags]
@[simp] theorem State.setFlags_regs_other (s : State) (f : FlagResult) :
    (s.setFlags f).regs s.bank.other = s.regs s.bank.other := by
  simp [State.setFlags]
@[simp] theorem State.setFlagsGated_cfg (s : State) (cnd : Cond) (dr : Reg) (f : FlagResult) :
    (s.setFlagsGated cnd dr f).cfg = s.cfg := by
  unfold State.setFlagsGated; split <;> simp
@[simp] theorem State.setFlagsGated_cc (s : State) (cnd : Cond) (dr : Reg) (f : FlagResult) :
    (s.setFlagsGated cnd dr f).cc = s.cc := by
  unfold State.setFlagsGated; split <;> simp
@[simp] theorem State.setFlagsGated_icache (s : State) (cnd : Cond) (dr : Reg) (f : FlagResult) :
    (s.setFlagsGated cnd dr f).icache = s.icache := by
  unfold State.setFlagsGated; split <;> simp
@[simp] theorem State.setFlagsGated_lock (s : State) (cnd : Cond) (dr : Reg) (f : FlagResult) :
    (s.setFlagsGated cnd dr f).lock = s.lock := by
  unfold State.setFlagsGated; split <;> simp
@[simp] theorem State.setFlagsGated_halted (s : State) (cnd : Cond) (dr : Reg) (f : FlagResult) :
    (s.setFlagsGated cnd dr f).halted = s.halted := by
  unfold State.setFlagsGated; split <;> simp
@[simp] theorem State.setFlagsGated_phase (s : State) (cnd : Cond) (dr : Reg) (f : FlagResult) :
    (s.setFlagsGated cnd dr f).phase = s.phase := by
  unfold State.setFlagsGated; split <;> simp
@[simp] theorem State.setFlagsGated_mem (s : State) (cnd : Cond) (dr : Reg) (f : FlagResult) :
    (s.setFlagsGated cnd dr f).mem = s.mem := by
  unfold State.setFlagsGated; split <;> simp
@[simp] theorem State.setFlagsGated_inputs (s : State) (cnd : Cond) (dr : Reg) (f : FlagResult) :
    (s.setFlagsGated cnd dr f).inputs = s.inputs := by
  unfold State.setFlagsGated; split <;> simp
@[simp] theorem State.setFlagsGated_bank (s : State) (cnd : Cond) (dr : Reg) (f : FlagResult) :
    (s.setFlagsGated cnd dr f).bank = s.bank := by
  unfold State.setFlagsGated; split <;> simp
@[simp] theorem State.setFlagsGated_pc (s : State) (cnd : Cond) (dr : Reg) (f : FlagResult) :
    (s.setFlagsGated cnd dr f).pc = s.pc := by
  unfold State.setFlagsGated; split <;> simp
@[simp] theorem State.setFlagsGated_regs_gpr (s : State) (cnd : Cond) (dr : Reg) (f : FlagResult) (b' : Bank) :
    ((s.setFlagsGated cnd dr f).regs b').gpr = (s.regs b').gpr := by
  unfold State.setFlagsGated; split <;> simp
@[simp] theorem State.setFlagsGated_regs_pc (s : State) (cnd : Cond) (dr : Reg) (f : FlagResult) (b' : Bank) :
    ((s.setFlagsGated cnd dr f).regs b').pc = (s.regs b').pc := by
  unfold State.setFlagsGated; split <;> simp
@[simp] theorem State.setFlagsGated_regs_up (s : State) (cnd : Cond) (dr : Reg) (f : FlagResult) (b' : Bank) :
    ((s.setFlagsGated cnd dr f).regs b').up = (s.regs b').up := by
  unfold State.setFlagsGated; split <;> simp
@[simp] theorem State.setFlagsGated_regs_other (s : State) (cnd : Cond) (dr : Reg) (f : FlagResult) :
    (s.setFlagsGated cnd dr f).regs s.bank.other = s.regs s.bank.other := by
  unfold State.setFlagsGated; split <;> simp
@[simp] theorem State.storeCcPlain_cfg (s : State) (b : Bank) (v : Word) :
    (s.storeCcPlain b v).cfg = s.cfg := by
  simp [State.storeCcPlain]
@[simp] theorem State.storeCcPlain_cc (s : State) (b : Bank) (v : Word) :
    (s.storeCcPlain b v).cc = s.cc := by
  simp [State.storeCcPlain]
@[simp] theorem State.storeCcPlain_icache (s : State) (b : Bank) (v : Word) :
    (s.storeCcPlain b v).icache = s.icache := by
  simp [State.storeCcPlain]
@[simp] theorem State.storeCcPlain_lock (s : State) (b : Bank) (v : Word) :
    (s.storeCcPlain b v).lock = s.lock := by
  simp [State.storeCcPlain]
@[simp] theorem State.storeCcPlain_halted (s : State) (b : Bank) (v : Word) :
    (s.storeCcPlain b v).halted = s.halted := by
  simp [State.storeCcPlain]
@[simp] theorem State.storeCcPlain_phase (s : State) (b : Bank) (v : Word) :
    (s.storeCcPlain b v).phase = s.phase := by
  simp [State.storeCcPlain]
@[simp] theorem State.storeCcPlain_mem (s : State) (b : Bank) (v : Word) :
    (s.storeCcPlain b v).mem = s.mem := by
  simp [State.storeCcPlain]
@[simp] theorem State.storeCcPlain_inputs (s : State) (b : Bank) (v : Word) :
    (s.storeCcPlain b v).inputs = s.inputs := by
  simp [State.storeCcPlain]
@[simp] theorem State.storeCcPlain_bank (s : State) (b : Bank) (v : Word) :
    (s.storeCcPlain b v).bank = s.bank := by
  simp [State.storeCcPlain]
@[simp] theorem State.storeCcPlain_pc (s : State) (b : Bank) (v : Word) :
    (s.storeCcPlain b v).pc = s.pc := by
  simp [State.storeCcPlain]
@[simp] theorem State.storeCcPlain_regs_gpr (s : State) (b : Bank) (v : Word) (b' : Bank) :
    ((s.storeCcPlain b v).regs b').gpr = (s.regs b').gpr := by
  simp [State.storeCcPlain]
@[simp] theorem State.storeCcPlain_regs_pc (s : State) (b : Bank) (v : Word) (b' : Bank) :
    ((s.storeCcPlain b v).regs b').pc = (s.regs b').pc := by
  simp [State.storeCcPlain]
@[simp] theorem State.storeCcPlain_regs_other (s : State) (b : Bank) (v : Word) :
    (s.storeCcPlain b v).regs b.other = s.regs b.other := by
  simp [State.storeCcPlain]
@[simp] theorem State.storeCcPlain_regs_flags (s : State) (b : Bank) (v : Word) :
    ((s.storeCcPlain b v).regs b).flags = Flags.ofCc v := by
  simp [State.storeCcPlain]
@[simp] theorem State.storeCcPlain_regs_up (s : State) (b : Bank) (v : Word) :
    ((s.storeCcPlain b v).regs b).up = v.extractLsb' 15 17 := by
  simp [State.storeCcPlain]
@[simp] theorem State.storeCcPlain_fresh (s : State) (b : Bank) (v : Word) :
    (s.storeCcPlain b v).fresh = s.fresh := by
  simp [State.storeCcPlain]
@[simp] theorem State.storeCcPlain_sup_usr (s : State) (v : Word) :
    (s.storeCcPlain .sup v).usr = s.usr := rfl
@[simp] theorem State.storeCcPlain_usr_sup (s : State) (v : Word) :
    (s.storeCcPlain .usr v).sup = s.sup := rfl

/-- Reading a register depends on the register sets, the status bits and nothing else. -/
theorem State.readReg_congr {s t : State} (hs : t.sup = s.sup) (hu : t.usr = s.usr)
    (hc : t.cc = s.cc) (r : Reg) : t.readReg r = s.readReg r := by
  cases r <;>
    simp [State.readReg, State.readCc, State.readCcSup, State.readCcUsr, State.pc, State.bank,
      State.regs, hs, hu, hc]

/-- Operand B depends on the register sets, the status bits and nothing else. -/
theorem State.opB_congr {s t : State} (hs : t.sup = s.sup) (hu : t.usr = s.usr)
    (hc : t.cc = s.cc) (b : OpB) : t.opB b = s.opB b := by
  cases b with
  | imm i => rfl
  | reg r off => simp [State.opB, State.readReg_congr hs hu hc]

/-- A condition depends on the register sets, the status bits and nothing else. -/
theorem State.condHolds_congr {s t : State} (hs : t.sup = s.sup) (hu : t.usr = s.usr)
    (hc : t.cc = s.cc) (cnd : Cond) : t.condHolds cnd = s.condHolds cnd := by
  simp [State.condHolds, State.bank, State.regs, hs, hu, hc]

@[simp] theorem State.drawIf_readReg (s : State) (m : Bool) (r : Reg) :
    (s.drawIf m).readReg r = s.readReg r := State.readReg_congr (by simp) (by simp) (by simp) r
@[simp] theorem State.drawIf_opB (s : State) (m : Bool) (b : OpB) : (s.drawIf m).opB b = s.opB b :=
  State.opB_congr (by simp) (by simp) (by simp) b
@[simp] theorem State.drawIf_condHolds (s : State) (m : Bool) (cnd : Cond) :
    (s.drawIf m).condHolds cnd = s.condHolds cnd :=
  State.condHolds_congr (by simp) (by simp) (by simp) cnd

end Sys2Proof.Machine
end

