-- ==== Sys2Proof/Laws/Ops.lean ====
section
/-! SUPPORT. What each shared operation does, said once: register writes, the templates of the
instructions, exception entries, the end of an instruction. -/

namespace Sys2Proof.Machine

/-! ### The end of an instruction -/

@[simp] theorem finish_done (s t : State) :
    s.finish (.done t) = .next (t.setPc s.bank (s.pc + 1#32)) := rfl
@[simp] theorem finish_jump (s t : State) (v : Word) :
    s.finish (.jump v t) = .next (t.setPc s.bank v) := rfl
@[simp] theorem finish_raised (s t : State) (x : Exc) :
    s.finish (.raised x t) = .next (t.takeException x) := rfl
@[simp] theorem finish_broke (s t : State) : s.finish (.broke t) = .next t.takeBreak := rfl
@[simp] theorem finish_refused (s : State) (r : Refusal) :
    s.finish (.refused r) = .refused r := rfl

/-- An instruction's end depends on the state it began in only by its active set and PC. -/
theorem finish_congr {s t : State} (hb : t.bank = s.bank) (hp : t.pc = s.pc) (e : Event) :
    t.finish e = s.finish e := by
  cases e <;> simp [State.finish, hb, hp]

@[simp] theorem mapNext_next (f : State → State) (t : State) :
    mapNext f (.next t) = .next (f t) := rfl
@[simp] theorem mapNext_refused (f : State → State) (r : Refusal) :
    mapNext f (.refused r) = .refused r := rfl
@[simp] theorem afterWordOutcome_next (u : Bool) (t : State) :
    afterWordOutcome u (.next t) = .next (t.afterWord u) := rfl
@[simp] theorem afterWordOutcome_refused (u : Bool) (r : Refusal) :
    afterWordOutcome u (.refused r) = .refused r := rfl
@[simp] theorem afterWord_false (t : State) : t.afterWord false = t := rfl

/-- What the end of a word does to a state: nothing, or the single-step entry. -/
theorem afterWord_cases (u : Bool) (t : State) :
    t.afterWord u = t ∨
      (u = true ∧ t.cc.gie = true ∧ t.cc.step = true ∧ t.halted = false ∧
        t.afterWord u = t.trapToSupervisor) := by
  unfold State.afterWord
  split
  · rename_i h
    simp only [Bool.and_eq_true, Bool.not_eq_true'] at h
    exact .inr ⟨h.1.1.1, h.1.1.2, h.1.2, h.2, rfl⟩
  · exact .inl rfl

/-- What a next state of a word is. -/
theorem afterWordOutcome_eq_next {u : Bool} {o : Host.Outcome State Fault Refusal} {t : State}
    (h : afterWordOutcome u o = .next t) : ∃ t', o = .next t' ∧ t = t'.afterWord u := by
  cases o with
  | next t' => exact ⟨t', rfl, by simpa using h.symm⟩
  | fault f => cases f
  | refused r => simp at h

/-! ### Writing a register of the active set -/

@[simp] theorem writeReg_gpr (s : State) (i : Fin 14) (v : Word) :
    s.writeReg (.gpr i) v = .done (s.setGpr s.bank i v) := rfl
@[simp] theorem writeReg_cc (s : State) (v : Word) :
    s.writeReg .cc v = .done (s.writeCc v) := rfl
@[simp] theorem writeReg_pc (s : State) (v : Word) : s.writeReg .pc v = .jump v s := rfl

@[simp] theorem readReg_gpr (s : State) (i : Fin 14) :
    s.readReg (.gpr i) = (s.regs s.bank).gpr[i] := rfl
@[simp] theorem readReg_cc (s : State) : s.readReg .cc = s.readCc := rfl
@[simp] theorem readReg_pc (s : State) : s.readReg .pc = s.pc + 1#32 := rfl

/-- The next state of an instruction that writes a general register is the state with that register
written and the PC advanced. -/
theorem onlyGpr_setGpr {s t : State} (i : Fin 14) (v : Word) (b : Bank)
    (hr : ∀ b', (∀ j : Fin 14, (t.regs b').gpr[j] = (s.regs b').gpr[j]) ∧
      (t.regs b').up = (s.regs b').up ∧ (t.regs b').pc = (s.regs b').pc)
    (hf : (t.regs s.bank.other).flags = (s.regs s.bank.other).flags) (hk : s.restKept t) :
    s.onlyGpr ((t.setGpr b i v).setPc s.bank (s.pc + 1#32)) b i v := by
  refine ⟨?_, ?_, ?_, ⟨?_, ?_⟩, ?_, ?_⟩
  · simp
  · intro b' j h
    simp only [State.setPc_regs_gpr, State.setGpr_get, if_neg h]
    exact (hr b').1 j
  · intro b'; simp [(hr b').2.1]
  · simp
  · simp [(hr s.bank.other).2.2]
  · simpa using hf
  · simpa [State.restKept] using hk

/-- A supervisor's write of register 14 does not look at the draw counter. -/
theorem writeCcSup_withFresh (s : State) (n : Nat) (v : Word) :
    ({ s with fresh := n } : State).writeCcSup v = { s.writeCcSup v with fresh := n } := by
  unfold State.writeCcSup
  cases v.getLsbD 14 <;> cases v.getLsbD 5 <;> cases v.getLsbD 4 <;> rfl

/-- A user program's write of register 14 does not look at the draw counter. -/
theorem writeCcUsr_withFresh (s : State) (n : Nat) (v : Word) :
    ({ s with fresh := n } : State).writeCcUsr v = { s.writeCcUsr v with fresh := n } := by
  unfold State.writeCcUsr
  cases v.getLsbD 5 <;> cases v.getLsbD 4 <;> rfl

/-- A write of register 14 does not look at the draw counter. -/
theorem writeCc_withFresh (s : State) (n : Nat) (v : Word) :
    ({ s with fresh := n } : State).writeCc v = { s.writeCc v with fresh := n } := by
  change s.bank.pick (({ s with fresh := n } : State).writeCcSup v)
    (({ s with fresh := n } : State).writeCcUsr v) = _
  rw [writeCcSup_withFresh, writeCcUsr_withFresh]
  unfold State.writeCc
  cases s.bank <;> rfl

@[simp] theorem writeCc_fresh (s : State) (v : Word) : (s.writeCc v).fresh = s.fresh := by
  have h := congrArg State.fresh (writeCc_withFresh s s.fresh v)
  exact h

/-- A draw of a free value commutes with a write of register 14. -/
theorem drawIf_writeCc (s : State) (m : Bool) (v : Word) :
    (s.drawIf m).writeCc v = { s.writeCc v with fresh := (s.drawIf m).fresh } := by
  cases m
  · exact writeCc_withFresh s s.fresh v
  · exact writeCc_withFresh s (s.fresh + 1) v

/-- An instruction that ends in a register write and changes nothing else but by a draw moves the
value into the register. -/
theorem moves_of_writeReg {i : Instr} {s : State} {dr : Reg} {r : Word} (m : Bool)
    (h : exec i s = s.finish ((s.drawIf m).writeReg dr r)) : moves i s dr r := by
  cases dr with
  | gpr j =>
    refine ⟨_, h, ?_, ?_⟩
    · simpa using onlyGpr_setGpr (s := s) (t := s.drawIf m) j r s.bank (by simp) (by simp)
        (by simp [State.restKept])
    · intro b; simp
  | cc =>
    refine ⟨_, h, (s.drawIf m).fresh, ?_⟩
    simp only [drawIf_writeCc]
    cases s.bank <;> rfl
  | pc =>
    refine ⟨_, h, ?_, ?_, ⟨?_, ?_⟩, ?_⟩
    · intro b; simp
    · intro b; simp
    · simp
    · simp
    · simp [State.restKept]

/-! ### The templates -/

/-- The gating of flag updates for a DR that is register 14 or 15: none (10_state.md R42). -/
@[simp] theorem setFlagsGated_cc (s : State) (cnd : Cond) (f : FlagResult) :
    s.setFlagsGated cnd .cc f = s := by simp [State.setFlagsGated, updatesFlags, Reg.isGpr]
@[simp] theorem setFlagsGated_pc (s : State) (cnd : Cond) (f : FlagResult) :
    s.setFlagsGated cnd .pc f = s := by simp [State.setFlagsGated, updatesFlags, Reg.isGpr]

/-- The active flags after an ungated update. -/
@[simp] theorem setFlags_regs_flags (s : State) (f : FlagResult) :
    ((s.setFlags f).regs s.bank).flags = f.resolve s.fresh := by simp [State.setFlags]

/-- The active flags after a gated update with a general register as DR. -/
theorem setFlagsGated_flags (s : State) (cnd : Cond) (j : Fin 14) (f : FlagResult) :
    ((s.setFlagsGated cnd (.gpr j) f).regs s.bank).flags =
      if cnd = .always then f.resolve s.fresh else (s.regs s.bank).flags := by
  by_cases h : cnd = .always <;> simp [State.setFlagsGated, updatesFlags, Reg.isGpr, h]

/-- An instruction of the template of 40_arith_logic.md R140 whose condition holds computes the
template's result, with the flags the template gives for every draw of its free values. `m` says
whether a draw stands before the template. -/
theorem computes_of_aluEffect {i : Instr} {s : State} {cnd : Cond} {dr : Reg} {b : OpB}
    {f : Word → Word → AluResult} {r : Word} {fl : Flags → Prop} (m : Bool)
    (hx : exec i s = s.finish (aluEffect f cnd dr b (s.drawIf m)))
    (hc : s.condHolds cnd = true) (hv : (f (s.readReg dr) (s.opB b)).value = r)
    (hf : ∀ n, fl ((f (s.readReg dr) (s.opB b)).flags.resolve n)) :
    computes i s cnd dr r fl := by
  have hx' : exec i s = s.finish (((s.drawIf m).setFlagsGated cnd dr
      (f (s.readReg dr) (s.opB b)).flags).writeReg dr r) := by
    simp [hx, aluEffect, hc, hv]
  cases dr with
  | gpr j =>
    refine ⟨_, hx', ?_, ?_, ?_⟩
    · have ho := State.setFlagsGated_regs_other (s.drawIf m) cnd (.gpr j)
        (f (s.readReg (.gpr j)) (s.opB b)).flags
      simp only [State.drawIf_bank, State.drawIf_regs] at ho
      have := onlyGpr_setGpr (s := s) (t := (s.drawIf m).setFlagsGated cnd (.gpr j)
        (f (s.readReg (.gpr j)) (s.opB b)).flags) j r s.bank (by simp) (by rw [ho])
        (by simp [State.restKept])
      simpa only [State.setFlagsGated_bank, State.drawIf_bank] using this
    · intro h
      have := setFlagsGated_flags (s.drawIf m) cnd j (f (s.readReg (.gpr j)) (s.opB b)).flags
      simp only [State.drawIf_bank, if_pos h] at this
      simp only [State.setFlagsGated_bank, State.drawIf_bank, State.setPc_regs_flags,
        State.setGpr_regs_flags, this]
      exact hf _
    · intro h
      have := setFlagsGated_flags (s.drawIf m) cnd j (f (s.readReg (.gpr j)) (s.opB b)).flags
      simp only [State.drawIf_bank, if_neg h, State.drawIf_regs] at this
      simp only [State.setFlagsGated_bank, State.drawIf_bank, State.setPc_regs_flags,
        State.setGpr_regs_flags, this]
  | cc =>
    rw [setFlagsGated_cc] at hx'
    obtain ⟨t, ht, h⟩ := moves_of_writeReg m hx'
    exact ⟨t, ht, h⟩
  | pc =>
    rw [setFlagsGated_pc] at hx'
    obtain ⟨t, ht, h⟩ := moves_of_writeReg m hx'
    exact ⟨t, ht, h⟩

/-- A compare whose condition holds changes the active flags alone. -/
theorem compares_of_compareEffect {i : Instr} {s : State} {cnd : Cond} {dr : Reg} {b : OpB}
    {f : Word → Word → AluResult} {fl : Flags → Prop}
    (hx : exec i s = s.finish (compareEffect f cnd dr b s)) (hc : s.condHolds cnd = true)
    (hf : ∀ n, fl ((f (s.readReg dr) (s.opB b)).flags.resolve n)) : compares i s fl := by
  refine ⟨_, by rw [hx, compareEffect, if_pos hc]; rfl, ?_, ?_, ?_, ⟨?_, ?_⟩, ?_⟩
  · simpa using hf s.fresh
  · simp
  · intro b'; simp
  · simp
  · simp
  · simp [State.restKept]

/-- An instruction that writes DR and no flag moves its value. -/
theorem moves_of_writeEffect {i : Instr} {s : State} {cnd : Cond} {dr : Reg} {b : OpB}
    {f : Word → Word → Word} {r : Word} (hx : exec i s = s.finish (writeEffect f cnd dr b s))
    (hc : s.condHolds cnd = true) (hv : f (s.readReg dr) (s.opB b) = r) : moves i s dr r :=
  moves_of_writeReg false (by rw [hx, writeEffect, if_pos hc, hv]; rfl)

/-! ### Flags of a result -/

@[simp] theorem resolve_of (r : Word) (c v : Option Bool) (n : Nat) :
    (FlagResult.of r c v).resolve n =
      Flags.mk (r == 0#32) (c.getD (Config.freeCarry n)) r.msb
        (v.getD (Config.freeOverflow n)) := rfl

/-- Z and N of a result, whatever C and V. -/
theorem zn_resolve_of (r : Word) (c v : Option Bool) (n : Nat) :
    ((FlagResult.of r c v).resolve n).zn r := by
  constructor
  · by_cases h : r = 0#32 <;> simp [h]
  · simp [BitVec.msb_eq_getLsbD_last]

/-- Signed overflow of a subtraction, as bits and as integers. -/
theorem sub_overflow (a b : Word) :
    ((a.msb != b.msb) && ((a - b).msb != a.msb)) =
      decide (a.toInt - b.toInt < -2 ^ 31 ∨ 2 ^ 31 ≤ a.toInt - b.toInt) := by
  rw [Bool.eq_iff_iff]
  simp only [Bool.and_eq_true, bne_iff_ne, ne_eq, decide_eq_true_eq, BitVec.msb_eq_decide,
    BitVec.toNat_sub, BitVec.toInt_eq_toNat_cond, decide_eq_decide]
  have ha := a.isLt
  have hb := b.isLt
  split <;> split <;> omega

/-- Signed overflow of an addition, as bits and as integers. -/
theorem add_overflow (a b : Word) :
    ((a.msb == b.msb) && ((a + b).msb != a.msb)) =
      decide (a.toInt + b.toInt < -2 ^ 31 ∨ 2 ^ 31 ≤ a.toInt + b.toInt) := by
  rw [Bool.eq_iff_iff]
  simp only [Bool.and_eq_true, bne_iff_ne, beq_iff_eq, ne_eq, decide_eq_true_eq,
    BitVec.msb_eq_decide, BitVec.toNat_add, BitVec.toInt_eq_toNat_cond, decide_eq_decide]
  have ha := a.isLt
  have hb := b.isLt
  split <;> split <;> omega

/-! ### Taking an exception -/

/-- A fault in user mode: the entry of 60_exceptions.md R350. -/
theorem takeException_user {s : State} (x : Exc) (h : s.cc.gie = true) :
    s.enteredSupervisor (s.takeException x) (s.cc.setUserCause x)
      (excPcAllowed s.cfg s.usr.pc) := by
  have hb : s.bank = .usr := by simpa using h
  simp only [State.takeException, hb, State.enteredSupervisor, State.outerKept]
  refine ⟨by simp, by simp, ?_, ?_, by simp, by simp, by simp⟩
  · simp only [State.trapToSupervisor_usr, State.drawIf_usr, State.setPc_usr_pc, excPcAllowed,
      State.excPc]
    cases s.cfg.excPcPolicy <;> cases Config.freeExcPcNext s.fresh <;> simp
  · simp [State.setPc, State.withRegs]

/-- A fault in supervisor mode: the halt of 60_exceptions.md R351. -/
theorem takeException_sup {s : State} (x : Exc) (h : s.cc.gie = false) :
    s.takeException x = { s with cc := s.cc.setSupCause x, lock := .off, halted := true } := by
  have hb : s.bank = .sup := by simpa using h
  simp only [State.takeException, hb]
  rfl

/-- An instruction that ends in raising an exception raises it. -/
theorem raises_of_finish {i : Instr} {s : State} {x : Exc}
    (h : exec i s = s.finish (.raised x s)) : raises i s x := by
  refine ⟨s.takeException x, h, fun hg => ?_, fun hg => ?_⟩
  · have := takeException_user x hg
    simpa [State.pc, State.bank, hg] using this
  · rw [takeException_sup x hg]
    exact ⟨rfl, rfl, rfl, rfl, rfl, rfl, rfl, rfl, rfl, fun _ => rfl⟩

/-! ### Fetch -/

/-- What a fetch can do: memory's word or a cached word for the address, with or without a draw. -/
theorem fetch_cases {s t : State} {w : Word} (h : s.fetch = some (w, t)) :
    s.busError .fetch s.pc = false ∧ (t = s ∨ t = s.draw) ∧
      (w = s.mem.readWord (s.busAddr s.pc) ∨ (s.busAddr s.pc, w) ∈ s.icache) := by
  unfold State.fetch at h
  split at h
  · cases h
  · rename_i hb
    refine ⟨by simpa using hb, ?_⟩
    have hm : ∀ x, x ∈ s.staleWords (s.busAddr s.pc) → (s.busAddr s.pc, x) ∈ s.icache := by
      intro x hx
      simp only [State.staleWords, List.mem_filter, List.mem_map, decide_eq_true_eq] at hx
      obtain ⟨⟨⟨a, y⟩, ⟨hy, ha⟩, rfl⟩, -⟩ := hx
      simp only at ha
      subst ha
      exact hy
    simp only at h
    split at h
    · simp only [Option.some.injEq, Prod.mk.injEq] at h
      exact ⟨.inl h.2.symm, .inl h.1.symm⟩
    · rename_i x rest he
      simp only [Option.some.injEq, Prod.mk.injEq] at h
      refine ⟨.inr h.2.symm, ?_⟩
      rw [List.getD_eq_getElem?_getD] at h
      cases hg : (x :: rest)[Config.freeFetchChoice s.fresh]? with
      | none =>
        rw [hg] at h
        exact .inl h.1.symm
      | some y =>
        rw [hg] at h
        have hy : y ∈ s.staleWords (s.busAddr s.pc) := he ▸ List.mem_of_getElem? hg
        have : w = y := h.1.symm
        exact .inr (this ▸ hm y hy)

/-- With no stale word for the address a fetch gives memory's word and draws nothing. -/
theorem fetch_of_fresh {s : State} (hb : s.busError .fetch s.pc = false)
    (hs : s.staleWords (s.busAddr s.pc) = []) :
    s.fetch = some (s.mem.readWord (s.busAddr s.pc), s) := by
  simp [State.fetch, hb, hs]

end Sys2Proof.Machine
end

