-- ==== Sys2Proof/Laws/Effects.lean ====
section
/-! SUPPORT. Everything one instruction, one half of a compact word, and one step can do: the
inversion lemmas that rules of the whole machine are derived from. -/

namespace Sys2Proof.Machine

/-- What the effect of a one-instruction word in state `s` can be. -/
inductive EffectOf (i : Instr) (s : State) : Event → Prop where
  /-- The model gives it no meaning. -/
  | refused (r : Refusal) : EffectOf i s (.refused r)
  /-- It raises an exception and has written nothing. -/
  | raised (x : Exc) : EffectOf i s (.raised x s)
  /-- It is a BREAK. -/
  | broke (h : drOf i = some .pc) : EffectOf i s (.broke s)
  /-- It writes register 15 of the active set. -/
  | jump (v : Word) (n : Nat) (h : drOf i = some .pc) :
      EffectOf i s (.jump v { s with fresh := n })
  /-- It writes nothing but general registers and flags of the active set. -/
  | plain (g : Vector Word 14) (f : Flags) (n : Nat) :
      EffectOf i s
        (.done { s.withRegs s.bank { s.regs s.bank with gpr := g, flags := f } with fresh := n })
  /-- It writes register 14 of the active set. -/
  | cc (v : Word) (n : Nat) (h : drOf i = some .cc) :
      EffectOf i s (.done { s.writeCc v with fresh := n })
  /-- It is a supervisor MOV to the user set. -/
  | foreign (r : Reg) (v : Word) (n : Nat) (hg : s.cc.gie = false) (h : movesToUser i = true) :
      EffectOf i s (.done { s.writeForeign r v with fresh := n })
  /-- It stores a word. -/
  | store (a v : Word) (h : storesMemory i = true) (hb : s.busError .write a = false) :
      EffectOf i s (.done (s.storeWord (s.busAddr a) v))
  /-- It is a LOCK. -/
  | lock : EffectOf i s (.done { s with lock := .armed })

/-! ### States written as updates -/

/-- A draw changes the draw counter alone. -/
theorem drawIf_eq (s : State) (m : Bool) :
    s.drawIf m = { s with fresh := (s.drawIf m).fresh } := by
  cases m <;> rfl

/-- A flag update and a general register write as one update. -/
theorem setFlagsGated_eq (s : State) (cnd : Cond) (dr : Reg) (f : FlagResult) :
    ∃ fl n, s.setFlagsGated cnd dr f =
      { s.withRegs s.bank { s.regs s.bank with flags := fl } with fresh := n } := by
  unfold State.setFlagsGated
  split
  · exact ⟨_, _, drawIf_eq _ _⟩
  · refine ⟨(s.regs s.bank).flags, s.fresh, ?_⟩
    cases h : s.bank <;> simp [State.withRegs, State.regs]

/-- A register write of the active set, after a draw, is one of the effects. -/
theorem effectOf_writeReg {i : Instr} {dr : Reg} (s : State) (n : Nat) (v : Word)
    (h : drOf i = some dr) : EffectOf i s (({ s with fresh := n } : State).writeReg dr v) := by
  cases dr with
  | gpr j => exact .plain ((s.regs s.bank).gpr.set j v) (s.regs s.bank).flags n
  | cc =>
    rw [writeReg_cc, writeCc_withFresh]
    exact .cc v n h
  | pc => exact .jump v n h

/-- Doing nothing is one of the effects. -/
theorem effectOf_nothing (i : Instr) (s : State) (n : Nat) :
    EffectOf i s (.done { s with fresh := n }) := by
  have e : ({ s with fresh := n } : State) =
      { s.withRegs s.bank { s.regs s.bank with
          gpr := (s.regs s.bank).gpr, flags := (s.regs s.bank).flags } with fresh := n } := by
    cases h : s.bank <;> simp [State.withRegs, State.regs]
  rw [e]
  exact .plain _ _ _

/-! ### The templates -/

theorem effectOf_aluEffect {i : Instr} {dr : Reg} (f : Word → Word → AluResult) (cnd : Cond)
    (b : OpB) (s : State) (m : Bool) (h : drOf i = some dr) :
    EffectOf i s (aluEffect f cnd dr b (s.drawIf m)) := by
  simp only [aluEffect, State.drawIf_condHolds, State.drawIf_readReg, State.drawIf_opB]
  rw [drawIf_eq s m]
  generalize (s.drawIf m).fresh = k
  split
  · cases dr with
    | gpr j =>
      obtain ⟨fl, n, e⟩ := setFlagsGated_eq ({ s with fresh := k } : State) cnd (.gpr j)
        (f (s.readReg (.gpr j)) (s.opB b)).flags
      rw [e, writeReg_gpr]
      have := EffectOf.plain (i := i) (s := s)
        ((s.regs s.bank).gpr.set j (f (s.readReg (.gpr j)) (s.opB b)).value) fl n
      convert this using 2
      cases hb : s.bank <;>
        simp [State.setGpr, State.withRegs, State.regs, State.bank] <;>
        simp_all [State.bank]
    | cc =>
      rw [setFlagsGated_cc]
      exact effectOf_writeReg s k _ h
    | pc =>
      rw [setFlagsGated_pc]
      exact effectOf_writeReg s k _ h
  · exact effectOf_nothing i s k

theorem effectOf_writeEffect {i : Instr} {dr : Reg} (f : Word → Word → Word) (cnd : Cond)
    (b : OpB) (s : State) (h : drOf i = some dr) : EffectOf i s (writeEffect f cnd dr b s) := by
  unfold writeEffect
  split
  · exact effectOf_writeReg s s.fresh _ h
  · exact effectOf_nothing i s s.fresh

theorem effectOf_compareEffect (i : Instr) (f : Word → Word → AluResult) (cnd : Cond) (dr : Reg)
    (b : OpB) (s : State) : EffectOf i s (compareEffect f cnd dr b s) := by
  unfold compareEffect
  split
  · have e : s.setFlags (f (s.readReg dr) (s.opB b)).flags =
        { s.withRegs s.bank { s.regs s.bank with
            gpr := (s.regs s.bank).gpr,
            flags := (f (s.readReg dr) (s.opB b)).flags.resolve s.fresh } with
          fresh := (s.setFlags (f (s.readReg dr) (s.opB b)).flags).fresh } := drawIf_eq _ _
    rw [e]
    exact .plain _ _ _
  · exact effectOf_nothing i s s.fresh

/-- What a MOV can do. -/
theorem effectOf_movEffect (cnd : Cond) (dr : Reg) (a : Bool) (br : Reg) (bu : Bool)
    (off : BitVec 13) (s : State) :
    EffectOf (.mov cnd dr a br bu off) s (movEffect cnd dr a br bu off s) := by
  unfold movEffect
  split
  · generalize s.readMov (s.movBank bu) br + off.signExtend 32 = v
    rw [drawIf_eq]
    generalize (s.drawIf _).fresh = n
    unfold State.writeMov
    split
    · rename_i hf
      have hg : s.cc.gie = false ∧ a = true := by
        simp only [State.isForeign, State.movBank] at hf
        cases hgie : s.cc.gie <;> cases a <;> simp_all
      have e : ({ s with fresh := n } : State).writeForeign dr v =
          { s.writeForeign dr v with fresh := n } := by
        cases dr <;> rfl
      rw [e]
      exact .foreign dr v n hg.1 (by simp [movesToUser, hg.2])
    · exact effectOf_writeReg s n v rfl
  · exact effectOf_nothing _ s s.fresh

/-! ### One instruction -/

/-- Everything a one-instruction word can do. -/
theorem singleEffect_effectOf (i : Instr) (s : State) : EffectOf i s (singleEffect i s) := by
  have alu : ∀ (f : Word → Word → AluResult) (cnd : Cond) (dr : Reg) (b : OpB),
      drOf i = some dr → EffectOf i s (aluEffect f cnd dr b s) :=
    fun f cnd dr b h => effectOf_aluEffect f cnd b s false h
  cases i with
  | vliw h1 v h2 => exact .raised _
  | noop cnd x => exact effectOf_nothing _ s s.fresh
  | brk cnd x =>
    simp only [singleEffect, brkEffect]
    split
    · exact .broke rfl
    · exact effectOf_nothing _ s s.fresh
  | lock cnd x =>
    simp only [singleEffect, lockEffect]
    split
    · exact .lock
    · exact effectOf_nothing _ s s.fresh
  | reserved18Cc cnd x => exact .refused _
  | reserved19Cc cnd x => exact .refused _
  | reserved1aCc cnd x => exact .refused _
  | sub cnd dr b => exact alu _ _ _ _ rfl
  | and cnd dr b => exact alu _ _ _ _ rfl
  | add cnd dr b => exact alu _ _ _ _ rfl
  | or cnd dr b => exact alu _ _ _ _ rfl
  | xor cnd dr b => exact alu _ _ _ _ rfl
  | lsr cnd dr b => exact alu _ _ _ _ rfl
  | lsl cnd dr b => exact alu _ _ _ _ rfl
  | asr cnd dr b => exact alu _ _ _ _ rfl
  | mpy cnd dr b => exact alu _ _ _ _ rfl
  | ldilo cnd dr b => exact effectOf_writeEffect _ _ _ _ rfl
  | mpyuhi cnd dr b => exact alu _ _ _ _ rfl
  | mpyshi cnd dr b => exact alu _ _ _ _ rfl
  | brev cnd dr b => exact effectOf_writeEffect (fun _ opb => bitrev opb) cnd b s rfl
  | popc cnd dr b => exact alu (fun _ opb => popcResult opb) cnd dr b rfl
  | rol cnd dr b => exact alu _ _ _ _ rfl
  | mov cnd dr a br bu off => exact effectOf_movEffect _ _ _ _ _ _ _
  | cmp cnd dr b => exact effectOf_compareEffect _ _ _ _ _ _
  | tst cnd dr b => exact effectOf_compareEffect _ _ _ _ _ _
  | lod cnd dr b =>
    simp only [singleEffect, lodEffect]
    split
    · cases s.memRead (s.opB b) with
      | none => exact .raised _
      | some v => exact effectOf_writeReg s s.fresh v rfl
    · exact effectOf_nothing _ s s.fresh
  | sto cnd dr b =>
    simp only [singleEffect, stoEffect]
    split
    · cases hw : s.memWrite (s.opB b) (s.readReg dr) with
      | none => exact .raised _
      | some t =>
        obtain ⟨hb, rfl⟩ := State.memWrite_cases hw
        exact .store _ _ rfl hb
    · exact effectOf_nothing _ s s.fresh
  | divu cnd dr b =>
    simp only [singleEffect, divuEffect]
    split
    · exact .raised _
    · exact alu _ _ _ _ rfl
  | divs cnd dr b =>
    simp only [singleEffect, divsEffect]
    split
    · exact .raised _
    · exact effectOf_aluEffect _ _ _ _ _ rfl
  | ldi dr i => exact effectOf_writeReg s s.fresh _ rfl
  | fpadd cnd dr b => exact .raised _
  | fpsub cnd dr b => exact .raised _
  | fpmpy cnd dr b => exact .raised _
  | fpdiv cnd dr b => exact .raised _
  | fpcvt cnd dr b => exact .raised _
  | fpint cnd dr b => exact .raised _
  | reserved1e cnd dr b => exact .raised _
  | reserved1f cnd dr b => exact .raised _

/-- The meaning of an instruction that is not a compact word is the end of its effect. -/
theorem exec_eq_finish (i : Instr) (s : State) (h : ∀ h1 v h2, i ≠ .vliw h1 v h2) :
    exec i s = s.finish (singleEffect i s) := by
  cases i with
  | vliw h1 v h2 => exact absurd rfl (h h1 v h2)
  | _ => rfl

/-! ### One step -/

/-- A region that is off takes in no word. -/
theorem lockHold_of_off {s : State} (h : s.lock = .off) : s.lockHold = .released := by
  have e : ∀ ws : List Word, (ws.map (fun w => s.lock.hold (lockClasses s (decodeWord w))
      s.memFollows)).all (· == .released) = true := by
    intro ws
    simp [h, LockState.hold]
  simp only [State.lockHold, e, if_true]

/-- An interrupt taken before a word was sampled and the region did not hold it back. -/
theorem takesInterrupt_cases {s : State} {irq : Bool} (h : s.takesInterrupt irq = true) :
    s.cc.gie = true ∧ s.cc.step = false ∧ irq = true ∧ s.lockHold ≠ .held := by
  simp only [State.takesInterrupt, State.samplesInterrupt, Bool.and_eq_true, Bool.not_eq_true'] at h
  refine ⟨h.1.1.1, h.1.1.2, h.1.2, fun e => ?_⟩
  simp [e] at h

/-- No free value is drawn unless the region leaves open whether it has ended. -/
theorem drawsInterrupt_of_ne {s : State} (irq : Bool) (h : s.lockHold ≠ .either) :
    s.drawsInterrupt irq = false := by
  simp [State.drawsInterrupt, h]

/-- Everything a step can do, after a draw that may decide on the interrupt: a reset, nothing (halted
or asleep), an interrupt entry, a fetch that meets a bus error, or one word. -/
theorem stepWith_cases {inp : Input} {s t : State} (h : stepWith inp s = .next t) :
    (inp.reset = true ∧ t = s.systemReset) ∨
    (inp.reset = false ∧ s.halted = true ∧ t = s) ∨
    (inp.reset = false ∧ s.halted = false ∧ s.cc.gie = true ∧ s.cc.sleep = true ∧
      inp.irq = false ∧ t = s) ∨
    (inp.reset = false ∧ s.halted = false ∧ s.cc.gie = true ∧ inp.irq = true ∧
      (s.cc.sleep = true ∨ (s.cc.step = false ∧ s.lockHold ≠ .held)) ∧
      ∃ m, t = (s.drawIf m).trapToSupervisor) ∨
    (inp.reset = false ∧ s.halted = false ∧ (s.cc.gie = true → s.cc.sleep = false) ∧
      ∃ m, (s.drawIf m).fetch = none ∧ t = (s.drawIf m).takeException .illegalInstruction) ∨
    (inp.reset = false ∧ s.halted = false ∧ (s.cc.gie = true → s.cc.sleep = false) ∧
      ∃ m w s' t', (s.drawIf m).fetch = some (w, s') ∧
        exec (decodeWord w) (s'.beginWord (decodeWord w)) = .next t' ∧
        t = t'.afterWord s.cc.gie) := by
  unfold stepWith at h
  split at h
  · rename_i hr
    exact .inl ⟨hr, by simpa using h.symm⟩
  · rename_i hr
    replace hr : inp.reset = false := by simpa using hr
    split at h
    · rename_i hh
      exact .inr (.inl ⟨hr, hh, by simpa using h.symm⟩)
    · rename_i hh
      replace hh : s.halted = false := by simpa using hh
      split at h
      · rename_i hs
        simp only [Bool.and_eq_true] at hs
        split at h
        · rename_i hi
          have e : t = (s.drawIf false).trapToSupervisor := (Host.Outcome.next.inj h).symm
          exact .inr (.inr (.inr (.inl ⟨hr, hh, hs.1, hi, .inl hs.2, false, e⟩)))
        · rename_i hi
          exact .inr (.inr (.inl ⟨hr, hh, hs.1, hs.2, by simpa using hi, by simpa using h.symm⟩))
      · rename_i hs
        have hs' : s.cc.gie = true → s.cc.sleep = false := by
          intro hg
          simpa [hg] using hs
        simp only at h
        generalize s.drawsInterrupt inp.irq = m at h
        split at h
        · rename_i ht
          obtain ⟨hg, hp, hi, hl⟩ := takesInterrupt_cases ht
          exact .inr (.inr (.inr (.inl ⟨hr, hh, hg, hi, .inr ⟨hp, hl⟩, m, by simpa using h.symm⟩)))
        · unfold runWord at h
          split at h
          · rename_i hf
            exact .inr (.inr (.inr (.inr (.inl ⟨hr, hh, hs', m, hf, by simpa using h.symm⟩))))
          · rename_i w s' hf
            obtain ⟨t', he, ht⟩ := afterWordOutcome_eq_next h
            rw [State.drawIf_cc] at ht
            exact .inr (.inr (.inr (.inr (.inr ⟨hr, hh, hs', m, w, s', t', hf, he, ht⟩))))

/-- A step that runs a word runs it, after a draw that may decide on the interrupt. -/
theorem step_of_runsWord {s : State} (h : s.runsWord = true) :
    step s = runWord (s.tick.drawIf (s.drawsInterrupt s.input.irq)) := by
  simp only [State.runsWord, Bool.and_eq_true, Bool.not_eq_true'] at h
  obtain ⟨⟨⟨hr, hh⟩, hs⟩, hi⟩ := h
  have ht : s.tick.takesInterrupt s.input.irq = false := hi
  have hd : s.tick.drawsInterrupt s.input.irq = s.drawsInterrupt s.input.irq := rfl
  simp [step, stepWith, hr, hh, hs, ht, hd]

end Sys2Proof.Machine
end

