-- ==== Sys2Proof/Laws/Compact.lean ====
section
/-! SUPPORT. Compact words: what a half stands for, and everything a compact word can do. -/

namespace Sys2Proof.Machine

/-! ### The instruction of a half -/

/-- A word of the opcodes shared with NOOP, BREAK and LOCK has what its three readings have. -/
theorem decodeShared_elim {P : Instr → Prop} {w : Word} {p c : Cond → BitVec 19 → Instr}
    {g : Cond → Reg → OpB → Instr} (hp : ∀ cnd x, P (p cnd x)) (hc : ∀ cnd x, P (c cnd x))
    (hg : ∀ cnd dr b, P (g cnd dr b)) : P (decodeShared w p c g) := by
  unfold decodeShared
  cases drField w with
  | gpr i => exact hg _ _ _
  | cc => exact hc _ _
  | pc => exact hp _ _

/-- A one-instruction word names the register of its DR field. -/
theorem drOf_decodeSingle (w : Word) : drOf (decodeSingle w) = some (drField w) := by
  have shared : ∀ (p c : Cond → BitVec 19 → Instr) (g : Cond → Reg → OpB → Instr),
      (∀ cnd x, drOf (p cnd x) = some .pc) → (∀ cnd x, drOf (c cnd x) = some .cc) →
      (∀ cnd dr b, drOf (g cnd dr b) = some dr) →
      drOf (decodeShared w p c g) = some (drField w) := by
    intro p c g hp hc hg
    unfold decodeShared
    cases drField w <;> simp [hp, hc, hg]
  unfold decodeSingle
  split
  case h_25 => exact shared _ _ _ (fun _ _ => rfl) (fun _ _ => rfl) (fun _ _ _ => rfl)
  case h_26 => exact shared _ _ _ (fun _ _ => rfl) (fun _ _ => rfl) (fun _ _ _ => rfl)
  case h_27 => exact shared _ _ _ (fun _ _ => rfl) (fun _ _ => rfl) (fun _ _ _ => rfl)
  all_goals rfl

/-- A one-instruction word is a store only with the opcode of STO. -/
theorem storesMemory_decodeSingle {w : Word} (h : storesMemory (decodeSingle w) = true) :
    opField w = 0x13#5 := by
  have shared : ∀ {p c : Cond → BitVec 19 → Instr} {g : Cond → Reg → OpB → Instr},
      (∀ cnd x, storesMemory (p cnd x) = false) → (∀ cnd x, storesMemory (c cnd x) = false) →
      (∀ cnd dr b, storesMemory (g cnd dr b) = false) →
      storesMemory (decodeShared w p c g) ≠ true :=
    fun hp hc hg => by
      simpa using decodeShared_elim (P := fun i => storesMemory i = false) hp hc hg
  unfold decodeSingle at h
  split at h
  case h_20 e => exact BitVec.eq_of_toNat_eq e
  case h_25 => exact absurd h (shared (fun _ _ => rfl) (fun _ _ => rfl) (fun _ _ _ => rfl))
  case h_26 => exact absurd h (shared (fun _ _ => rfl) (fun _ _ => rfl) (fun _ _ _ => rfl))
  case h_27 => exact absurd h (shared (fun _ _ => rfl) (fun _ _ => rfl) (fun _ _ _ => rfl))
  all_goals cases h

/-- A one-instruction word moves to the user set only as a MOV with the bit A set. -/
theorem movesToUser_decodeSingle {w : Word} (h : movesToUser (decodeSingle w) = true) :
    opField w = 0x0f#5 ∧ w.getLsbD 18 = true := by
  have shared : ∀ {p c : Cond → BitVec 19 → Instr} {g : Cond → Reg → OpB → Instr},
      (∀ cnd x, movesToUser (p cnd x) = false) → (∀ cnd x, movesToUser (c cnd x) = false) →
      (∀ cnd dr b, movesToUser (g cnd dr b) = false) →
      movesToUser (decodeShared w p c g) ≠ true :=
    fun hp hc hg => by
      simpa using decodeShared_elim (P := fun i => movesToUser i = false) hp hc hg
  unfold decodeSingle at h
  split at h
  case h_16 e => exact ⟨BitVec.eq_of_toNat_eq e, h⟩
  case h_25 => exact absurd h (shared (fun _ _ => rfl) (fun _ _ => rfl) (fun _ _ _ => rfl))
  case h_26 => exact absurd h (shared (fun _ _ => rfl) (fun _ _ => rfl) (fun _ _ _ => rfl))
  case h_27 => exact absurd h (shared (fun _ _ => rfl) (fun _ _ => rfl) (fun _ _ _ => rfl))
  all_goals cases h

/-- A one-instruction word is no compact word. -/
theorem decodeSingle_ne_vliw (w : Word) (h1 h2 : Half) (v : BitVec 3) :
    decodeSingle w ≠ .vliw h1 v h2 := by
  intro h
  have := drOf_decodeSingle w
  rw [h] at this
  cases this

/-- A half names the register of its own field. -/
theorem drOf_halfInstr (cnd : Cond) (h : Half) : drOf (halfInstr cnd h) = some h.dr := by
  rw [halfInstr, drOf_decodeSingle, expandHalf]
  split
  · split <;> simp
  · simp

/-- A half is a store only with the opcode of STO. -/
theorem storesMemory_halfInstr {cnd : Cond} {h : Half}
    (hs : storesMemory (halfInstr cnd h) = true) : h.op = 0x13#5 := by
  have e := storesMemory_decodeSingle hs
  unfold expandHalf at e
  split at e
  · split at e
    · simp at e
    · simpa using e
  · simpa using e

/-- No half moves to the user set (30_encoding.md R120). -/
theorem movesToUser_halfInstr (cnd : Cond) (h : Half) :
    movesToUser (halfInstr cnd h) = false := by
  rw [← Bool.not_eq_true]
  intro hm
  by_cases hs : h.sel = true
  · by_cases ho : h.isMov = true
    · simp only [halfInstr, expandHalf, hs, ho, if_true, decodeSingle, opField_movWord,
        decodeMov_movWord] at hm
      cases hm
    · simp only [halfInstr, expandHalf, hs, if_true, ho] at hm
      have e := (movesToUser_decodeSingle hm).1
      exact ho (by simpa [Half.isMov] using e)
  · simp only [halfInstr, expandHalf, hs] at hm
    have e := (movesToUser_decodeSingle hm).2
    rw [if_neg (by simp), stdWord_bit18] at e
    have z : (0#1 ++ h.f.signExtend 18).getLsbD 18 = false := by
      rw [BitVec.getLsbD_append]; simp
    exact absurd (e.symm.trans z) (by decide)

/-! ### What a half and a compact word can do -/

/-- Everything one half can do: an effect of some one-instruction word that names the half's
register, does not move to the user set, and stores only if the half has the opcode of STO. -/
theorem halfEffect_effectOf (word : Word) (positions : LdiLayout → List Nat) (cnd : Cond)
    (h : Half) (s : State) :
    ∃ i, drOf i = some h.dr ∧ movesToUser i = false ∧
      (storesMemory i = true → h.op = 0x13#5) ∧
      EffectOf i s (halfEffect word positions cnd h s) := by
  unfold halfEffect
  split
  · refine ⟨.ldi h.dr 0#23, rfl, rfl, (fun e => by cases e), ?_⟩
    cases s.cfg.vliwLdi with
    | none => exact .refused _
    | some l =>
      simp only
      split
      · exact effectOf_nothing _ s s.fresh
      · exact effectOf_writeReg s s.fresh _ rfl
  · exact ⟨halfInstr cnd h, drOf_halfInstr cnd h, movesToUser_halfInstr cnd h,
      storesMemory_halfInstr, singleEffect_effectOf _ s⟩

/-- Everything the two halves of a compact word can do: the first half alone if it does not complete
without a jump, else the first and then the second. -/
theorem compactEffect_cases (h1 h2 : Half) (vcnd : BitVec 3) (s : State) :
    ∃ i1, drOf i1 = some h1.dr ∧ movesToUser i1 = false ∧
      (storesMemory i1 = true → h1.op = 0x13#5) ∧
      (((∀ t, compactEffect h1 vcnd h2 s ≠ .done t) ∧
          EffectOf i1 { s with phase := .first } (compactEffect h1 vcnd h2 s)) ∨
        ∃ t i2, EffectOf i1 { s with phase := .first } (.done t) ∧ drOf i2 = some h2.dr ∧
          movesToUser i2 = false ∧ (storesMemory i2 = true → h2.op = 0x13#5) ∧
          EffectOf i2 { t with phase := .second } (compactEffect h1 vcnd h2 s)) := by
  unfold compactEffect
  simp only
  generalize firstHalfCond s.cfg.vliwLdi h1 vcnd = c1
  generalize secondHalfCond s.cfg.vliwLdi h1 vcnd = c2
  obtain ⟨i1, hd, hm, hs, he⟩ := halfEffect_effectOf (compactWord h1 vcnd h2) LdiLayout.first c1 h1
    { s with phase := .first }
  refine ⟨i1, hd, hm, hs, ?_⟩
  generalize halfEffect (compactWord h1 vcnd h2) LdiLayout.first c1 h1
    { s with phase := .first } = e at he
  cases e with
  | done t =>
    obtain ⟨i2, hd2, hm2, hs2, he2⟩ := halfEffect_effectOf (compactWord h1 vcnd h2)
      LdiLayout.second c2 h2 { t with phase := .second }
    exact .inr ⟨t, i2, he, hd2, hm2, hs2, he2⟩
  | jump v t => exact .inl ⟨(fun _ h => by cases h), he⟩
  | raised x t => exact .inl ⟨(fun _ h => by cases h), he⟩
  | broke t => exact .inl ⟨(fun _ h => by cases h), he⟩
  | refused r => exact .inl ⟨(fun _ h => by cases h), he⟩

/-- Everything the meaning of VLIW can be. -/
theorem execVliw_cases {h1 h2 : Half} {vcnd : BitVec 3} {s t : State}
    (h : execVliw h1 vcnd h2 s = .next t) :
    (s.cfg.optVliw = false ∧ t = s.takeException .illegalInstruction) ∨
      (s.cfg.optVliw = true ∧ compactRefusal s.cfg.vliwLdi h1 h2 = none ∧
        s.finishCompact (compactEffect h1 vcnd h2 s) = .next t) := by
  unfold execVliw at h
  split at h
  · rename_i ho
    split at h
    · cases h
    · rename_i hr
      exact .inr ⟨ho, hr, h⟩
  · rename_i ho
    exact .inl ⟨by simpa using ho, by simpa [illegalEffect] using h.symm⟩

end Sys2Proof.Machine
end

