-- ==== Sys2Proof/Laws/LockRegion.lean ====
section
/-! SUPPORT. The lock region: the classes of instructions in the terms the statements use, and what a
region takes in where the words ahead are known. -/

namespace Sys2Proof.Machine

/-! ### Classes -/

/-- An instruction that writes DR is no M. -/
theorem writerClass_ne_mem (s : State) (cnd : Cond) (dr : Reg) : writerClass s cnd dr ≠ .mem := by
  unfold writerClass
  split <;> simp

/-- An instruction that writes DR is an A if DR is a general register or the condition fails. -/
theorem writerClass_eq_alu_iff (s : State) (cnd : Cond) (dr : Reg) :
    writerClass s cnd dr = .alu ↔ (dr.isGpr || !s.condHolds cnd) = true := by
  unfold writerClass
  split <;> simp_all

/-- M is LOD or STO. -/
theorem lockClass_eq_mem_iff (s : State) (i : Instr) :
    lockClass s i = .mem ↔ isMemory i = true := by
  cases i with
  | lock cnd x => simp only [lockClass, isMemory]; split <;> simp
  | _ => simp [lockClass, writerClass_ne_mem, isMemory]

/-- A is an instruction that is neither M nor writes register 14 or 15. -/
theorem lockClass_eq_alu_iff (s : State) (i : Instr) :
    lockClass s i = .alu ↔ s.isLockAlu i = true := by
  have always : s.condHolds .always = true := rfl
  cases i with
  | lock cnd x => simp [lockClass, State.isLockAlu, isMemory, conditionOf, drOf, Reg.isGpr]
  | _ =>
    simp [lockClass, writerClass_eq_alu_iff, always, State.isLockAlu, isMemory, conditionOf, drOf]

/-- A word that is not compact has one class. -/
theorem lockClasses_of_not_compact (s : State) {i : Instr} (h : isCompact i = false) :
    lockClasses s i = [lockClass s i] := by
  cases i <;> first | rfl | cases h

/-- A half that is no load immediate has the class of the word it stands for. -/
theorem halfLockClass_of_not_ldi (s : State) (cnd : Cond) {h : Half} (hl : h.isLdi = false) :
    halfLockClass s cnd h = lockClass s (halfInstr cnd h) := by
  simp [halfLockClass, hl]

/-- A load immediate is no M. -/
theorem halfLockClass_ldi_ne_mem (s : State) (cnd : Cond) {h : Half} (hl : h.isLdi = true) :
    halfLockClass s cnd h ≠ .mem := by
  simp only [halfLockClass, hl, if_true]
  cases s.cfg.vliwLdi with
  | none => simp
  | some l => exact writerClass_ne_mem _ _ _

/-- A one-instruction word is LOD or STO by its opcode. -/
theorem isMemory_decodeSingle (w : Word) :
    isMemory (decodeSingle w) = (opField w == 0x12#5 || opField w == 0x13#5) := by
  have shared : ∀ {p c : Cond → BitVec 19 → Instr} {g : Cond → Reg → OpB → Instr},
      (∀ cnd x, isMemory (p cnd x) = false) → (∀ cnd x, isMemory (c cnd x) = false) →
      (∀ cnd dr b, isMemory (g cnd dr b) = false) → isMemory (decodeShared w p c g) = false :=
    fun hp hc hg => decodeShared_elim (P := fun i => isMemory i = false) hp hc hg
  have bit : ∀ n : BitVec 5, (opField w == n) = decide ((opField w).toNat = n.toNat) := by
    intro n
    rw [Bool.eq_iff_iff]
    simp [BitVec.toNat_eq]
  rw [bit, bit]
  unfold decodeSingle
  split
  case h_25 e => rw [e]; exact shared (fun _ _ => rfl) (fun _ _ => rfl) (fun _ _ _ => rfl)
  case h_26 e => rw [e]; exact shared (fun _ _ => rfl) (fun _ _ => rfl) (fun _ _ _ => rfl)
  case h_27 e => rw [e]; exact shared (fun _ _ => rfl) (fun _ _ => rfl) (fun _ _ _ => rfl)
  case h_32 => simp_all [decodeStd, isMemory]
  all_goals rename_i e; rw [e]; rfl

/-- A half is LOD or STO by its opcode. -/
theorem isMemory_halfInstr (cnd : Cond) (h : Half) :
    isMemory (halfInstr cnd h) = (h.op == 0x12#5 || h.op == 0x13#5) := by
  rw [halfInstr, isMemory_decodeSingle, expandHalf]
  split
  · split
    · rename_i hm
      have e : h.op = 0x0f#5 := by simpa [Half.isMov] using hm
      simp [e]
    · simp
  · simp

/-- A word begins with an M if its first class is M. -/
theorem head_lockClasses (s : State) (i : Instr) :
    ((lockClasses s i).head? == some LockClass.mem) = beginsWithMemory s.cfg i := by
  rw [Bool.eq_iff_iff]
  cases hc : isCompact i with
  | false =>
    rw [lockClasses_of_not_compact s hc]
    have e : beginsWithMemory s.cfg i = isMemory i := by cases i <;> first | rfl | cases hc
    simp [e, lockClass_eq_mem_iff]
  | true =>
    cases i with
    | vliw h1 v h2 =>
      have head : ((lockClasses s (.vliw h1 v h2)).head? == some LockClass.mem) =
          (s.cfg.optVliw &&
            halfLockClass s (firstHalfCond s.cfg.vliwLdi h1 v) h1 == LockClass.mem) := by
        cases ho : s.cfg.optVliw with
        | false => simp [lockClasses, ho]
        | true =>
          cases hs : skipsSecondHalf s (firstHalfCond s.cfg.vliwLdi h1 v) h1 <;>
            simp [lockClasses, ho, hs]
      rw [head]
      simp only [beginsWithMemory, Bool.and_eq_true]
      refine and_congr_right fun _ => ?_
      cases hl : h1.isLdi with
      | false =>
        rw [halfLockClass_of_not_ldi s _ hl]
        simp [lockClass_eq_mem_iff, isMemory_halfInstr]
      | true =>
        have e12 : h1.op ≠ 0x12#5 := by intro e; simp [Half.isLdi, e] at hl
        have e13 : h1.op ≠ 0x13#5 := by intro e; simp [Half.isLdi, e] at hl
        simp [halfLockClass_ldi_ne_mem s _ hl, e12, e13]
    | _ => cases hc

/-- The class of a compact word's first half is A as the statements say it. -/
theorem halfLockClass_eq_alu_iff (s : State) (h1 h2 : Half) (v : BitVec 3)
    (ho : s.cfg.optVliw = true) :
    halfLockClass s (firstHalfCond s.cfg.vliwLdi h1 v) h1 = .alu ↔
      s.beginsWithLockAlu (.vliw h1 v h2) = true := by
  cases hl : h1.isLdi with
  | false =>
    rw [halfLockClass_of_not_ldi s _ hl, lockClass_eq_alu_iff]
    simp [State.beginsWithLockAlu, ho, hl, firstHalfCond, vcndCovered]
  | true =>
    have always : s.condHolds .always = true := rfl
    simp only [halfLockClass, State.beginsWithLockAlu, ho, hl, if_true, Bool.true_and]
    cases s.cfg.vliwLdi with
    | none => simp
    | some l =>
      simp only [writerClass_eq_alu_iff, firstHalfCond, vcndCovered, hl, Bool.true_and]
      generalize l.first.any _ = covered
      cases l.conditional <;> cases covered <;> simp [always]

/-- A one-instruction word of an opcode that writes DR, other than LOD and LDI, has the class its
condition and DR give it. -/
theorem lockClass_decodeSingle_of_writes {w : Word} (s : State)
    (h : (opField w).toNat ≤ 0x0f ∨ opField w = 0x14#5 ∨ opField w = 0x15#5) :
    lockClass s (decodeSingle w) = writerClass s (cndField w) (drField w) := by
  have h' : (opField w).toNat ≤ 0x0f ∨ (opField w).toNat = 0x14 ∨ (opField w).toNat = 0x15 := by
    rcases h with h | h | h <;> simp [h]
  unfold decodeSingle
  split
  all_goals first | rfl | omega | (simp only [imp_false] at *; omega)

/-- A first half that skips the second is no A: it is a LOD, or it breaks the shape. -/
theorem halfLockClass_of_skips {s : State} {cnd : Cond} {h : Half}
    (hs : skipsSecondHalf s cnd h = true) : halfLockClass s cnd h ≠ .alu := by
  simp only [skipsSecondHalf, Bool.and_eq_true, beq_iff_eq] at hs
  obtain ⟨⟨hd, hw⟩, hc⟩ := hs
  have hp : writerClass s cnd .pc = .other := by simp [writerClass, Reg.isGpr, hc]
  have ha : writerClass s .always .pc = .other := rfl
  cases hl : h.isLdi with
  | true =>
    simp only [halfLockClass, hl, if_true, hd]
    cases s.cfg.vliwLdi with
    | none => simp
    | some l =>
      show writerClass s (if l.conditional then cnd else .always) .pc ≠ .alu
      cases l.conditional with
      | true => simp [hp]
      | false => simp [ha]
  | false =>
    rw [halfLockClass_of_not_ldi s _ hl]
    simp only [halfWritesDr, hl, Bool.or_false, Bool.or_eq_true, decide_eq_true_eq,
      beq_iff_eq] at hw
    by_cases hm : h.op = 0x12#5
    · have : lockClass s (halfInstr cnd h) = .mem :=
        (lockClass_eq_mem_iff _ _).2 (by simp [isMemory_halfInstr, hm])
      simp [this]
    · have hop : (opField (expandHalf cnd h)) = h.op ∧ cndField (expandHalf cnd h) = cnd ∧
          drField (expandHalf cnd h) = h.dr := by
        unfold expandHalf
        split
        · split
          · rename_i hv
            have e : h.op = 0x0f#5 := by simpa [Half.isMov] using hv
            simp [e]
          · simp
        · simp
      have := lockClass_decodeSingle_of_writes (w := expandHalf cnd h) s
        (by rw [hop.1]; rcases hw with ((hw | hw) | hw) | hw <;> simp_all)
      rw [halfInstr, this, hop.2.1, hop.2.2, hd, hp]
      simp

/-- An A as a first half does not jump, so that both halves count. -/
theorem lockClasses_of_alu {s : State} {h1 h2 : Half} {v : BitVec 3}
    (h : s.beginsWithLockAlu (.vliw h1 v h2) = true) :
    lockClasses s (.vliw h1 v h2) =
      [.alu, halfLockClass s (secondHalfCond s.cfg.vliwLdi h1 v) h2] := by
  have ho : s.cfg.optVliw = true := by
    simp only [State.beginsWithLockAlu, Bool.and_eq_true] at h
    exact h.1
  have ha := (halfLockClass_eq_alu_iff s h1 h2 v ho).2 h
  cases hs : skipsSecondHalf s (firstHalfCond s.cfg.vliwLdi h1 v) h1 with
  | true => exact absurd ha (halfLockClass_of_skips hs)
  | false => simp [lockClasses, ho, hs, ha]

/-! ### The words ahead -/

/-- A fetch of an address that holds an instruction returns its word and no other. -/
theorem fetchable_of_holdsAt {s : State} {a : Word} {i : Instr} (hb : s.busError .fetch a = false)
    (h : s.holdsAt a i) :
    s.fetchable a = [s.mem.readWord (s.busAddr a)] ∧
      decodeWord (s.mem.readWord (s.busAddr a)) = i := by
  obtain ⟨hd, hs⟩ := h
  refine ⟨by simp [State.fetchable, hb, hs], ?_⟩
  simpa [decode, Memory.readWord] using hd

/-- The fetch of an instruction the active PC holds gives its word, whatever number the draws are at. -/
theorem fetch_of_holdsNext {s : State} {i : Instr} (hb : s.busError .fetch s.pc = false)
    (h : s.holdsNext i) (n : Nat) :
    ∃ w, ({ s with fresh := n } : State).fetch = some (w, { s with fresh := n }) ∧
      decodeWord w = i := by
  obtain ⟨-, hd⟩ := fetchable_of_holdsAt hb h
  refine ⟨_, ?_, hd⟩
  have hb' : ({ s with fresh := n } : State).busError .fetch ({ s with fresh := n } : State).pc =
      false := hb
  have hs : ({ s with fresh := n } : State).staleWords
      (({ s with fresh := n } : State).busAddr ({ s with fresh := n } : State).pc) = [] := h.2
  simp only [State.fetch, hb', Bool.false_eq_true, if_false, hs]
  rfl

/-- What the region does about the next instruction where it is known. -/
theorem lockHold_of_holdsNext {s : State} {i : Instr} (hb : s.busError .fetch s.pc = false)
    (h : s.holdsNext i) : s.lockHold = s.lock.hold (lockClasses s i) s.memFollows := by
  obtain ⟨hf, hd⟩ := fetchable_of_holdsAt hb h
  simp only [State.lockHold, hf, List.map_cons, List.map_nil, hd]
  cases s.lock.hold (lockClasses s i) s.memFollows <;> rfl

/-- The word after the next begins with an M where it is known to. -/
theorem memFollows_of_holdsAt {s : State} {j : Instr}
    (hb : s.busError .fetch (s.pc + 1#32) = false) (h : s.holdsAt (s.pc + 1#32) j) :
    s.memFollows = beginsWithMemory s.cfg j := by
  obtain ⟨hf, hd⟩ := fetchable_of_holdsAt hb h
  simp [State.memFollows, hf, hd, head_lockClasses]

/-! ### What a region takes in -/

/-- A region takes in a word that begins with an M. -/
theorem hold_of_memory {l : LockState} {s : State} {i : Instr} (m : Bool) (hl : l ≠ .off)
    (hi : beginsWithMemory s.cfg i = true) : l.hold (lockClasses s i) m = .held := by
  rw [← head_lockClasses, beq_iff_eq] at hi
  cases hc : lockClasses s i with
  | nil => simp [hc] at hi
  | cons c cs =>
    obtain rfl : c = .mem := by simpa [hc] using hi
    cases l <;> first | rfl | exact absurd rfl hl

/-- Where an A may not come next, a region ends before a word that begins with no M. -/
theorem hold_of_not_memory {l : LockState} {s : State} {i : Instr} (m : Bool) (hl : l ≠ .afterM)
    (hi : beginsWithMemory s.cfg i = false) : l.hold (lockClasses s i) m = .released := by
  rw [← head_lockClasses] at hi
  cases hc : lockClasses s i with
  | nil => cases l <;> rfl
  | cons c cs =>
    have hm : c ≠ .mem := by
      rintro rfl
      simp [hc] at hi
    cases c <;> cases l <;> simp_all [LockState.hold]

end Sys2Proof.Machine
end

