-- ==== Sys2Proof/Tests/Slice0.lean ====
section
/-! SUPPORT. The model's own tests: ill-formed terms refused, words written out from the encoding
tables, one step of each instruction with results taken from spec/95_test_vectors.md, and for every
statement with hypotheses a concrete case that meets them. -/

-- One theorem at a time: many evaluations at once run out of threads under the memory limit.
set_option Elab.async false

namespace Sys2Proof.Tests

open Sys2Proof.Machine

/-! ### WellFormed -/

theorem test_wf_fpadd_cc_refused : (Instr.fpadd .always .cc (.imm 0#18)).wf = false := by decide
theorem test_wf_fpadd_pc_refused : (Instr.fpadd .always .pc (.imm 0#18)).wf = false := by decide
theorem test_wf_fpsub_cc_refused : (Instr.fpsub .z .cc (.imm 1#18)).wf = false := by decide
theorem test_wf_fpsub_pc_refused : (Instr.fpsub .z .pc (.imm 1#18)).wf = false := by decide
theorem test_wf_fpmpy_cc_refused : (Instr.fpmpy .v .cc (.reg .pc 0#14)).wf = false := by decide
theorem test_wf_fpmpy_pc_refused : (Instr.fpmpy .v .pc (.reg .pc 0#14)).wf = false := by decide
theorem test_wf_fpmpy_sp_accepted : (Instr.fpmpy .v (.gpr 13) (.reg .pc 0#14)).wf = true := by decide

/-! ### Decoding: a word of every constructor, from the fields of R102 to R104 and R115 -/

theorem test_decode_arith :
    decodeWord 0b0_0001_00000_000_0_000000000000000001#32
      = .sub .always (.gpr 1) (.imm 1#18) ∧
    decodeWord 0b0_0010_00001_000_0_000000000011111111#32
      = .and .always (.gpr 2) (.imm 255#18) ∧
    decodeWord 0b0_0011_00010_000_1_0010_00000000000000#32
      = .add .always (.gpr 3) (.reg (.gpr 2) 0#14) ∧
    decodeWord 0b0_1110_00011_000_0_000000000000100000#32 = .or .always .cc (.imm 32#18) ∧
    decodeWord 0b0_0101_00100_011_1_0101_00000000000000#32
      = .xor .nz (.gpr 5) (.reg (.gpr 5) 0#14) ∧
    decodeWord 0b0_0000_10000_010_0_111111111111111111#32
      = .cmp .z (.gpr 0) (.imm 262143#18) ∧
    decodeWord 0b0_1110_10001_001_0_000000000000000100#32 = .tst .lt .cc (.imm 4#18) := by
  decide +kernel

theorem test_decode_shift :
    decodeWord 0b0_0001_00101_000_0_000000000000000001#32
      = .lsr .always (.gpr 1) (.imm 1#18) ∧
    decodeWord 0b0_1101_00110_101_1_1111_11111111111111#32
      = .lsl .ge (.gpr 13) (.reg .pc 16383#14) ∧
    decodeWord 0b0_0001_00111_110_0_000000000000000100#32 = .asr .c (.gpr 1) (.imm 4#18) ∧
    decodeWord 0b0_0001_01110_111_0_111111111111111000#32
      = .rol .v (.gpr 1) (.imm 262136#18) ∧
    decodeWord 0b0_0011_01100_000_0_000000000000000001#32
      = .brev .always (.gpr 3) (.imm 1#18) ∧
    decodeWord 0b0_0001_01101_100_1_1110_01111111111111#32
      = .popc .gt (.gpr 1) (.reg .cc 8191#14) := by
  decide +kernel

theorem test_decode_muldiv :
    decodeWord 0b0_0111_01000_000_0_000000000000000011#32
      = .mpy .always (.gpr 7) (.imm 3#18) ∧
    decodeWord 0b0_1000_01010_000_1_0010_00000000000000#32
      = .mpyuhi .always (.gpr 8) (.reg (.gpr 2) 0#14) ∧
    decodeWord 0b0_1001_01011_000_1_0010_00000000000000#32
      = .mpyshi .always (.gpr 9) (.reg (.gpr 2) 0#14) ∧
    decodeWord 0b0_1010_10100_010_0_000000000000001010#32 = .divu .z (.gpr 10) (.imm 10#18) ∧
    decodeWord 0b0_1011_10101_000_1_0010_00000000000000#32
      = .divs .always (.gpr 11) (.reg (.gpr 2) 0#14) := by
  decide +kernel

theorem test_decode_move :
    decodeWord 0b0_0001_01001_000_0_000101011001111000#32
      = .ldilo .always (.gpr 1) (.imm 22136#18) ∧
    decodeWord 0b0_1110_01111_000_1_0000_0_0000000000000#32
      = .mov .always .cc true (.gpr 0) false 0#13 ∧
    decodeWord 0b0_0000_01111_011_0_1110_1_1111111111100#32
      = .mov .nz (.gpr 0) false .cc true 8188#13 ∧
    decodeWord 0b0_0010_1011_01111111111111111111111#32 = .ldi (.gpr 2) 4194303#23 ∧
    decodeWord 0b0_1111_1011_10000000000000000000000#32 = .ldi .pc 4194304#23 := by
  decide +kernel

theorem test_decode_loadstore :
    decodeWord 0b0_0010_10010_000_1_1101_00000000000100#32
      = .lod .always (.gpr 2) (.reg (.gpr 13) 4#14) ∧
    decodeWord 0b0_0000_10011_011_1_0001_00000000000000#32
      = .sto .nz (.gpr 0) (.reg (.gpr 1) 0#14) ∧
    decodeWord 0b0_1111_11010_000_0000000000000000000#32 = .lock .always 0#19 := by
  decide +kernel

theorem test_decode_special :
    decodeWord 0b0_1111_11000_000_0011111111111111111#32 = .noop .always 131071#19 ∧
    decodeWord 0b0_1111_11001_010_0000000000000000000#32 = .brk .z 0#19 ∧
    decodeWord 0b0_1110_11000_000_0000000000000000000#32 = .reserved18Cc .always 0#19 ∧
    decodeWord 0b0_1110_11001_001_0000000000000000101#32 = .reserved19Cc .lt 5#19 ∧
    decodeWord 0b0_1110_11010_000_1000000000000000000#32 = .reserved1aCc .always 262144#19 := by
  decide +kernel

theorem test_decode_float :
    decodeWord 0b0_0001_11000_000_1_0010_00000000000000#32
      = .fpadd .always (.gpr 1) (.reg (.gpr 2) 0#14) ∧
    decodeWord 0b0_0000_11001_000_0_000000000000000001#32
      = .fpsub .always (.gpr 0) (.imm 1#18) ∧
    decodeWord 0b0_1101_11010_111_0_000000000000000000#32 = .fpmpy .v (.gpr 13) (.imm 0#18) ∧
    decodeWord 0b0_1111_11011_010_1_0010_00000000000000#32
      = .fpdiv .z .pc (.reg (.gpr 2) 0#14) ∧
    decodeWord 0b0_1110_11100_000_0_000000000000000000#32 = .fpcvt .always .cc (.imm 0#18) ∧
    decodeWord 0b0_0001_11101_000_0_000000000000000000#32
      = .fpint .always (.gpr 1) (.imm 0#18) ∧
    decodeWord 0b0_0000_11110_000_0_000000000000000000#32
      = .reserved1e .always (.gpr 0) (.imm 0#18) ∧
    decodeWord 0b0_0000_11111_000_0_000000000000000000#32
      = .reserved1f .always (.gpr 0) (.imm 0#18) := by
  decide +kernel

theorem test_decode_compact :
    decodeWord 0b1_0001_00010_000_0_0001_0010_00010_1_0001#32
      = .vliw ⟨.gpr 1, 2#5, false, 1#4⟩ 0#3 ⟨.gpr 2, 2#5, true, 1#4⟩ ∧
    decodeWord 0b1_0001_10000_101_1_0010_1111_01111_1_0011#32
      = .vliw ⟨.gpr 1, 16#5, true, 2#4⟩ 5#3 ⟨.pc, 15#5, true, 3#4⟩ := by
  decide +kernel

theorem test_decode_bytes_little_first :
    decode [0x01#8, 0x00#8, 0x80#8, 0x08#8, 0xff#8] =
      .ok (.add .always (.gpr 1) (.imm 1#18), [0xff#8]) := by rfl
theorem test_decode_short_rejected : decode [0x01#8, 0x00#8, 0x80#8] = .error .truncated := by rfl
theorem test_decodeTableWord : decodeTableWord 32 0x08800001 =
    some (.add .always (.gpr 1) (.imm 1#18)) := by decide +kernel

/-! ### One step -/

/-- Reset, with some supervisor registers and the supervisor flags `Z C N V` set. -/
def sup (g : List (Fin 14 × Word)) (z c n v : Bool := false) : State :=
  (g.foldl (fun s p => s.setGpr .sup p.1 p.2) State.reset).setFlagsOf .sup ⟨z, c, n, v⟩

/-- The same in user mode, the user PC at 0x200. -/
def usr (g : List (Fin 14 × Word)) (z c n v : Bool := false) : State :=
  let s := g.foldl (fun s p => s.setGpr .usr p.1 p.2) State.reset
  { (s.setFlagsOf .usr ⟨z, c, n, v⟩).setPc .usr 0x200#32 with cc := { s.cc with gie := true } }

/-- The next state of the step that runs word `w` in `s` has the property `p`. -/
def after (s : State) (w : Nat) (p : State → Bool) : Bool :=
  match step (s.withFetchWord 32 w) with
  | .next t => p t
  | .fault _ => false
  | .refused _ => false

/-- The step that runs word `w` in `s` is refused for the reason `r`. -/
def refusedFor (s : State) (w : Nat) (r : Refusal) : Bool :=
  match step (s.withFetchWord 32 w) with
  | .refused q => decide (q = r)
  | _ => false

/-- A supervisor register after the step. -/
def supIs (i : Fin 14) (v : Word) (t : State) : Bool := t.sup.gpr[i] == v

/-- Z and N of the supervisor flags after the step. -/
def znIs (z n : Bool) (t : State) : Bool := t.sup.flags.z == z && t.sup.flags.n == n

theorem test_add_wraps :
    after (sup [(1, 0xFFFFFFFF#32)]) 0x08800001
      (fun t => supIs 1 0#32 t && t.sup.flags == ⟨true, true, false, false⟩ && t.sup.pc == 0x101#32) = true := by
  decide +kernel
theorem test_add_pc_jumps_keeps_flags :
    after (sup [] false true true false) 0x78800004
      (fun t => t.sup.pc == 0x105#32 && t.sup.flags == ⟨false, true, true, false⟩) = true := by
  decide +kernel
theorem test_sub_overflows :
    after (sup [(1, 0x80000000#32)]) 0x08000001
      (fun t => supIs 1 0x7FFFFFFF#32 t && t.sup.flags == ⟨false, false, false, true⟩) = true := by
  decide +kernel
theorem test_sub_minus_one_borrows :
    after (sup [(1, 0x7FFFFFFF#32)]) 0x0803FFFF
      (fun t => supIs 1 0x80000000#32 t && t.sup.flags == ⟨false, true, true, true⟩) = true := by
  decide +kernel
theorem test_and_masks :
    after (sup [(2, 0x12345678#32)]) 0x104000FF
      (fun t => supIs 2 0x78#32 t && znIs false false t) = true := by
  decide +kernel
theorem test_or_sets_zero_flag :
    after (sup []) 0x08C00000 (fun t => supIs 1 0#32 t && znIs true false t) = true := by
  decide +kernel
theorem test_xor_complements :
    after (sup [(4, 0x0000FFFF#32)]) 0x2103FFFF
      (fun t => supIs 4 0xFFFF0000#32 t && znIs false true t) = true := by
  decide +kernel
theorem test_xor_conditional_keeps_flags :
    after (sup [(5, 0x77#32)] false false true false) 0x291D4000
      (fun t => supIs 5 0#32 t && t.sup.flags == ⟨false, false, true, false⟩) = true := by
  decide +kernel
theorem test_cmp_borrows :
    after (sup [(1, 1#32), (2, 0xFFFFFFFF#32)]) 0x0C048000
      (fun t => supIs 1 1#32 t && t.sup.flags == ⟨false, true, false, false⟩) = true := by
  decide +kernel
theorem test_cmp_pc_does_not_jump :
    after (sup []) 0x7C000101 (fun t => t.sup.pc == 0x101#32 && t.sup.flags == ⟨true, false, false, false⟩) = true := by
  decide +kernel
theorem test_tst_cc_reads_status :
    after (sup [] false false true false) 0x74400004
      (fun t => znIs false false t && !t.halted) = true := by
  decide +kernel
theorem test_lsr_by_one_carries :
    after (sup [(1, 3#32)]) 0x09400001
      (fun t => supIs 1 1#32 t && znIs false false t && t.sup.flags.c) = true := by
  decide +kernel
theorem test_lsr_by_32_is_zero :
    after (sup [(1, 0xFFFFFFFF#32)]) 0x09400020
      (fun t => supIs 1 0#32 t && znIs true false t) = true := by
  decide +kernel
theorem test_lsl_by_31_carries :
    after (sup [(1, 3#32)]) 0x0980001F
      (fun t => supIs 1 0x80000000#32 t && znIs false true t && t.sup.flags.c) = true := by
  decide +kernel
theorem test_asr_keeps_sign :
    after (sup [(1, 0xFFFFFF0F#32)]) 0x09C00004
      (fun t => supIs 1 0xFFFFFFF0#32 t && znIs false true t && t.sup.flags.c) = true := by
  decide +kernel
theorem test_asr_by_40_is_sign :
    after (sup [(1, 0x80000000#32)]) 0x09C00028
      (fun t => supIs 1 0xFFFFFFFF#32 t && znIs false true t) = true := by
  decide +kernel
theorem test_rol_by_minus_8 :
    after (sup [(1, 0x12345678#32)]) 0x0B83FFF8
      (fun t => supIs 1 0x78123456#32 t && znIs false false t) = true := by
  decide +kernel
theorem test_brev_reverses :
    after (sup [(2, 0x12345678#32)] true) 0x0B048000
      (fun t => supIs 1 0x1E6A2C48#32 t && znIs true false t) = true := by
  decide +kernel
theorem test_popc_counts :
    after (sup [(2, 0xF0F00001#32)]) 0x0B448000
      (fun t => supIs 1 9#32 t && znIs false false t) = true := by
  decide +kernel
theorem test_mpy_low_word :
    after (sup [(1, 0xFFFFFFFF#32), (2, 0xFFFFFFFF#32)]) 0x0A048000
      (fun t => supIs 1 1#32 t && znIs false false t) = true := by
  decide +kernel
theorem test_mpyuhi_unsigned :
    after (sup [(1, 0xFFFFFFFF#32), (2, 0xFFFFFFFF#32)]) 0x0A848000
      (fun t => supIs 1 0xFFFFFFFE#32 t && znIs false true t) = true := by
  decide +kernel
theorem test_mpyshi_signed :
    after (sup [(1, 0xFFFFFFFE#32), (2, 0x40000000#32)]) 0x0AC48000
      (fun t => supIs 1 0xFFFFFFFF#32 t && znIs false true t) = true := by
  decide +kernel
theorem test_divu_by_minus_one :
    after (sup [(1, 0xFFFFFFFE#32)]) 0x0D03FFFF
      (fun t => supIs 1 0#32 t && znIs true false t) = true := by
  decide +kernel
theorem test_divu_by_zero_user_traps :
    after (usr [(1, 8#32)] false true false true) 0x0D048000
      (fun t => t.usr.gpr[1] == 8#32 && t.usr.flags == ⟨false, true, false, true⟩ &&
        t.readCcUsr false == 0x80A#32 && !t.cc.gie && t.sup.pc == 0x100#32) = true := by
  decide +kernel
theorem test_divs_rounds_toward_zero :
    after (sup [(1, 0xFFFFFFF9#32), (2, 2#32)]) 0x0D448000
      (fun t => supIs 1 0xFFFFFFFD#32 t && znIs false true t) = true := by
  decide +kernel
theorem test_divs_by_zero_supervisor_halts :
    after (sup []) 0x0D448000
      (fun t => t.halted && t.readCcSup == 0x800#32 && t.sup.pc == 0x100#32) = true := by
  decide +kernel
theorem test_ldilo_merges :
    after (sup [(1, 0xAAAA5555#32), (2, 0x1234BEEF#32)]) 0x0A448000
      (supIs 1 0xAAAABEEF#32) = true := by
  decide +kernel
theorem test_mov_pc_relative :
    after (sup []) 0x03C3C002 (supIs 0 0x103#32) = true := by
  decide +kernel
theorem test_mov_to_user_pc_does_not_jump :
    after (sup [(1, 0x345#32)]) 0x7BC44000
      (fun t => t.usr.pc == 0x345#32 && t.sup.pc == 0x101#32) = true := by
  decide +kernel
theorem test_ldi_sign_extends :
    after (sup []) 0x15C00000 (supIs 2 0xFFC00000#32) = true := by
  decide +kernel
theorem test_ldi_cc_user_traps :
    after (usr [] true true true true) 0x75800000
      (fun t => !t.cc.gie && t.readCcUsr false == 0x200#32 && t.usr.pc == 0x201#32 &&
        t.sup.pc == 0x100#32) = true := by
  decide +kernel
theorem test_sto_then_memory :
    after (sup [(0, 0x300#32), (1, 0xABCD#32)]) 0x0CC40000
      (fun t => t.mem.readWord 0x300 == 0xABCD#32 && t.mem.wf) = true := by
  decide +kernel
theorem test_sto_pc_stores_next :
    after (sup [(1, 0x300#32)]) 0x7CC44000
      (fun t => t.mem.readWord 0x300 == 0x101#32) = true := by
  decide +kernel
theorem test_lod_offset :
    after { sup [(13, 0x3FC#32)] with mem := Memory.writeWord [] 0x400 0x11223344#32 }
      0x14874004 (supIs 2 0x11223344#32) = true := by
  decide +kernel
theorem test_lod_pc_jumps :
    after { sup [] with mem := Memory.writeWord [] 0x101 0x4000#32 } 0x7C87C000
      (fun t => t.sup.pc == 0x4000#32) = true := by
  decide +kernel
theorem test_lock_arms :
    after (sup []) 0x7E800000 (fun t => t.lock == .armed && t.sup.pc == 0x101#32) = true := by
  decide +kernel
theorem test_noop_ignores_operand :
    after (sup [] true) 0x7E01FFFF
      (fun t => t.sup.pc == 0x101#32 && t.sup.flags == ⟨true, false, false, false⟩) = true := by
  decide +kernel
theorem test_break_user_traps :
    after (usr []) 0x7E401234
      (fun t => t.readCcUsr false == 0x80#32 && t.usr.pc == 0x200#32 && !t.cc.gie) = true := by
  decide +kernel
theorem test_break_supervisor_halts :
    after (sup []) 0x7E400000 (fun t => t.halted && t.sup.pc == 0x100#32) = true := by
  decide +kernel
theorem test_reserved18_cc_refused :
    refusedFor (sup []) 0x76000000 .reservedCcEncoding = true := by
  decide +kernel
theorem test_reserved19_cc_refused :
    refusedFor (sup []) 0x76400000 .reservedCcEncoding = true := by
  decide +kernel
theorem test_reserved1a_cc_refused :
    refusedFor (sup []) 0x76800000 .reservedCcEncoding = true := by
  decide +kernel
theorem test_fpadd_user_illegal :
    after (usr []) 0x0E048000
      (fun t => t.readCcUsr false == 0x100#32 && !t.cc.gie && !t.halted) = true := by
  decide +kernel
theorem test_fpsub_user_illegal :
    after (usr []) 0x0E448000
      (fun t => t.readCcUsr false == 0x100#32 && !t.cc.gie && !t.halted) = true := by
  decide +kernel
theorem test_fpmpy_user_illegal :
    after (usr []) 0x0E848000
      (fun t => t.readCcUsr false == 0x100#32 && !t.cc.gie && !t.halted) = true := by
  decide +kernel
theorem test_fpcvt_user_illegal :
    after (usr []) 0x0F048000
      (fun t => t.readCcUsr false == 0x100#32 && !t.cc.gie && !t.halted) = true := by
  decide +kernel
theorem test_fpint_user_illegal :
    after (usr []) 0x0F448000
      (fun t => t.readCcUsr false == 0x100#32 && !t.cc.gie && !t.halted) = true := by
  decide +kernel
theorem test_reserved1e_user_illegal :
    after (usr []) 0x07800000
      (fun t => t.readCcUsr false == 0x100#32 && !t.cc.gie && !t.halted) = true := by
  decide +kernel
theorem test_fpdiv_false_condition_supervisor_halts :
    after (sup []) 0x7ED48000
      (fun t => t.readCcSup == 0x100#32 && t.halted && t.sup.pc == 0x100#32) = true := by
  decide +kernel
theorem test_reserved1f_supervisor_halts :
    after (sup []) 0x07C00000
      (fun t => t.readCcSup == 0x100#32 && t.halted && t.sup.pc == 0x100#32) = true := by
  decide +kernel
theorem test_vliw_second_sees_first :
    after (sup [(1, 5#32), (2, 0xA#32)]) 0x88804851
      (fun t => supIs 1 6#32 t && supIs 2 0x10#32 t && t.sup.pc == 0x101#32) = true := by
  decide +kernel
theorem test_vliw_second_sees_loaded :
    after { sup [(2, 0x300#32), (3, 1#32)] with mem := Memory.writeWord [] 0x300 0x41#32 } 0x8C848C51
      (fun t => supIs 1 0x41#32 t && supIs 3 0x42#32 t && t.sup.pc == 0x101#32) = true := by
  decide +kernel
theorem test_vliw_first_half_fault_marks_phase :
    after (usr [(1, 8#32)]) 0x8D048C41
      (fun t => t.usr.gpr[3] == 0#32 && t.readCcUsr false == 0x2800#32) = true := by
  decide +kernel


/-- A user program with the interrupt line high that has come this far in a lock region, with two
words at the user PC. -/
def inRegion (l : LockState) (w1 w2 : Word) : State :=
  { usr [] with
    lock := l, inputs := [⟨true, false⟩]
    mem := Memory.writeWord (Memory.writeWord [] 0x200 w1) 0x201 w2 }

/-- The step takes the interrupt: the user PC has not moved. -/
def interrupted (s : State) : Bool :=
  match step s with
  | .next t => !t.cc.gie && t.usr.pc == s.usr.pc && t.lock == .off
  | _ => false

/-- An interrupt is not taken inside LOCK;LOD;ADD;STO and is taken at its end (95_test_vectors.md
1.3). -/
theorem test_interrupt_waits_for_lock :
    (match step (inRegion .armed 0x0C840000#32 0x08800001#32) with
      | .next t => t.cc.gie && decide (t.lock = .afterM)
      | _ => false) = true ∧
    (match step (inRegion .afterM 0x08800001#32 0x0CC40000#32) with
      | .next t => t.cc.gie && decide (t.lock = .afterMA)
      | _ => false) = true ∧
    (match step (inRegion .afterMA 0x0CC40000#32 0x7E000000#32) with
      | .next t => t.cc.gie && decide (t.lock = .off)
      | _ => false) = true ∧
    interrupted (inRegion .off 0x7E000000#32 0x7E000000#32) = true := by decide +kernel

/-- LOCK;LOD;X and LOCK;LOD;NOOP;X with X = ADD $1,PC and NOOP: the interrupt comes before X; and LOCK;
LOD;BREAK.Z with Z clear, before a STO: BREAK is a NOOP inside the region (R226, R243). -/
theorem test_lock_released_before_other :
    interrupted (inRegion .afterM 0x78800001#32 0x7E000000#32) = true ∧
    interrupted (inRegion .afterMA 0x7E000000#32 0x7E000000#32) = true ∧
    (match step (inRegion .afterM 0x7E500000#32 0x0CC40000#32) with
      | .next t => t.cc.gie && decide (t.lock = .afterMA)
      | _ => false) = true := by decide +kernel
/-- A high interrupt line does nothing in supervisor mode (95_test_vectors.md, "ADD $1,R1 with irq
high"), and waits for the one word of a single-step ("one instruction ran although irq was high"). -/
theorem test_interrupt_ignored :
    (match step { (sup []).placeWord 0x08800001#32 with inputs := [⟨true, false⟩] } with
      | .next t => supIs 1 1#32 t && t.sup.pc == 0x101#32 && !t.cc.gie
      | _ => false) = true ∧
    (let s := (usr []).placeWord 0x08800001#32
     match step { s with inputs := [⟨true, false⟩], cc := { s.cc with step := true } } with
      | .next t => t.usr.gpr[1] == 1#32 && t.usr.pc == 0x201#32 && !t.cc.gie && !t.cc.step
      | _ => false) = true := by decide +kernel
/-- After LOCK, {LOD (R2),PC | STO R1,(R2)} jumps and has executed one M, so that a second may follow;
{LOD (R2),R1 | STO R1,(R2)} has executed two (R121, R226). -/
theorem test_lock_skips_second_half :
    (match step (inRegion .armed 0b1_1111_10010_000_1_0010_0001_10011_1_0010#32 0#32) with
      | .next t => t.cc.gie && decide (t.lock = .afterM)
      | _ => false) = true ∧
    (match step (inRegion .armed 0b1_0001_10010_000_1_0010_0001_10011_1_0010#32 0#32) with
      | .next t => t.cc.gie && decide (t.lock = .off)
      | _ => false) = true := by decide +kernel
theorem test_rtu_clears_causes :
    after { sup [] true with cc := { Status.reset with uTrap := true, uDive := true, vph := true } }
      0x70C00020 (fun t => t.cc.gie && t.readCcUsr false == 0#32 && t.sup.pc == 0x101#32 &&
        t.sup.flags == ⟨true, false, false, false⟩) = true := by decide +kernel

/-! ### Witnesses: for every statement with hypotheses, a case that meets them together -/

/-- The hypothesis of DecodeOfEncodeIsIdentity, at a bounded field. -/
theorem test_witness_decodeOfEncode :
    (Instr.fpsub .z (.gpr 13) (.reg .pc 0x3FFF#14)).wf = true := by decide

/-- Supervisor mode with ADD $1,R1 in memory at the PC. -/
def addNext : State := (sup [(1, 5#32)]).placeWord 0x08800001#32

/-- The hypotheses of StepRunsTheDecodedInstruction. -/
theorem test_witness_stepRuns :
    addNext.runsWord = true ∧ addNext.busError .fetch addNext.pc = false ∧
      addNext.holdsNext (.add .always (.gpr 1) (.imm 1#18)) :=
  ⟨by decide +kernel, by decide +kernel, by rfl, by decide +kernel⟩

/-- The hypotheses of FetchReturnsMemoryOrCachedWord: the first part, with an empty and with a stale
cache, and the second part. -/
theorem test_witness_fetch :
    addNext.busError .fetch addNext.pc = false ∧ addNext.icache = [] ∧
      ({ addNext with icache := [(0x100, 7#32)] } : State).staleWords 0x100 = [7#32] ∧
      addNext.mem.wf = true ∧ addNext.busError .write 0x300#32 = false ∧
      addNext.mem.readWord (addNext.busAddr 0x300#32) ≠ 1#32 := by decide +kernel

/-- A platform that answers every access to word 0x2000 with a bus error. -/
def errorConfig : Config := { Config.default with busErrors := [⟨0x2000, 0x2000, true, true, true⟩] }

/-- User mode and supervisor mode with the PC in the region that answers with a bus error. -/
def userAtError : State := { (usr []).setPc .usr 0x2000#32 with cfg := errorConfig }
def supAtError : State := { (sup [(0, 0x2000#32)]).setPc .sup 0x2000#32 with cfg := errorConfig }

/-- The hypotheses of FetchBusErrorIsIllegalInstruction, in both modes. -/
theorem test_witness_fetchBusError :
    (userAtError.runsWord = true ∧ userAtError.busError .fetch userAtError.pc = true ∧
      userAtError.cc.gie = true) ∧
    (supAtError.runsWord = true ∧ supAtError.busError .fetch supAtError.pc = true ∧
      supAtError.cc.gie = false) := by decide +kernel

/-- User mode with the interrupt line high, running and asleep. -/
def userIrq : State := { usr [] with inputs := [⟨true, false⟩] }
def asleepIrq : State := { userIrq with cc := { userIrq.cc with sleep := true } }

/-- The hypotheses of InterruptEntersSupervisor, in both cases. -/
theorem test_witness_interrupt :
    (userIrq.input.reset = false ∧ userIrq.halted = false ∧ userIrq.cc.gie = true ∧
      userIrq.input.irq = true ∧ userIrq.cc.step = false ∧ userIrq.lock = .off) ∧
    (asleepIrq.input.reset = false ∧ asleepIrq.halted = false ∧ asleepIrq.cc.gie = true ∧
      asleepIrq.input.irq = true ∧ asleepIrq.cc.sleep = true) := by decide +kernel

/-- The hypotheses of IdleStepChangesNothing, halted and asleep. -/
theorem test_witness_idle :
    ((sup []).halt.input.reset = false ∧ (sup []).halt.halted = true) ∧
    (let s := { asleepIrq with inputs := [] }
     s.input.reset = false ∧ s.cc.gie = true ∧ s.cc.sleep = true ∧ s.input.irq = false) := by
  decide +kernel

/-- The hypothesis of ResetInputRestartsTheMachine, in a halted state. -/
theorem test_witness_resetInput :
    (({ sup [] with halted := true, inputs := [⟨false, true⟩] } : State)).input.reset = true := by
  decide +kernel

/-- User mode with STEP set and a word at the user PC. -/
def stepping (w : Word) (breakEn : Bool) : State :=
  { (usr []).placeWord w with cc := { Status.reset with gie := true, step := true, breakEn := breakEn } }

/-- The step answers a next state with the property `p`. -/
def stepNext (s : State) (p : State → Bool) : Bool :=
  match step s with
  | .next t => p t
  | .fault _ => false
  | .refused _ => false

/-- The instruction answers a next state with the property `p`. -/
def execNext (i : Instr) (s : State) (p : State → Bool) : Bool :=
  match exec i s with
  | .next t => p t
  | .fault _ => false
  | .refused _ => false

/-- The hypotheses of StepRunsTheDecodedInstruction on a high interrupt line: supervisor mode, a stepped
word; and a low line in user mode. -/
theorem test_witness_noInterrupt :
    (let s : State := { sup [] with inputs := [⟨true, false⟩] }
     s.input.reset = false ∧ s.halted = false ∧ s.cc.gie = false ∧ s.input.irq = true) ∧
    (let s : State := { stepping 0x7E000000#32 false with inputs := [⟨true, false⟩] }
     s.input.reset = false ∧ s.halted = false ∧ s.cc.sleep = false ∧ s.cc.step = true ∧
      s.input.irq = true) ∧
    (let s := usr []
     s.input.reset = false ∧ s.halted = false ∧ s.cc.sleep = false ∧ s.cc.step = false ∧
      s.input.irq = false) := by decide +kernel

/-- The hypotheses of StepRunsTheDecodedInstruction in user mode with STEP set and clear: a NOOP, and
with STEP set a refused word and one that ends in user mode. -/
theorem test_witness_stepRuns_user :
    (let s := stepping 0x7E000000#32 false
     s.runsWord = true ∧ s.busError .fetch s.pc = false ∧ s.holdsNext (.noop .always 0#19) ∧
      s.cc.gie = true ∧ s.cc.step = true ∧
      execNext (.noop .always 0#19) (s.tick.beginWord (.noop .always 0#19))
        (fun u => u.cc.gie && !u.halted) = true) ∧
    (let s := stepping 0x76000000#32 false
     s.runsWord = true ∧ s.holdsNext (.reserved18Cc .always 0#19)) ∧
    (let s := (usr []).placeWord 0x7E000000#32
     s.runsWord = true ∧ s.busError .fetch s.pc = false ∧ s.holdsNext (.noop .always 0#19) ∧
      s.cc.gie = true ∧ s.cc.step = false) :=
  ⟨⟨by decide +kernel, by decide +kernel, ⟨by rfl, by decide +kernel⟩, by decide +kernel,
      by decide +kernel, by decide +kernel⟩,
    ⟨by decide +kernel, ⟨by rfl, by decide +kernel⟩⟩,
    ⟨by decide +kernel, by decide +kernel, ⟨by rfl, by decide +kernel⟩, by decide +kernel⟩⟩

/-- The hypotheses of SteppedWordReturnsToSupervisor: a NOOP, and a BREAK that halts. -/
theorem test_witness_stepped :
    (let s := stepping 0x7E000000#32 false
     s.runsWord && s.cc.gie && s.cc.step && stepNext s (fun t => !t.cc.gie && !t.cc.step)) = true ∧
    (let s := stepping 0x7E400000#32 true
     s.runsWord && s.cc.gie && s.cc.step && stepNext s (fun t => t.halted)) = true := by
  decide +kernel

/-- The hypotheses of EveryStepKeepsInvariant, in a user state other than reset's. -/
theorem test_witness_invariant :
    ((usr [(1, 5#32)]).placeWord 0x08800001#32).Inv ∧
      stepNext ((usr [(1, 5#32)]).placeWord 0x08800001#32) (fun _ => true) = true :=
  ⟨⟨by decide +kernel, by decide +kernel, by decide +kernel, by decide +kernel, by decide +kernel,
    by decide +kernel, by decide +kernel⟩, by decide +kernel⟩

/-- The hypotheses of SupervisorExceptionBitsSurvive, all four bits set. -/
theorem test_witness_supervisorBits :
    (let s := { addNext with
        cc := { Status.reset with sIll := true, sBusErr := true, sDive := true, sFpe := true } }
     !s.input.reset && stepNext s (fun _ => true)) = true := by decide +kernel

/-- The hypotheses of FailedConditionOnlyAdvancesPc. -/
theorem test_witness_failedCondition :
    conditionOf (.brk .z 0#19) = some .z ∧ (sup []).condHolds .z = false := by decide +kernel

/-- The hypothesis of AddAndSubtract, BitwiseLogic, CompareAndTest, RotateLeft, BitReverse,
PopulationCount, Multiplies, LoadLowerHalf and LockTakesTheBus: a condition that holds, the one that
lets flags change and one that does not. -/
theorem test_witness_conditionHolds :
    (sup [(1, 5#32)]).condHolds .always = true ∧ (sup [(1, 5#32)]).condHolds .nz = true := by
  decide +kernel

/-- The hypotheses of LogicalShifts and of ArithmeticShift: the amounts 0, 1, 31, 32 and the
largest, which lie under one clause each. -/
theorem test_witness_shifts :
    (sup []).condHolds .always = true ∧ ((sup []).opB (.imm 0#18)).toNat = 0 ∧
      (1 ≤ ((sup []).opB (.imm 1#18)).toNat ∧ ((sup []).opB (.imm 1#18)).toNat ≤ 31) ∧
      (1 ≤ ((sup []).opB (.imm 31#18)).toNat ∧ ((sup []).opB (.imm 31#18)).toNat ≤ 31) ∧
      32 ≤ ((sup []).opB (.imm 32#18)).toNat ∧ 32 ≤ ((sup []).opB (.imm 0x3FFFF#18)).toNat := by
  decide +kernel

/-- The hypotheses of Divides: a quotient that fits, and the one that does not. -/
theorem test_witness_divides :
    (let s := sup [(1, 7#32), (2, 0x80000000#32)]
     s.condHolds .always = true ∧ s.opB (.imm 0x3FFFF#18) ≠ 0#32 ∧
      ¬(s.readReg (.gpr 1) = 0x80000000#32 ∧ s.opB (.imm 0x3FFFF#18) = 0xFFFFFFFF#32) ∧
      (s.readReg (.gpr 2) = 0x80000000#32 ∧ s.opB (.imm 0x3FFFF#18) = 0xFFFFFFFF#32)) := by
  decide +kernel

/-- The hypotheses of MultiplyAndDivideLaws. -/
theorem test_witness_divideLaws :
    (2#32 : Word) ≠ 0#32 ∧
      ¬((0x80000000#32 : Word) = 0x80000000#32 ∧ (2#32 : Word) = 0xFFFFFFFF#32) := by decide

/-- The hypotheses of DataInstructionFaults: a zero divisor, a load and a store with a bus error. -/
theorem test_witness_dataFaults :
    supAtError.condHolds .always = true ∧ supAtError.opB (.imm 0#18) = 0#32 ∧
      supAtError.busError .read (supAtError.opB (.reg (.gpr 0) 0#14)) = true ∧
      supAtError.busError .write (supAtError.opB (.reg (.gpr 0) 0#14)) = true := by
  decide +kernel

/-- The hypotheses of MoveWithinActiveSet in both modes, of MoveFromUserSet and of MoveToUserSet. -/
theorem test_witness_moves :
    ((usr []).condHolds .always = true ∧ (usr []).cc.gie = true) ∧
    ((sup []).condHolds .always = true ∧ (sup []).cc.gie = false) := by decide +kernel

/-- The hypotheses of LoadWord and of StoreWord. -/
theorem test_witness_memory :
    addNext.condHolds .always = true ∧ addNext.busError .read (addNext.opB (.imm 0x300#18)) = false ∧
      addNext.busError .write (addNext.opB (.imm 0x300#18)) = false ∧ addNext.mem.wf = true := by
  decide +kernel

/-- The hypotheses of BreakTrapsOrHalts: user mode with break disabled and enabled, supervisor
mode. -/
theorem test_witness_break :
    ((usr []).condHolds .always = true ∧ (usr []).cc.gie = true ∧ (usr []).cc.breakEn = false) ∧
    (let s := stepping 0x7E400000#32 true
     s.condHolds .always = true ∧ s.cc.gie = true ∧ s.cc.breakEn = true) ∧
    ((sup []).condHolds .always = true ∧ (sup []).cc.gie = false) := by decide +kernel

/-- The hypotheses of StatusRegisterReads, SupervisorWritesStatus, UserWritesStatus,
ReturnWaitAndHalt and TrapAndUserSleep: both modes, and written values with bits 14, 5 and 4 of every
kind a clause names. -/
theorem test_witness_status :
    (sup []).cc.gie = false ∧ (usr []).cc.gie = true ∧
      ((0x4020#32 : Word).getLsbD 14 = true ∧ (0x4020#32 : Word).getLsbD 5 = true) ∧
      ((0x10#32 : Word).getLsbD 14 = false ∧ (0x10#32 : Word).getLsbD 5 = false ∧
        (0x10#32 : Word).getLsbD 4 = true) ∧
      ((0#32 : Word).getLsbD 5 = false ∧ (0#32 : Word).getLsbD 4 = false) ∧
      ((0x30#32 : Word).getLsbD 5 = true ∧ (0x30#32 : Word).getLsbD 4 = true) ∧
      ((0x20#32 : Word).getLsbD 5 = true ∧ (0x20#32 : Word).getLsbD 4 = false) := by
  decide +kernel

/-- The hypothesis of CompactDisabledIsIllegal. -/
theorem test_witness_compactDisabled :
    ({ sup [] with cfg := { Config.default with optVliw := false } } : State).cfg.optVliw = false := by
  decide +kernel

/-- The hypotheses of CompactRefusals, each alternative by a half of its own, with the ends of its
range of opcodes. -/
theorem test_witness_compactRefusals :
    (sup []).cfg.optVliw = true ∧ (sup []).cfg.vliwLdi = none ∧
      (⟨.gpr 0, 0x16#5, false, 0#4⟩ : Half).isLdi = true ∧
      (⟨.gpr 0, 0x17#5, true, 0#4⟩ : Half).isLdi = true ∧
      (let h : Half := ⟨.gpr 0, 0x0f#5, false, 0#4⟩
       h.op = 0x0f#5 ∧ h.sel = false) ∧
      (let h : Half := ⟨.cc, 0x00#5, false, 0#4⟩
       h.dr = .cc ∧ h.op.toNat ≤ 0x0f) ∧
      (let h : Half := ⟨.cc, 0x0f#5, true, 0#4⟩
       h.dr = .cc ∧ h.op.toNat ≤ 0x0f) ∧
      (let h : Half := ⟨.cc, 0x12#5, true, 0#4⟩
       h.dr = .cc ∧ h.op = 0x12#5) ∧
      (let h : Half := ⟨.cc, 0x14#5, true, 0#4⟩
       h.dr = .cc ∧ 0x14 ≤ h.op.toNat ∧ h.op.toNat ≤ 0x17) ∧
      (let h : Half := ⟨.cc, 0x1a#5, true, 0#4⟩
       h.dr = .cc ∧ 0x14 ≤ h.op.toNat ∧ h.op.toNat ≤ 0x1a) ∧
      (let h : Half := ⟨.pc, 0x19#5, true, 0#4⟩
       h.dr = .pc ∧ h.op = 0x19#5) ∧
      (let h : Half := ⟨.pc, 0x1a#5, true, 0#4⟩
       h.dr = .pc ∧ h.op = 0x1a#5) ∧
      (let h : Half := ⟨.cc, 0x18#5, true, 0#4⟩
       h.dr = .cc ∧ 0x18 ≤ h.op.toNat ∧ h.op.toNat ≤ 0x1a ∧
        (sup []).halfCompletes (firstCond 0#3) ⟨.gpr 1, 0x02#5, false, 1#4⟩ = true) := by
  decide +kernel

/-- The hypotheses of CompactHalvesRunInOrder. For its first part: {ADD $1,R1 | LOD (R2),R3}, first
halves LOD, STO, DIVU and DIVS that complete, and ADD.Z $1,PC with Z clear; {CMP $1,CC | NOOP} for
both parts. -/
theorem test_witness_compactOrder :
    (sup []).cfg.optVliw = true ∧ plainHalf ⟨.gpr 1, 0x02#5, false, 1#4⟩ = true ∧
      isLdiOrMovImmediate ⟨.gpr 3, 0x12#5, true, 2#4⟩ = false ∧
      (sup []).halfCompletes .always ⟨.gpr 1, 0x12#5, true, 2#4⟩ = true ∧
      (sup []).halfCompletes .always ⟨.cc, 0x13#5, true, 2#4⟩ = true ∧
      (sup []).halfCompletes .always ⟨.gpr 1, 0x14#5, false, 1#4⟩ = true ∧
      (sup []).halfCompletes .always ⟨.gpr 1, 0x15#5, false, 0xF#4⟩ = true ∧
      (sup []).halfCompletes (firstCond 2#3) ⟨.pc, 0x02#5, false, 1#4⟩ = true ∧
      plainHalf ⟨.cc, 0x10#5, false, 1#4⟩ = true ∧
      isLdiOrMovImmediate ⟨.pc, 0x18#5, false, 0#4⟩ = false ∧
      plainHalf ⟨.pc, 0x18#5, false, 0#4⟩ = true := by
  decide +kernel

/-- The hypotheses of CompactJumpSkipsSecondHalf, at both ends of the range of opcodes and for LOD,
DIVU and DIVS. -/
theorem test_witness_compactJump :
    (sup []).cfg.optVliw = true ∧ (sup []).condHolds (firstCond 0#3) = true ∧
      (sup []).halfJumps ⟨.pc, 0x00#5, false, 2#4⟩ = true ∧
      (sup []).halfJumps ⟨.pc, 0x0f#5, true, 2#4⟩ = true ∧
      (sup []).halfJumps ⟨.pc, 0x12#5, true, 2#4⟩ = true ∧
      (sup []).halfJumps ⟨.pc, 0x14#5, false, 1#4⟩ = true ∧
      (sup []).halfJumps ⟨.pc, 0x15#5, false, 1#4⟩ = true ∧
      (sup []).halfAllowed ⟨.gpr 2, 0x02#5, false, 1#4⟩ = true := by decide +kernel

/-- The hypotheses of CompactFirstHalfFaultSetsPhase: FPADD into R1 and the ends of the range of
opcodes above it, DIVU and DIVS by 0, LOD and STO with a bus error. -/
theorem test_witness_compactFault :
    (sup []).cfg.optVliw = true ∧
      (sup []).halfRaises .always ⟨.gpr 1, 0x18#5, true, 2#4⟩ .illegalInstruction = true ∧
      (sup []).halfRaises .always ⟨.gpr 1, 0x1b#5, false, 0#4⟩ .illegalInstruction = true ∧
      (sup []).halfRaises .always ⟨.cc, 0x1f#5, true, 0#4⟩ .illegalInstruction = true ∧
      (sup []).halfRaises .always ⟨.gpr 1, 0x14#5, true, 2#4⟩ .divideByZero = true ∧
      (sup []).halfRaises .always ⟨.pc, 0x15#5, false, 0#4⟩ .divideByZero = true ∧
      supAtError.halfRaises .always ⟨.gpr 1, 0x12#5, true, 0#4⟩ .busError = true ∧
      supAtError.halfRaises .always ⟨.cc, 0x13#5, true, 0#4⟩ .busError = true ∧
      (sup []).halfAllowed ⟨.gpr 2, 0x02#5, false, 1#4⟩ = true ∧
      (sup []).cc.gie = false ∧ (usr []).cc.gie = true := by decide +kernel

/-- A layout for load immediates in the selector and operand bits, and one whose first immediate
takes in the VCND field. -/
def layouts (conditional : Bool) : List LdiLayout :=
  [⟨[18, 17, 16, 15, 14], [4, 3, 2, 1, 0], conditional⟩,
    ⟨[22, 21, 20, 19, 18, 17, 16, 15, 14], [5, 4, 3, 2, 1, 0], conditional⟩]

/-- Supervisor mode under a layout. -/
def underLayout (l : LdiLayout) : State :=
  { sup [] with cfg := { Config.default with vliwLdi := some l } }

/-- {LDI -2,R1 | ADD $1,R1} under the first layout: the immediate is sign-extended (R119). -/
theorem test_vliw_load_immediate :
    execNext (.vliw ⟨.gpr 1, 0x16#5, true, 0xE#4⟩ 0#3 ⟨.gpr 1, 0x02#5, false, 1#4⟩)
      (underLayout ⟨[18, 17, 16, 15, 14], [4, 3, 2, 1, 0], false⟩)
      (fun t => supIs 1 0xFFFFFFFF#32 t && t.sup.pc == 0x101#32) = true := by decide +kernel

/-- The hypotheses of CompactLoadImmediate: lengths 1 and 32 and a bit above the length for its first
part; for the others both halves, layouts with and without the VCND field, a condition that holds
and one that fails. -/
theorem test_witness_compactLoadImmediate :
    (0 < [31].length ∧ [31].length ≤ 32 ∧ 0 < (List.range 32).length ∧
      (List.range 32).length ≤ 32) ∧
    ((layouts true ++ layouts false).all (fun l =>
      (underLayout l).cfg.optVliw && (underLayout l).cfg.vliwLdi == some l)) = true ∧
    (layouts true).map (fun l => l.first.any (fun q => decide (19 ≤ q) && decide (q ≤ 21))) =
      [false, true] ∧
    (⟨.gpr 1, 0x16#5, true, 0xE#4⟩ : Half).isLdi = true ∧
    (⟨.pc, 0x17#5, true, 0xE#4⟩ : Half).isLdi = true ∧
    (sup []).condHolds (firstCond 2#3) = false ∧ (sup []).condHolds (firstCond 0#3) = true ∧
    (sup []).condHolds (secondCond 6#3) = false ∧ (sup []).condHolds (secondCond 2#3) = true ∧
    ((layouts true).all (fun l => (underLayout l).halfAllowed ⟨.gpr 2, 0x02#5, false, 1#4⟩ &&
      (underLayout l).halfAllowed ⟨.pc, 0x17#5, true, 0xE#4⟩)) = true ∧
    isLdiOrMovImmediate ⟨.gpr 2, 0x02#5, false, 1#4⟩ = false ∧
    (sup []).halfCompletes (firstCond 6#3) ⟨.gpr 2, 0x02#5, false, 1#4⟩ = true := by
  decide +kernel

/-- The hypotheses of LockRegionIsBounded: M, an A, words that are neither, a compact word. -/
theorem test_witness_lockRegion :
    (inRegion .armed 0#32 0#32).lock = .armed ∧ (inRegion .afterM 0#32 0#32).lock = .afterM ∧
      (inRegion .afterMA 0#32 0#32).lock = .afterMA ∧
      isMemory (.lod .always (.gpr 1) (.imm 0#18)) = true ∧
      (usr []).isLockAlu (.brk .always 0#19) = true ∧
      (usr []).isLockAlu (.add .z .pc (.imm 0#18)) = true ∧
      (usr []).isLockAlu (.add .nz .pc (.imm 0#18)) = false ∧
      (usr []).isLockAlu (.lock .always 0#19) = false ∧
      isCompact (.lock .always 0#19) = false ∧ isMemory (.lock .always 0#19) = false ∧
      (usr []).cfg.optVliw = true ∧ (⟨.gpr 1, 0x12#5, true, 2#4⟩ : Half).isLdi = false ∧
      (usr []).condHolds (firstCond 0#3) = true := by
  decide +kernel

/-- The hypotheses of InterruptsWaitForLockRegion: a word that is a LOD, an ADD before a STO and before
a NOOP, a LOCK, and in each case the rest. -/
theorem test_witness_interruptsWait :
    (∀ l ∈ [LockState.armed, .afterM, .afterMA],
      (let s := inRegion l 0x0C840000#32 0#32
       s.input.reset = false ∧ s.halted = false ∧ s.cc.gie = true ∧ s.cc.sleep = false ∧
        s.cc.step = false ∧ s.input.irq = true ∧ s.busError .fetch s.pc = false ∧
        s.busError .fetch (s.pc + 1#32) = false)) ∧
    (let s := inRegion .afterM 0x0C840000#32 0#32
     s.holdsNext (.lod .always (.gpr 1) (.reg (.gpr 0) 0#14)) ∧ s.lock ≠ .off ∧
      beginsWithMemory s.cfg (.lod .always (.gpr 1) (.reg (.gpr 0) 0#14)) = true) ∧
    (let s := inRegion .afterM 0x08800001#32 0x0CC40000#32
     s.holdsNext (.add .always (.gpr 1) (.imm 1#18)) ∧
      s.isLockAlu (.add .always (.gpr 1) (.imm 1#18)) = true ∧
      s.holdsAt (s.pc + 1#32) (.sto .always (.gpr 1) (.reg (.gpr 0) 0#14)) ∧
      beginsWithMemory s.cfg (.sto .always (.gpr 1) (.reg (.gpr 0) 0#14)) = true) ∧
    (let s := inRegion .afterM 0x7E800000#32 0#32
     s.holdsNext (.lock .always 0#19) ∧ isCompact (.lock .always 0#19) = false ∧
      isMemory (.lock .always 0#19) = false ∧ s.isLockAlu (.lock .always 0#19) = false ∧
      s.beginsWithLockAlu (.lock .always 0#19) = false ∧
      beginsWithMemory s.cfg (.lock .always 0#19) = false) ∧
    (let h1 : Half := ⟨.gpr 1, 0x02#5, false, 1#4⟩
     let h2 : Half := ⟨.gpr 1, 0x13#5, true, 2#4⟩
     let s := inRegion .afterM (compactWord h1 0#3 h2) 0#32
     s.holdsNext (.vliw h1 0#3 h2) ∧ s.busError .fetch s.pc = false ∧
      s.beginsWithLockAlu (.vliw h1 0#3 h2) = true ∧ h2.op = 0x13#5) ∧
    (let h1 : Half := ⟨.gpr 1, 0x02#5, false, 1#4⟩
     let s := inRegion .afterM (compactWord h1 0#3 h1) 0#32
     s.holdsNext (.vliw h1 0#3 h1) ∧ s.beginsWithLockAlu (.vliw h1 0#3 h1) = true) :=
  ⟨by decide +kernel, ⟨⟨by rfl, by decide +kernel⟩, by decide +kernel⟩,
    ⟨⟨by rfl, by decide +kernel⟩, by decide +kernel, ⟨by rfl, by decide +kernel⟩,
      by decide +kernel⟩,
    ⟨⟨by rfl, by decide +kernel⟩, by decide +kernel⟩,
    ⟨⟨by rfl, by decide +kernel⟩, by decide +kernel⟩,
    ⟨⟨by rfl, by decide +kernel⟩, by decide +kernel⟩⟩

/-- The hypotheses of UserStepKeepsSupervisorState and of UserStepIgnoresSupervisorSet. -/
theorem test_witness_userStep :
    (let s := (usr [(1, 5#32)]).placeWord 0x08800001#32
     s.cc.gie && !s.input.reset && stepNext s (fun _ => true)) = true := by decide +kernel

/-- The hypotheses of SupervisorReachesUserSetOnlyByMov and of OnlyStoresChangeMemory. -/
theorem test_witness_execNext :
    (sup []).cc.gie = false ∧ movesToUser (.add .always (.gpr 1) (.imm 1#18)) = false ∧
      storesMemory (.add .always (.gpr 1) (.imm 1#18)) = false ∧
      execNext (.add .always (.gpr 1) (.imm 1#18)) (sup []) (fun _ => true) = true := by
  decide +kernel

/-- The hypotheses of UserModeEnteredOnlyThroughStatus: OR $GIE,CC. -/
theorem test_witness_userModeEntered :
    (sup []).cc.gie = false ∧
      execNext (.or .always .cc (.imm 0x20#18)) (sup []) (fun t => t.cc.gie) = true := by
  decide +kernel

end Sys2Proof.Tests
end

