-- ==== Sys2Proof/Proofs/Conditions.lean ====
section
/-! The CND field: each condition as a function of the four flags, and the table of the eight
conditions (30_encoding.md R111). -/

namespace Sys2Proof.Machine

/-! What each condition reads of the flags. -/

@[simp] theorem Flags.holds_always (f : Flags) : f.holds .always = true := rfl
@[simp] theorem Flags.holds_lt (f : Flags) : f.holds .lt = f.n := rfl
@[simp] theorem Flags.holds_z (f : Flags) : f.holds .z = f.z := rfl
@[simp] theorem Flags.holds_nz (f : Flags) : f.holds .nz = !f.z := rfl
@[simp] theorem Flags.holds_gt (f : Flags) : f.holds .gt = (!f.n && !f.z) := rfl
@[simp] theorem Flags.holds_ge (f : Flags) : f.holds .ge = !f.n := rfl
@[simp] theorem Flags.holds_c (f : Flags) : f.holds .c = f.c := rfl
@[simp] theorem Flags.holds_v (f : Flags) : f.holds .v = f.v := rfl

/-- Settles O16, condition by condition: LT, Z, C and V are a flag as it stands; NZ and GE are a
negated flag, and GT is the conjunction of two. -/
theorem conditionTable : Obligations.ConditionTable := by
  unfold Obligations.ConditionTable
  intro f
  refine ⟨f.holds_always, ?lt, ?z, ?nz, ?gt, ?ge, ?c, ?v⟩
  case lt => rw [f.holds_lt]
  case z => rw [f.holds_z]
  case nz => rw [f.holds_nz, Bool.not_eq_true']
  case gt => rw [f.holds_gt, Bool.and_eq_true, Bool.not_eq_true', Bool.not_eq_true']
  case ge => rw [f.holds_ge, Bool.not_eq_true']
  case c => rw [f.holds_c]
  case v => rw [f.holds_v]

end Sys2Proof.Machine
end

