-- ==== Sys2Proof/Proofs/BitReverse.lean ====
section
/-! BREV: the bits of the reversed word, and the instruction as a write of DR that leaves the flags
alone (41_shift_bit.md R165). -/

namespace Sys2Proof.Machine

/-- Bit i of the reversed word is bit 31 - i of the word (00_scope.md R12). -/
theorem getLsbD_bitrev (b : Word) {i : Nat} (hi : i < 32) :
    (bitrev b).getLsbD i = b.getLsbD (31 - i) := by
  rw [bitrev, BitVec.getLsbD_reverse, BitVec.getMsbD_eq_getLsbD, decide_eq_true hi, Bool.true_and]

/-- BREV as a whole word is the template of the instructions that write DR and no flag. -/
theorem exec_brev (cnd : Cond) (dr : Reg) (b : OpB) (s : State) :
    exec (.brev cnd dr b) s = s.finish (writeEffect (fun _ opb => bitrev opb) cnd dr b s) := rfl

/-- Settles O24: the result is `bitrev` of Operand B, whose bits `getLsbD_bitrev` gives; that it is
moved into DR, whichever register DR is, and that the flags stay is the template's own law. -/
theorem bitReverse : Obligations.BitReverse := by
  unfold Obligations.BitReverse
  intro cnd dr b s hc
  have hbits : ∀ i, i < 32 → (bitrev (s.opB b)).getLsbD i = (s.opB b).getLsbD (31 - i) :=
    fun _ hi => getLsbD_bitrev (s.opB b) hi
  have hmoves : moves (.brev cnd dr b) s dr (bitrev (s.opB b)) :=
    moves_of_writeEffect (exec_brev cnd dr b s) hc rfl
  exact ⟨bitrev (s.opB b), hbits, hmoves⟩

end Sys2Proof.Machine
end

