-- ==== Sys2Proof/Proofs/LoadImmediate.lean ====
section
/-! LDI: the unconditional write of the sign-extended immediate to DR (43_move_immediate.md R205). -/

namespace Sys2Proof.Machine

/-- LDI as a whole word reads neither a condition nor the old DR: it is the register write of its
sign-extended immediate. -/
theorem exec_ldi (dr : Reg) (imm : BitVec 23) (s : State) :
    exec (.ldi dr imm) s = s.finish (s.writeReg dr (imm.signExtend 32)) := rfl

/-- Settles O31: LDI is a register write with no draw before it, so the law of register writes gives
the result, the flags and the frame for each form of DR; `BitVec.signExtend` is the word of the
immediate's signed value. -/
theorem loadImmediate : Obligations.LoadImmediate := by
  unfold Obligations.LoadImmediate
  intro dr imm s
  have hvalue : imm.signExtend 32 = BitVec.ofInt 32 imm.toInt := rfl
  have hexec : exec (.ldi dr imm) s =
      s.finish ((s.drawIf false).writeReg dr (BitVec.ofInt 32 imm.toInt)) := by
    rw [exec_ldi, hvalue]
    rfl
  exact moves_of_writeReg false hexec

end Sys2Proof.Machine
end

