-- ==== Sys2Proof/Proofs/Noop.lean ====
section
/-! NOOP: the advance of the active PC and nothing else (45_special_fp.md R241). -/

namespace Sys2Proof.Machine

/-- Setting the PC of the active set changes nothing else. -/
theorem jumpedTo_setPc (s : State) (v : Word) : s.jumpedTo (s.setPc s.bank v) v := by
  have hgprs : s.gprsKept (s.setPc s.bank v) := fun b =>
    ⟨fun j => by rw [State.setPc_regs_gpr], State.setPc_regs_up s s.bank v b⟩
  have hflags : s.flagsKept (s.setPc s.bank v) := State.setPc_regs_flags s s.bank v
  have hpc : s.pcAt (s.setPc s.bank v) v := ⟨by simp, by simp⟩
  have hrest : s.restKept (s.setPc s.bank v) := by simp [State.restKept]
  exact ⟨hgprs, hflags, hpc, hrest⟩

/-- NOOP as a whole word has no effect but its end: no condition is tested and no operand bit is
read (R129). -/
theorem exec_noop (cnd : Cond) (x : BitVec 19) (s : State) :
    exec (.noop cnd x) s = s.finish (.done s) := rfl

/-- Settles O39: the end of a word without an effect sets the active PC to the next word, and
setting the PC keeps all the rest. -/
theorem noopOnlyAdvancesPc : Obligations.NoopOnlyAdvancesPc := by
  unfold Obligations.NoopOnlyAdvancesPc
  intro cnd x s
  have hnext : exec (.noop cnd x) s = .next (s.setPc s.bank (s.pc + 1#32)) := by
    rw [exec_noop, finish_done]
  exact ⟨_, hnext, jumpedTo_setPc s (s.pc + 1#32)⟩

end Sys2Proof.Machine
end

