-- ==== Sys2Proof/Proofs/Machine.lean ====
section
/-! ## Encoding: the two round trips (30_encoding.md R102 to R104, R115, R125, R128)

From an instruction: the fields of the word the encoder builds are the ones it was given
(`drField_stdWord` and its kin), so that the opcode map leads back to the constructor. From a word: the
fields rebuild the word (`stdWord_fields` and its kin), whichever row of the opcode map it is. -/

namespace Sys2Proof

/-- The register of a DR field restricted to R0 to R13 is one of them. -/
theorem Reg.exists_gpr {r : Reg} (h : r.isGpr = true) : ∃ j, r = .gpr j := by
  cases r with
  | gpr j => exact ⟨j, rfl⟩
  | cc => cases h
  | pc => cases h

/-- The word of a well-formed instruction decodes to that instruction. Well-formedness is used where an
opcode is shared: there DR tells FPADD, FPSUB and FPMPY from the rows with DR = CC and DR = PC. -/
theorem decodeWord_encodeWord {i : Instr} (h : i.wf = true) : decodeWord (encodeWord i) = i := by
  cases i with
  | vliw h1 v h2 =>
    simp only [encodeWord, decodeWord, compactWord_bit31, if_true, decodeCompact_compactWord]
  | mov cnd dr a br bu off =>
    simp only [encodeWord, decodeWord, movWord_bit31, Bool.false_eq_true, if_false]
    simp [decodeSingle, decodeMov_movWord]
  | ldi dr imm =>
    simp only [encodeWord, decodeWord, ldiWord_bit31, Bool.false_eq_true, if_false]
    rcases opField_ldiWord dr imm with ho | ho <;> simp [decodeSingle, ho]
  | fpadd cnd dr b | fpsub cnd dr b | fpmpy cnd dr b =>
    obtain ⟨j, rfl⟩ := Reg.exists_gpr h
    simp [encodeWord, decodeWord_stdWord, decodeSingle, decodeShared]
  | noop cnd x | brk cnd x | lock cnd x | reserved18Cc cnd x | reserved19Cc cnd x
  | reserved1aCc cnd x =>
    simp [encodeWord, decodeWord_stdWord, decodeSingle, decodeShared]
  | _ => simp [encodeWord, decodeWord_stdWord, decodeSingle]

/-- Settles O1: the four bytes of the word decode to the instruction of the word and leave nothing
over. -/
theorem decodeOfEncodeIsIdentity : Obligations.DecodeOfEncodeIsIdentity := by
  unfold Obligations.DecodeOfEncodeIsIdentity
  intro i h
  have hbytes : decode (encode i) = .ok (decodeWord (encodeWord i), []) := by
    simpa [encode] using decode_wordBytes (encodeWord i) []
  rw [hbytes, decodeWord_encodeWord h]

/-- The instruction is well-formed and `w` is its word. -/
def IsWordOf (w : Word) (i : Instr) : Prop := i.wf = true ∧ encodeWord i = w

/-- An opcode field is the opcode its number names. -/
theorem opField_of_toNat {w : Word} {n : Nat} (h : (opField w).toNat = n) :
    opField w = BitVec.ofNat 5 n := by
  subst h
  exact BitVec.eq_of_toNat_eq (by simp)

/-- A word with bit 31 clear is the Standard format word of its fields, Operand B read and written
again. -/
theorem stdWord_opBField {w : Word} (h : w.getLsbD 31 = false) {op : BitVec 5}
    (ho : opField w = op) : stdWord op (cndField w) (drField w) (opBField w).bits = w := by
  rw [← ho, opBField, OpB.bits_ofBits]
  exact stdWord_fields h

/-- A word of an opcode shared by three rows is the word of the row its DR field selects. -/
theorem isWordOf_decodeShared {w : Word} {op : BitVec 5} {p c : Cond → BitVec 19 → Instr}
    {g : Cond → Reg → OpB → Instr} (h : w.getLsbD 31 = false) (ho : opField w = op)
    (hp : ∀ cnd x, IsWordOf (stdWord op cnd .pc x) (p cnd x))
    (hc : ∀ cnd x, IsWordOf (stdWord op cnd .cc x) (c cnd x))
    (hg : ∀ cnd j b, IsWordOf (stdWord op cnd (.gpr j) b.bits) (g cnd (.gpr j) b)) :
    IsWordOf w (decodeShared w p c g) := by
  have e : stdWord op (cndField w) (drField w) (w.extractLsb' 0 19) = w := ho ▸ stdWord_fields h
  have eb : stdWord op (cndField w) (drField w) (opBField w).bits = w := stdWord_opBField h ho
  unfold decodeShared
  cases hd : drField w with
  | pc => rw [hd] at e; simpa only [e] using hp (cndField w) (w.extractLsb' 0 19)
  | cc => rw [hd] at e; simpa only [e] using hc (cndField w) (w.extractLsb' 0 19)
  | gpr j => rw [hd] at eb; simpa only [eb] using hg (cndField w) j (opBField w)

/-- A word with bit 31 clear is the word of the row of the opcode map it decodes to: MOV and LDI have
formats of their own, three opcodes are shared, the others are in the Standard format. -/
theorem isWordOf_decodeSingle {w : Word} (h : w.getLsbD 31 = false) :
    IsWordOf w (decodeSingle w) := by
  unfold decodeSingle
  split
  case h_16 e => exact ⟨rfl, movWord_fields h (opField_of_toNat e)⟩
  case h_23 e => exact ⟨rfl, ldiWord_fields h (ldiPrefix_of_opField (.inl (opField_of_toNat e)))⟩
  case h_24 e => exact ⟨rfl, ldiWord_fields h (ldiPrefix_of_opField (.inr (opField_of_toNat e)))⟩
  case h_25 e | h_26 e | h_27 e =>
    exact isWordOf_decodeShared h (opField_of_toNat e) (fun _ _ => ⟨rfl, rfl⟩)
      (fun _ _ => ⟨rfl, rfl⟩) (fun _ _ _ => ⟨rfl, rfl⟩)
  case h_32 =>
    have e : (opField w).toNat = 0x1f := by
      have hlt := (opField w).isLt
      simp only [imp_false] at *
      omega
    exact ⟨rfl, stdWord_opBField h (opField_of_toNat e)⟩
  all_goals
    rename_i e
    exact ⟨rfl, stdWord_opBField h (opField_of_toNat e)⟩

/-- Settles O2: bit 31 tells a compact word, which its halves rebuild, from a row of the opcode map. -/
theorem encodeOfDecodeIsIdentity : Obligations.EncodeOfDecodeIsIdentity := by
  unfold Obligations.EncodeOfDecodeIsIdentity
  intro w
  unfold decodeWord
  split
  · rename_i h
    exact ⟨rfl, compactWord_fields h⟩
  · rename_i h
    exact isWordOf_decodeSingle (by simpa using h)

/-- Settles O3: the seven words, evaluated. -/
theorem sampleWordsDecode : Obligations.SampleWordsDecode := by
  unfold Obligations.SampleWordsDecode
  decide

end Sys2Proof
end

section
/-! ## What a half of a compact word stands for (30_encoding.md R116 to R120) -/

namespace Sys2Proof

/-- Operand B of the Standard-equivalent word of a half: a register of the active set with offset 0, or
the four bits sign-extended. -/
def Half.opB (h : Half) : OpB :=
  if h.sel then .reg (Reg.ofBits h.f) 0#14 else .imm (h.f.signExtend 18)

/-- The half has no form of its own: it is no MOV with sel = 1. -/
def Half.isStd (h : Half) : Prop := h.op = 0x0f#5 → h.sel = false

/-- A half of another opcode than MOV is in the Standard form. -/
theorem Half.isStd_of_ne {h : Half} (ho : h.op ≠ 0x0f#5) : h.isStd := fun e => absurd e ho

/-- A half in the Standard form stands for the Standard format word of its fields. -/
theorem expandHalf_of_isStd (cnd : Cond) {h : Half} (hm : h.isStd) :
    expandHalf cnd h = stdWord h.op cnd h.dr h.opB.bits := by
  unfold expandHalf Half.opB
  split
  · rename_i hs
    have hno : h.isMov = false := by
      rw [Half.isMov, beq_eq_false_iff_ne]
      intro e
      rw [hm e] at hs
      cases hs
    rw [hno]
    simp [OpB.bits]
  · rfl

/-- A MOV with sel = 1 stands for a move within the active set (30_encoding.md R120). -/
theorem expandHalf_mov (cnd : Cond) {h : Half} (ho : h.op = 0x0f#5) (hs : h.sel = true) :
    expandHalf cnd h = movWord cnd h.dr false (Reg.ofBits h.f) false 0#13 := by
  simp [expandHalf, hs, Half.isMov, ho]

/-- The word of a half has the half's opcode, DR and effective condition, whatever its form. -/
theorem fields_expandHalf (cnd : Cond) (h : Half) :
    opField (expandHalf cnd h) = h.op ∧ drField (expandHalf cnd h) = h.dr ∧
      cndField (expandHalf cnd h) = cnd := by
  by_cases hm : h.isStd
  · rw [expandHalf_of_isStd cnd hm]
    simp
  · obtain ⟨ho, hs⟩ : h.op = 0x0f#5 ∧ h.sel = true := by simpa [Half.isStd] using hm
    rw [expandHalf_mov cnd ho hs]
    simp [ho]

theorem halfInstr_of_isStd (cnd : Cond) {h : Half} (hm : h.isStd) :
    halfInstr cnd h = decodeSingle (stdWord h.op cnd h.dr h.opB.bits) := by
  rw [halfInstr, expandHalf_of_isStd cnd hm]

theorem halfInstr_mov (cnd : Cond) {h : Half} (ho : h.op = 0x0f#5) (hs : h.sel = true) :
    halfInstr cnd h = .mov cnd h.dr false (Reg.ofBits h.f) false 0#13 := by
  rw [halfInstr, expandHalf_mov cnd ho hs]
  simp [decodeSingle, decodeMov_movWord]

/-! The opcodes whose halves the statements name one by one. -/

section Named

variable {h : Half} (cnd : Cond)

theorem halfInstr_sub (ho : h.op = 0x00#5) : halfInstr cnd h = .sub cnd h.dr h.opB := by
  rw [halfInstr_of_isStd cnd (Half.isStd_of_ne (by simp [ho]))]
  simp [decodeSingle, ho]

theorem halfInstr_add (ho : h.op = 0x02#5) : halfInstr cnd h = .add cnd h.dr h.opB := by
  rw [halfInstr_of_isStd cnd (Half.isStd_of_ne (by simp [ho]))]
  simp [decodeSingle, ho]

theorem halfInstr_cmp (ho : h.op = 0x10#5) : halfInstr cnd h = .cmp cnd h.dr h.opB := by
  rw [halfInstr_of_isStd cnd (Half.isStd_of_ne (by simp [ho]))]
  simp [decodeSingle, ho]

theorem halfInstr_tst (ho : h.op = 0x11#5) : halfInstr cnd h = .tst cnd h.dr h.opB := by
  rw [halfInstr_of_isStd cnd (Half.isStd_of_ne (by simp [ho]))]
  simp [decodeSingle, ho]

theorem halfInstr_lod (ho : h.op = 0x12#5) : halfInstr cnd h = .lod cnd h.dr h.opB := by
  rw [halfInstr_of_isStd cnd (Half.isStd_of_ne (by simp [ho]))]
  simp [decodeSingle, ho]

theorem halfInstr_sto (ho : h.op = 0x13#5) : halfInstr cnd h = .sto cnd h.dr h.opB := by
  rw [halfInstr_of_isStd cnd (Half.isStd_of_ne (by simp [ho]))]
  simp [decodeSingle, ho]

theorem halfInstr_divu (ho : h.op = 0x14#5) : halfInstr cnd h = .divu cnd h.dr h.opB := by
  rw [halfInstr_of_isStd cnd (Half.isStd_of_ne (by simp [ho]))]
  simp [decodeSingle, ho]

theorem halfInstr_divs (ho : h.op = 0x15#5) : halfInstr cnd h = .divs cnd h.dr h.opB := by
  rw [halfInstr_of_isStd cnd (Half.isStd_of_ne (by simp [ho]))]
  simp [decodeSingle, ho]

theorem halfInstr_noop (ho : h.op = 0x18#5) (hd : h.dr = .pc) :
    halfInstr cnd h = .noop cnd h.opB.bits := by
  rw [halfInstr_of_isStd cnd (Half.isStd_of_ne (by simp [ho]))]
  simp [decodeSingle, decodeShared, ho, hd]

end Named

namespace Machine

/-- The value of a half's Operand B is its operand as the statements read it. -/
theorem opB_half (s : State) (h : Half) : s.opB h.opB = s.halfOperand h := by
  unfold Half.opB State.halfOperand
  cases h.sel with
  | true => simp [State.opB]
  | false =>
    exact congrArg (BitVec.ofInt 32) (BitVec.toInt_signExtend_of_le (x := h.f) (by decide))

/-! ### The effect of a half by the kind of its opcode -/

/-- A result written to DR, after an update of the active flags and draws of free values. -/
inductive WritesResult (s : State) (dr : Reg) : Event → Prop where
  | mk (f : Flags) (n : Nat) (r : Word) :
      WritesResult s dr (({ s.withRegs s.bank { s.regs s.bank with flags := f } with
        fresh := n } : State).writeReg dr r)

/-- Every register write after a draw is such a result. -/
theorem writesResult_writeReg (s : State) (dr : Reg) (n : Nat) (r : Word) :
    WritesResult s dr (({ s with fresh := n } : State).writeReg dr r) := by
  have e : ({ s with fresh := n } : State) =
      { s.withRegs s.bank { s.regs s.bank with flags := (s.regs s.bank).flags } with
        fresh := n } := by
    cases h : s.bank <;> simp [State.withRegs, State.regs]
  rw [e]
  exact .mk _ _ _

theorem writesResult_aluEffect (f : Word → Word → AluResult) {cnd : Cond} (dr : Reg) (b : OpB)
    {s : State} (m : Bool) (hc : s.condHolds cnd = true) :
    WritesResult s dr (aluEffect f cnd dr b (s.drawIf m)) := by
  simp only [aluEffect, State.drawIf_condHolds, hc, if_true]
  generalize f _ _ = res
  obtain ⟨fl, n, e⟩ := setFlagsGated_eq (s.drawIf m) cnd dr res.flags
  rw [e, drawIf_eq s m]
  exact .mk fl n res.value

theorem writesResult_writeEffect (f : Word → Word → Word) {cnd : Cond} (dr : Reg) (b : OpB)
    {s : State} (hc : s.condHolds cnd = true) : WritesResult s dr (writeEffect f cnd dr b s) := by
  simp only [writeEffect, hc, if_true]
  exact writesResult_writeReg s dr s.fresh _

/-- A move within the active set writes DR. -/
theorem writesResult_movEffect {cnd : Cond} (dr br : Reg) (off : BitVec 13) {s : State}
    (hc : s.condHolds cnd = true) :
    WritesResult s dr (movEffect cnd dr false br false off s) := by
  have hf : s.isForeign (s.movBank false) = false := by
    cases hg : s.cc.gie <;> simp [State.isForeign, State.movBank, hg]
  simp only [movEffect, hc, if_true, hf, Bool.false_and, State.drawIf, State.writeMov,
    Bool.false_eq_true, if_false]
  exact writesResult_writeReg s dr s.fresh _

/-- A half of one of the sixteen computing and moving opcodes, its condition holding, writes a result
to DR. -/
theorem writesResult_half {cnd : Cond} {h : Half} {s : State} (ho : h.op.toNat ≤ 0x0f)
    (hm : h.op = 0x0f#5 → h.sel = true) (hc : s.condHolds cnd = true) :
    WritesResult s h.dr (singleEffect (halfInstr cnd h) s) := by
  by_cases hmov : h.op = 0x0f#5
  · rw [halfInstr_mov cnd hmov (hm hmov)]
    exact writesResult_movEffect h.dr _ _ hc
  · have alu : ∀ f, WritesResult s h.dr (aluEffect f cnd h.dr h.opB s) :=
      fun f => writesResult_aluEffect f h.dr h.opB false hc
    have hne : h.op.toNat ≠ 0x0f := fun e => hmov (BitVec.eq_of_toNat_eq e)
    rw [halfInstr_of_isStd cnd (Half.isStd_of_ne hmov)]
    unfold decodeSingle
    simp only [opField_stdWord, decodeStd_stdWord]
    split
    case h_10 => exact writesResult_writeEffect _ h.dr h.opB hc
    case h_13 => exact writesResult_writeEffect (fun _ opb => bitrev opb) h.dr h.opB hc
    case h_14 => exact alu fun _ opb => popcResult opb
    case h_32 => simp only [imp_false] at *; omega
    all_goals first | omega | exact alu _

/-- An instruction whose condition fails does nothing (30_encoding.md R112). -/
theorem singleEffect_of_fails {i : Instr} {cnd : Cond} {s : State} (hi : conditionOf i = some cnd)
    (hc : s.condHolds cnd = false) : singleEffect i s = .done s := by
  have alu : ∀ f dr b, aluEffect f cnd dr b s = .done s := by
    intro f dr b
    simp [aluEffect, hc]
  have hand : ∀ p : Bool, ((s.condHolds cnd && p) = true) = False := by
    simp [hc]
  cases i with
  | noop k x => rfl
  | brk k x => cases hi; simp [singleEffect, brkEffect, hc]
  | lock k x => cases hi; simp [singleEffect, lockEffect, hc]
  | ldilo k dr b | brev k dr b =>
    cases hi
    simp [singleEffect, ldiloEffect, brevEffect, writeEffect, hc]
  | mov k dr a br bu off => cases hi; simp [singleEffect, movEffect, hc]
  | cmp k dr b | tst k dr b =>
    cases hi
    simp [singleEffect, cmpEffect, tstEffect, compareEffect, hc]
  | lod k dr b => cases hi; simp [singleEffect, lodEffect, hc]
  | sto k dr b => cases hi; simp [singleEffect, stoEffect, hc]
  | divu k dr b => cases hi; simp only [singleEffect, divuEffect, hand, if_false, alu]
  | divs k dr b =>
    cases hi
    simp only [singleEffect, divsEffect, hc, Bool.false_and]
    exact alu _ dr b
  | sub k dr b | and k dr b | add k dr b | or k dr b | xor k dr b | lsr k dr b | lsl k dr b
  | asr k dr b | mpy k dr b | mpyuhi k dr b | mpyshi k dr b | rol k dr b =>
    cases hi
    exact alu _ dr b
  | popc k dr b =>
    cases hi
    exact alu (fun _ opb => popcResult opb) dr b
  | _ => cases hi

/-- The condition of a one-instruction word of an opcode up to DIVS is that of its CND field. -/
theorem conditionOf_decodeSingle {w : Word} (h : (opField w).toNat ≤ 0x15) :
    conditionOf (decodeSingle w) = some (cndField w) := by
  unfold decodeSingle
  split
  case h_32 => simp only [imp_false] at *; omega
  all_goals first | omega | rfl

/-- A half of an opcode up to DIVS whose effective condition fails does nothing. -/
theorem singleEffect_half_of_fails {cnd : Cond} {h : Half} {s : State} (ho : h.op.toNat ≤ 0x15)
    (hc : s.condHolds cnd = false) : singleEffect (halfInstr cnd h) s = .done s := by
  obtain ⟨hop, -, hcnd⟩ := fields_expandHalf cnd h
  refine singleEffect_of_fails (cnd := cnd) ?_ hc
  rw [halfInstr, conditionOf_decodeSingle (by rw [hop]; exact ho), hcnd]

/-! ### What a first half that completes has done -/

/-- The completed effect `t` is one that does not write register 14: an effect of some instruction that
names no register 14, does not move to the user set, and stores only if `stores` holds. -/
def DoneWithoutCc (stores : Prop) (s t : State) : Prop :=
  ∃ j, drOf j ≠ some .cc ∧ movesToUser j = false ∧ (storesMemory j = true → stores) ∧
    EffectOf j s (.done t)

/-- Such an effect leaves the status bits alone. -/
theorem DoneWithoutCc.cc_eq {stores : Prop} {s t : State} (h : DoneWithoutCc stores s t) :
    t.cc = s.cc := by
  obtain ⟨j, hd, hm, -, he⟩ := h
  cases he with
  | cc v n h => exact absurd h hd
  | foreign r v n hg h => rw [hm] at h; cases h
  | _ => rfl

/-- A compare does not write the DR it names. -/
theorem doneWithoutCc_compare {stores : Prop} {f : Word → Word → AluResult} {cnd : Cond} {dr : Reg}
    {b : OpB} {s t : State} (h : compareEffect f cnd dr b s = .done t) :
    DoneWithoutCc stores s t :=
  ⟨.noop cnd 0#19, by simp [drOf], rfl, (fun e => by cases e),
    h ▸ effectOf_compareEffect (.noop cnd 0#19) f cnd dr b s⟩

/-- A store does not write the DR it names. -/
theorem doneWithoutCc_sto {cnd : Cond} {dr : Reg} {b : OpB} {s t : State}
    (h : stoEffect cnd dr b s = .done t) : DoneWithoutCc True s t := by
  refine ⟨.sto cnd .pc b, by simp [drOf], rfl, fun _ => trivial, ?_⟩
  unfold stoEffect at h
  split at h
  · cases hw : s.memWrite (s.opB b) (s.readReg dr) with
    | none => simp [hw] at h
    | some u =>
      obtain ⟨hb, rfl⟩ := State.memWrite_cases hw
      simp only [hw, Event.done.injEq] at h
      exact h ▸ .store _ _ rfl hb
  · cases h
    exact effectOf_nothing _ s s.fresh

/-- A one-instruction word of an opcode that writes no DR does not write register 14, whatever its DR
field. -/
theorem doneWithoutCc_decodeSingle {w : Word} {s t : State}
    (ho : (opField w).toNat = 0x10 ∨ (opField w).toNat = 0x11 ∨ (opField w).toNat = 0x13 ∨
      0x18 ≤ (opField w).toNat)
    (ht : singleEffect (decodeSingle w) s = .done t) :
    DoneWithoutCc (opField w = 0x13#5) s t := by
  have shared : ∀ {p c : Cond → BitVec 19 → Instr} {g : Cond → Reg → OpB → Instr},
      (∀ cnd x, drOf (p cnd x) = some .pc ∧ movesToUser (p cnd x) = false ∧
        storesMemory (p cnd x) = false) →
      (∀ cnd x, singleEffect (c cnd x) s = reservedCcEffect) →
      (∀ cnd dr b, singleEffect (g cnd dr b) s = illegalEffect s) →
      singleEffect (decodeShared w p c g) s = .done t →
      DoneWithoutCc (opField w = 0x13#5) s t := by
    intro p c g hp hc hg
    refine decodeShared_elim (P := fun i => singleEffect i s = .done t →
      DoneWithoutCc (opField w = 0x13#5) s t) (fun cnd x h => ?_) (fun cnd x h => ?_)
      (fun cnd dr b h => ?_)
    · obtain ⟨hd, hm, hs⟩ := hp cnd x
      exact ⟨p cnd x, by simp [hd], hm, by simp [hs], h ▸ singleEffect_effectOf _ s⟩
    · rw [hc] at h; cases h
    · rw [hg] at h; cases h
  unfold decodeSingle at ht
  split at ht
  case h_17 => exact doneWithoutCc_compare (f := subResult) ht
  case h_18 => exact doneWithoutCc_compare (f := andResult) ht
  case h_20 e =>
    obtain ⟨j, hd, hm, -, he⟩ := doneWithoutCc_sto ht
    exact ⟨j, hd, hm, fun _ => opField_of_toNat e, he⟩
  case h_25 | h_26 | h_27 =>
    exact shared (fun _ _ => ⟨rfl, rfl, rfl⟩) (fun _ _ => rfl) (fun _ _ _ => rfl) ht
  case h_28 | h_29 | h_30 | h_31 | h_32 => cases ht
  all_goals
    clear ht
    omega

/-- A first half that is not refused (30_encoding.md R121, U9) does not write register 14: it does not
name it, or its opcode writes no DR. -/
theorem doneWithoutCc_firstHalf {word : Word} {positions : LdiLayout → List Nat} {cnd : Cond}
    {h : Half} {s t : State} (hw : halfWritesCc h = false)
    (ht : halfEffect word positions cnd h s = .done t) :
    DoneWithoutCc (h.op = 0x13#5) s t := by
  by_cases hcc : h.dr = .cc
  · have hno : halfWritesDr h = false := by simpa [halfWritesCc, hcc] using hw
    simp only [halfWritesDr, Bool.or_eq_false_iff, decide_eq_false_iff_not, beq_eq_false_iff_ne,
      BitVec.toNat_ne] at hno
    obtain ⟨⟨⟨⟨h0f, h12⟩, h14⟩, h15⟩, hldi⟩ := hno
    simp only [halfEffect, hldi, Bool.false_eq_true, if_false] at ht
    have hnot : ∀ o : BitVec 5, o.extractLsb' 1 4 = 0xb#4 → h.op ≠ o := by
      rintro o ho rfl
      simp [Half.isLdi, ho] at hldi
    have h16 : h.op.toNat ≠ 0x16 := BitVec.toNat_ne.1 (hnot 0x16#5 (by decide))
    have h17 : h.op.toNat ≠ 0x17 := BitVec.toNat_ne.1 (hnot 0x17#5 (by decide))
    have hop := (fields_expandHalf cnd h).1
    have := doneWithoutCc_decodeSingle (w := expandHalf cnd h) (by
      rw [hop]
      simp only [BitVec.toNat_ofNat] at h12 h14 h15
      omega) ht
    rwa [hop] at this
  · obtain ⟨j, hd, hm, hs, he⟩ := halfEffect_effectOf word positions cnd h s
    exact ⟨j, by simp [hd, hcc], hm, hs, ht ▸ he⟩

end Machine
end Sys2Proof
end

section
/-! ## Everything a word can do

`EffectOf` says what one instruction or one half can do before the step ends. Here the same is said of a
whole word, compact ones included, after the step has ended: `exec_ends`. The rules of the whole machine
are read off its eight cases. -/

namespace Sys2Proof.Machine

/-- Where the last instruction of the word `i`, which began in `s`, begins: in `s` itself, or after a
first half that completed. Such a half does not write register 14, so that the mode and the status
bits are still those of `s`. -/
structure State.Reaches (i : Instr) (s u : State) : Prop where
  cfg : u.cfg = s.cfg
  cc : u.cc = s.cc
  halted : u.halted = s.halted
  other : u.regs s.bank.other = s.regs s.bank.other
  icache : ∀ e, e ∈ s.icache → e ∈ u.icache
  memOk : s.memOk = true → u.memOk = true
  mem : storesMemory i = false → u.mem = s.mem

/-- The state a word `i` that began in `s` ends in, where its last instruction began in `u`. The PC
that advances is that of the set active in `s`, whatever the mode has become (00_scope.md R15). -/
inductive Ends (i : Instr) (s u : State) : State → Prop where
  /-- An exception; a compact word may have marked its first half. -/
  | raised (x : Exc) (u' : State) (h : u' = u ∨ u' = u.markPhase) : Ends i s u (u'.takeException x)
  /-- A BREAK. -/
  | broke : Ends i s u u.takeBreak
  /-- A jump. -/
  | jump (v : Word) (n : Nat) : Ends i s u (({ u with fresh := n } : State).setPc s.bank v)
  /-- General registers and flags of the active set. -/
  | plain (g : Vector Word 14) (f : Flags) (n : Nat) :
      Ends i s u (({ u.withRegs u.bank { u.regs u.bank with gpr := g, flags := f } with
        fresh := n } : State).setPc s.bank (s.pc + 1#32))
  /-- A write of register 14 of the active set. -/
  | cc (v : Word) (n : Nat) (h : namesCc i = true) :
      Ends i s u (({ u.writeCc v with fresh := n } : State).setPc s.bank (s.pc + 1#32))
  /-- A supervisor MOV to the user set. -/
  | foreign (r : Reg) (v : Word) (n : Nat) (hg : u.cc.gie = false) (h : movesToUser i = true) :
      Ends i s u (({ u.writeForeign r v with fresh := n } : State).setPc s.bank (s.pc + 1#32))
  /-- A store. -/
  | store (a v : Word) (h : storesMemory i = true) :
      Ends i s u ((u.storeWord (u.busAddr a) v).setPc s.bank (s.pc + 1#32))
  /-- A LOCK. -/
  | lock : Ends i s u (({ u with lock := .armed } : State).setPc s.bank (s.pc + 1#32))

/-- Nothing has happened yet; the phase is no part of what a word reaches. -/
theorem State.reaches_withPhase (i : Instr) (s : State) (p : Phase) :
    s.Reaches i { s with phase := p } :=
  ⟨rfl, rfl, rfl, rfl, fun _ h => h, fun h => h, fun _ => rfl⟩

/-- The mode of the state reached is that of the state begun in. -/
theorem State.Reaches.bank {i : Instr} {s u : State} (h : s.Reaches i u) : u.bank = s.bank := by
  simp only [State.bank, h.cc]

/-- An effect of the instruction `j` that is the last of the word `i`, ended, is an end of the word. -/
theorem ends_of_effectOf {i j : Instr} {s u t : State} {e : Event} (he : EffectOf j u e)
    (hcc : drOf j = some .cc → namesCc i = true)
    (hmov : movesToUser j = true → movesToUser i = true)
    (hsto : storesMemory j = true → storesMemory i = true)
    (ht : s.finish e = .next t ∨ s.finishCompact e = .next t) : Ends i s u t := by
  have same : (∀ x v, e ≠ .raised x v) → s.finish e = .next t := by
    intro hne
    rcases ht with ht | ht
    · exact ht
    · cases e with
      | raised x v => exact absurd rfl (hne x v)
      | _ => exact ht
  cases he with
  | refused r => cases same (by simp)
  | raised x =>
    rcases ht with ht | ht
    · cases ht
      exact .raised x u (.inl rfl)
    · cases ht
      exact .raised x _ (.inr rfl)
  | broke h =>
    cases same (by simp)
    exact .broke
  | jump v n h =>
    cases same (by simp)
    exact .jump v n
  | plain g f n =>
    cases same (by simp)
    exact .plain g f n
  | cc v n h =>
    cases same (by simp)
    exact .cc v n (hcc h)
  | foreign r v n hg h =>
    cases same (by simp)
    exact .foreign r v n hg (hmov h)
  | store a v h hb =>
    cases same (by simp)
    exact .store a v (hsto h)
  | lock =>
    cases same (by simp)
    exact .lock

/-- The second half of a compact word begins after general registers and flags of the active set, a
store, or a LOCK. -/
theorem reaches_of_firstHalf {h1 h2 : Half} {v : BitVec 3} {s u : State}
    (h : DoneWithoutCc (h1.op = 0x13#5) { s with phase := .first } u) :
    s.Reaches (.vliw h1 v h2) { u with phase := .second } := by
  have hcc : u.cc = s.cc := h.cc_eq
  obtain ⟨j, hd, hm, hs, he⟩ := h
  cases he with
  | plain g f n =>
    refine ⟨rfl, rfl, rfl, ?_, fun _ h => h, fun h => h, fun _ => rfl⟩
    exact State.withRegs_regs_other s s.bank _
  | cc v n h => exact absurd h hd
  | foreign r v n hg h => rw [hm] at h; cases h
  | store a w h hb =>
    refine ⟨rfl, rfl, rfl, rfl, fun e he => ?_, fun h => ?_, fun h => ?_⟩
    · simp only [State.storeWord]
      split
      · exact he
      · exact List.mem_cons_of_mem _ he
    · exact State.storeWord_memOk (s := s) a w h
    · simp [storesMemory, hs ‹_›] at h
  | lock => exact ⟨rfl, rfl, rfl, rfl, fun _ h => h, fun h => h, fun _ => rfl⟩

/-- The word is not refused for its first half writing register 14. -/
theorem halfWritesCc_of_not_refused {layout : Option LdiLayout} {h1 h2 : Half}
    (h : compactRefusal layout h1 h2 = none) : halfWritesCc h1 = false := by
  unfold compactRefusal at h
  split at h
  · cases h
  · split at h
    · cases h
    · split at h
      · cases h
      · rename_i hw
        simpa using hw

/-- Everything a compact word can do once it is not refused. -/
theorem compact_ends {h1 h2 : Half} {v : BitVec 3} {s t : State} (hw : halfWritesCc h1 = false)
    (h : s.finishCompact (compactEffect h1 v h2 s) = .next t) :
    ∃ u, s.Reaches (.vliw h1 v h2) u ∧ Ends (.vliw h1 v h2) s u t := by
  have names : ∀ {j : Instr} {h : Half}, h = h1 ∨ h = h2 → drOf j = some h.dr →
      drOf j = some .cc → namesCc (.vliw h1 v h2) = true := by
    rintro j h (rfl | rfl) hd hcc <;>
    · rw [hd] at hcc
      simp [namesCc, Option.some.inj hcc]
  unfold compactEffect at h
  simp only at h
  generalize firstHalfCond s.cfg.vliwLdi h1 v = c1 at h
  generalize secondHalfCond s.cfg.vliwLdi h1 v = c2 at h
  obtain ⟨j1, hd1, hm1, hs1, he1⟩ := halfEffect_effectOf (compactWord h1 v h2) LdiLayout.first c1 h1
    { s with phase := .first }
  cases hf : halfEffect (compactWord h1 v h2) LdiLayout.first c1 h1 { s with phase := .first } with
  | done u =>
    rw [hf] at h
    obtain ⟨j2, hd2, hm2, hs2, he2⟩ := halfEffect_effectOf (compactWord h1 v h2) LdiLayout.second c2
      h2 { u with phase := .second }
    exact ⟨_, reaches_of_firstHalf (doneWithoutCc_firstHalf hw hf),
      ends_of_effectOf he2 (names (.inr rfl) hd2) (by simp [hm2])
        (fun e => by simp [storesMemory, hs2 e]) (.inr h)⟩
  | _ =>
    refine ⟨_, State.reaches_withPhase _ s .first, ends_of_effectOf he1 (names (.inl rfl) hd1)
      (by simp [hm1]) (fun e => by simp [storesMemory, hs1 e]) (.inr ?_)⟩
    rw [hf] at h ⊢
    exact h

/-- Everything a word can do. -/
theorem exec_ends {i : Instr} {s t : State} (h : exec i s = .next t) :
    ∃ u, s.Reaches i u ∧ Ends i s u t := by
  cases hc : isCompact i with
  | true =>
    cases i with
    | vliw h1 v h2 =>
      rcases execVliw_cases h with ⟨-, rfl⟩ | ⟨-, hr, hf⟩
      · exact ⟨s, State.reaches_withPhase _ s s.phase, .raised .illegalInstruction s (.inl rfl)⟩
      · exact compact_ends (halfWritesCc_of_not_refused hr) hf
    | _ => cases hc
  | false =>
    have hv : ∀ h1 v h2, i ≠ .vliw h1 v h2 := by
      rintro h1 v h2 rfl
      cases hc
    have names : drOf i = some .cc → namesCc i = true := by
      cases i with
      | vliw h1 v h2 => cases hc
      | _ => simp [namesCc]
    rw [exec_eq_finish i s hv] at h
    exact ⟨s, State.reaches_withPhase _ s s.phase,
      ends_of_effectOf (singleEffect_effectOf i s) names id id (.inl h)⟩

end Sys2Proof.Machine
end

section
/-! ## The mode changes as updates of the state

What taking an exception, a BREAK, marking the phase and each write of register 14 come to, once the mode
and the bits they look at are known. -/

namespace Sys2Proof.Machine

/-- Marking the phase sets VPH in user mode, and does nothing else. -/
theorem markPhase_cases (s : State) :
    s.markPhase = s ∨
      (s.cc.gie = true ∧ s.markPhase = { s with cc := { s.cc with vph := true } }) := by
  unfold State.markPhase
  split
  · rename_i hb _
    exact .inr ⟨(s.bank_eq_usr).1 hb, rfl⟩
  · exact .inl rfl

/-- A fault in user mode: a cause bit, a user PC, a draw, and the entry to supervisor mode. -/
theorem takeException_usr {s : State} (x : Exc) (h : s.cc.gie = true) :
    ∃ pc n, s.takeException x = ({ s with
      cc := s.cc.setUserCause x, usr := { s.usr with pc := pc }, fresh := n } :
        State).trapToSupervisor := by
  have hb : s.bank = .usr := s.bank_eq_usr.2 h
  simp only [State.takeException, hb]
  rw [drawIf_eq]
  exact ⟨_, _, rfl⟩

/-- A BREAK: a trap from user mode with break disabled, else a halt. -/
theorem takeBreak_cases (s : State) :
    (s.cc.gie = true ∧ s.cc.breakEn = false ∧
      s.takeBreak = ({ s with cc := { s.cc with uBreak := true } } : State).trapToSupervisor) ∨
    ((s.cc.gie = true → s.cc.breakEn = true) ∧ s.takeBreak = s.halt) := by
  cases hg : s.cc.gie with
  | false =>
    have hb : s.bank = .sup := s.bank_eq_sup.2 hg
    exact .inr ⟨(fun h => by cases h), by simp only [State.takeBreak, hb]⟩
  | true =>
    have hb : s.bank = .usr := s.bank_eq_usr.2 hg
    cases he : s.cc.breakEn with
    | false => exact .inl ⟨rfl, rfl, by simp [State.takeBreak, hb, he]⟩
    | true => exact .inr ⟨fun _ => rfl, by simp [State.takeBreak, hb, he]⟩

/-- A user program's write of register 14 (10_state.md R47): a trap, a sleep, or the flags and bits
31..15 alone. -/
theorem writeCcUsr_cases (s : State) (v : Word) :
    (v.getLsbD 5 = false ∧ s.writeCcUsr v = ({ s.storeCcPlain .usr v with
      cc := { s.cc with uTrap := true } } : State).trapToSupervisor) ∨
    (v.getLsbD 5 = true ∧ v.getLsbD 4 = true ∧ s.writeCcUsr v = { s.storeCcPlain .usr v with
      cc := { s.cc with sleep := true } }) ∨
    (v.getLsbD 5 = true ∧ v.getLsbD 4 = false ∧ s.writeCcUsr v = s.storeCcPlain .usr v) := by
  unfold State.writeCcUsr
  cases v.getLsbD 5 <;> cases v.getLsbD 4 <;> simp

/-- What a supervisor's write of register 14 stores before it looks at SLEEP and GIE (10_state.md
R46). -/
def State.storeCcSup (s : State) (v : Word) : State :=
  { s.storeCcPlain .sup v with
    cc := { s.cc with step := v.getLsbD 6, breakEn := v.getLsbD 7 }
    icache := if v.getLsbD 14 then [] else s.icache }

/-- A supervisor's write of register 14 (10_state.md R46): a return to user mode, a halt, or the stores
alone. -/
theorem writeCcSup_cases (s : State) (v : Word) :
    (v.getLsbD 5 = true ∧ s.writeCcSup v = ({ s.storeCcSup v with
      cc := { (s.storeCcSup v).cc with sleep := v.getLsbD 4 } } : State).returnToUser) ∨
    (v.getLsbD 5 = false ∧ v.getLsbD 4 = true ∧ s.writeCcSup v = ({ s.storeCcSup v with
      cc := { (s.storeCcSup v).cc with sleep := true } } : State).halt) ∨
    (v.getLsbD 5 = false ∧ v.getLsbD 4 = false ∧ s.writeCcSup v = s.storeCcSup v) := by
  unfold State.writeCcSup State.storeCcSup
  cases v.getLsbD 5 with
  | true => exact .inl ⟨rfl, by cases v.getLsbD 14 <;> rfl⟩
  | false =>
    cases v.getLsbD 4 with
    | true => exact .inr (.inl ⟨rfl, rfl, by cases v.getLsbD 14 <;> rfl⟩)
    | false => exact .inr (.inr ⟨rfl, rfl, by cases v.getLsbD 14 <;> rfl⟩)

theorem writeCc_of_user {s : State} (h : s.cc.gie = true) (v : Word) :
    s.writeCc v = s.writeCcUsr v := by
  rw [State.writeCc, s.bank_of_user h, Bank.pick_usr]

theorem writeCc_of_supervisor {s : State} (h : s.cc.gie = false) (v : Word) :
    s.writeCc v = s.writeCcSup v := by
  rw [State.writeCc, s.bank_of_supervisor h, Bank.pick_sup]

end Sys2Proof.Machine
end

section
/-! ## The invariant of the machine -/

namespace Sys2Proof.Machine

/-- The part of the invariant that speaks of the status bits and of `halted`. -/
structure StatusOk (c : Status) (halted : Bool) : Prop where
  userClear : c.gie = true → c.userCauses.all (fun x => !x) = true ∧ c.vph = false
  oneCause : atMostOne c.userCauses = true
  sleepHalts : c.gie = false → c.sleep = true → halted = true
  noUserFpe : c.uFpe = false
  noSupFpe : c.sFpe = false
  faultHalts : c.sIll = true ∨ c.sBusErr = true ∨ c.sDive = true → halted = true

/-- The invariant is about the configuration, memory, and the status bits with `halted`. -/
theorem inv_iff (s : State) :
    s.Inv ↔ s.cfg.wf = true ∧ s.memOk = true ∧ StatusOk s.cc s.halted := by
  constructor
  · rintro ⟨hcfg, hmem, hclear, hone, hsleep, hfpe, hfault⟩
    refine ⟨hcfg, hmem, ⟨fun hg => ?_, hone, fun hg hs => ?_, ?_, ?_, fun hf => ?_⟩⟩
    · simpa [State.userBitsClear, hg] using hclear
    · simpa [State.sleepOk, hg, hs] using hsleep
    · simp only [State.noFpe, Bool.and_eq_true, Bool.not_eq_true'] at hfpe
      exact hfpe.1
    · simp only [State.noFpe, Bool.and_eq_true, Bool.not_eq_true'] at hfpe
      exact hfpe.2
    · rcases hf with hf | hf | hf <;> simpa [State.supFaultHalts, hf] using hfault
  · rintro ⟨hcfg, hmem, hok⟩
    refine ⟨hcfg, hmem, ?_, hok.oneCause, ?_, ?_, ?_⟩
    · cases hg : s.cc.gie with
      | false => simp [State.userBitsClear, hg]
      | true => simpa [State.userBitsClear, hg] using hok.userClear hg
    · cases hg : s.cc.gie with
      | true => simp [State.sleepOk, hg]
      | false =>
        cases hs : s.cc.sleep with
        | false => simp [State.sleepOk, hs]
        | true => simp [State.sleepOk, hok.sleepHalts hg hs]
    · simp [State.noFpe, hok.noUserFpe, hok.noSupFpe]
    · cases hh : s.halted with
      | true => simp [State.supFaultHalts, hh]
      | false =>
        have hf : ¬(s.cc.sIll = true ∨ s.cc.sBusErr = true ∨ s.cc.sDive = true) := fun h => by
          simpa [hh] using hok.faultHalts h
        simpa [State.supFaultHalts, hh, and_assoc] using hf

/-- An entry to supervisor mode with at most one cause bit set. -/
theorem statusOk_entry {c : Status} {halted : Bool} (h1 : atMostOne c.userCauses = true)
    (hu : c.uFpe = false) (hs : c.sFpe = false)
    (hf : c.sIll = true ∨ c.sBusErr = true ∨ c.sDive = true → halted = true) :
    StatusOk { c with gie := false, sleep := false, step := false } halted :=
  ⟨fun h => by simp at h, h1, fun _ h => by simp at h, hu, hs, hf⟩

/-- From user mode, where the cause bits are clear, an entry may set one of them; VPH is free. -/
theorem StatusOk.entry_of_clear {c c' : Status} {halted : Bool} (h : StatusOk c halted)
    (hg : c.gie = true)
    (hone : c.userCauses.all (fun x => !x) = true → atMostOne c'.userCauses = true)
    (hfpe : c'.uFpe = c.uFpe)
    (hsup : c'.sIll = c.sIll ∧ c'.sBusErr = c.sBusErr ∧ c'.sDive = c.sDive ∧ c'.sFpe = c.sFpe) :
    StatusOk { c' with gie := false, sleep := false, step := false } halted := by
  obtain ⟨hi, hb, hd, hf⟩ := hsup
  refine statusOk_entry (hone (h.userClear hg).1) (hfpe.trans h.noUserFpe) (hf.trans h.noSupFpe) ?_
  rw [hi, hb, hd]
  exact h.faultHalts

/-- One cause bit set where all were clear is at most one. -/
theorem atMostOne_setUserCause {c : Status} (x : Exc) (h : c.userCauses.all (fun b => !b) = true) :
    atMostOne (c.setUserCause x).userCauses = true := by
  simp only [Status.userCauses, List.all_cons, List.all_nil, Bool.and_true, Bool.and_eq_true,
    Bool.not_eq_true'] at h
  obtain ⟨hb, hi, ht, he, hd, hf⟩ := h
  cases x <;>
    simp [Status.setUserCause, Status.userCauses, atMostOne, hb, hi, ht, he, hd, hf]

/-- An exception keeps the status bits in order, in either mode, and whether or not the phase was
marked before. -/
theorem StatusOk.takeException {s : State} (x : Exc) {u : State}
    (hu : u = s ∨ u = s.markPhase) (h : StatusOk s.cc s.halted) :
    StatusOk (u.takeException x).cc (u.takeException x).halted := by
  have hm : u = s ∨ (s.cc.gie = true ∧ u = { s with cc := { s.cc with vph := true } }) := by
    rcases hu with hu | hu
    · exact .inl hu
    · rcases markPhase_cases s with e | ⟨hg, e⟩
      · exact .inl (hu.trans e)
      · exact .inr ⟨hg, hu.trans e⟩
  cases hg : s.cc.gie with
  | true =>
    have hug : u.cc.gie = true := by rcases hm with rfl | ⟨-, rfl⟩ <;> exact hg
    have hh : u.halted = s.halted := by rcases hm with rfl | ⟨-, rfl⟩ <;> rfl
    obtain ⟨pc, n, e⟩ := takeException_usr x hug
    rw [e, State.trapToSupervisor_halted, hh]
    refine h.entry_of_clear hg (c' := u.cc.setUserCause x) (fun hc => ?_) ?_ ?_
    · refine atMostOne_setUserCause x ?_
      rcases hm with rfl | ⟨-, rfl⟩ <;> exact hc
    · rcases hm with rfl | ⟨-, rfl⟩ <;> cases x <;> rfl
    · rcases hm with rfl | ⟨-, rfl⟩ <;> cases x <;> exact ⟨rfl, rfl, rfl, rfl⟩
  | false =>
    obtain rfl : u = s := by
      rcases hm with e | ⟨h', -⟩
      · exact e
      · rw [hg] at h'; cases h'
    rw [takeException_sup x hg]
    have hgx : (u.cc.setSupCause x).gie = false := by cases x <;> exact hg
    refine ⟨fun h' => ?_, ?_, fun _ _ => rfl, ?_, ?_, fun _ => rfl⟩
    · rw [hgx] at h'; cases h'
    · cases x <;> exact h.oneCause
    · cases x <;> exact h.noUserFpe
    · cases x <;> exact h.noSupFpe

/-- A BREAK keeps the status bits in order. -/
theorem StatusOk.takeBreak {s : State} (h : StatusOk s.cc s.halted) :
    StatusOk s.takeBreak.cc s.takeBreak.halted := by
  rcases takeBreak_cases s with ⟨hg, -, e⟩ | ⟨-, e⟩
  · rw [e]
    refine h.entry_of_clear hg (c' := { s.cc with uBreak := true }) (fun hc => ?_) rfl
      ⟨rfl, rfl, rfl, rfl⟩
    simp only [Status.userCauses, List.all_cons, List.all_nil, Bool.and_true, Bool.and_eq_true,
      Bool.not_eq_true'] at hc
    obtain ⟨hb, hi, ht, he, hd, hf⟩ := hc
    simp [Status.userCauses, atMostOne, hi, ht, he, hd, hf]
  · rw [e]
    exact ⟨h.userClear, h.oneCause, fun _ _ => rfl, h.noUserFpe, h.noSupFpe, fun _ => rfl⟩

/-- A user program's write of register 14 keeps the status bits in order. -/
theorem StatusOk.writeCcUsr {s : State} (v : Word) (hg : s.cc.gie = true)
    (h : StatusOk s.cc s.halted) : StatusOk (s.writeCcUsr v).cc (s.writeCcUsr v).halted := by
  rcases writeCcUsr_cases s v with ⟨-, e⟩ | ⟨-, -, e⟩ | ⟨-, -, e⟩
  · rw [e]
    refine h.entry_of_clear hg (c' := { s.cc with uTrap := true }) (fun hc => ?_) rfl
      ⟨rfl, rfl, rfl, rfl⟩
    simp only [Status.userCauses, List.all_cons, List.all_nil, Bool.and_true, Bool.and_eq_true,
      Bool.not_eq_true'] at hc
    obtain ⟨hb, hi, ht, he, hd, hf⟩ := hc
    simp [Status.userCauses, atMostOne, hb, hi, he, hd, hf]
  · rw [e]
    refine ⟨h.userClear, h.oneCause, fun h' => ?_, h.noUserFpe, h.noSupFpe, h.faultHalts⟩
    rw [show s.cc.gie = true from hg] at h'
    cases h'
  · rw [e]
    exact h

/-- A supervisor's write of register 14 keeps the status bits in order: a return clears the user bits,
and a SLEEP without one halts. -/
theorem StatusOk.writeCcSup {s : State} (v : Word) (hg : s.cc.gie = false)
    (h : StatusOk s.cc s.halted) : StatusOk (s.writeCcSup v).cc (s.writeCcSup v).halted := by
  have hno : ∀ {p : Prop}, s.cc.gie = true → p := fun h' => by rw [hg] at h'; cases h'
  rcases writeCcSup_cases s v with ⟨-, e⟩ | ⟨-, -, e⟩ | ⟨-, -, e⟩
  · rw [e]
    exact ⟨fun _ => ⟨rfl, rfl⟩, rfl, (fun h' => by cases h'), rfl, h.noSupFpe, h.faultHalts⟩
  · rw [e]
    exact ⟨fun h' => hno h', h.oneCause, fun _ _ => rfl, h.noUserFpe, h.noSupFpe, fun _ => rfl⟩
  · rw [e]
    exact ⟨fun h' => hno h', h.oneCause, h.sleepHalts, h.noUserFpe, h.noSupFpe, h.faultHalts⟩

/-- Clearing bits of a list without a set bit sets none. -/
theorem all_not_zipWith_and {l : List Bool} (m : List Bool) (h : l.all (fun x => !x) = true) :
    (List.zipWith and l m).all (fun x => !x) = true := by
  induction l generalizing m with
  | nil => rfl
  | cons b l ih =>
    cases m with
    | nil => rfl
    | cons c m =>
      simp only [List.all_cons, Bool.and_eq_true, Bool.not_eq_true'] at h
      simp [h.1, ih m h.2]

/-- Clearing bits of a list with at most one bit set leaves at most one. -/
theorem atMostOne_and {l : List Bool} (m : List Bool) (h : atMostOne l = true) :
    atMostOne (List.zipWith and l m) = true := by
  induction l generalizing m with
  | nil => rfl
  | cons b l ih =>
    cases m with
    | nil => rfl
    | cons c m =>
      simp only [atMostOne, Bool.and_eq_true, Bool.or_eq_true, Bool.not_eq_true'] at h
      obtain ⟨hb, hl⟩ := h
      simp only [List.zipWith_cons_cons, atMostOne, Bool.and_eq_true, Bool.or_eq_true,
        Bool.not_eq_true']
      refine ⟨?_, ih m hl⟩
      rcases hb with rfl | hb
      · exact .inl rfl
      · exact .inr (all_not_zipWith_and m hb)

/-- The supervisor's write of a register of the user set keeps the status bits in order: a write of uCC
only clears cause bits. -/
theorem StatusOk.writeForeign {s : State} (r : Reg) (v : Word) (hg : s.cc.gie = false)
    (h : StatusOk s.cc s.halted) : StatusOk (s.writeForeign r v).cc (s.writeForeign r v).halted := by
  cases r with
  | gpr j => exact h
  | pc => exact h
  | cc =>
    refine ⟨fun h' => ?_, ?_, h.sleepHalts, ?_, h.noSupFpe, h.faultHalts⟩
    · rw [show s.cc.gie = true from h'] at hg
      cases hg
    · exact atMostOne_and [v.getLsbD 7, v.getLsbD 8, v.getLsbD 9, v.getLsbD 10, v.getLsbD 11,
        v.getLsbD 12] h.oneCause
    · change (s.cc.uFpe && v.getLsbD 12) = false
      rw [h.noUserFpe, Bool.false_and]

end Sys2Proof.Machine
end

section
/-! ## What every word keeps -/

namespace Sys2Proof.Machine

/-! ### What the mode changes leave alone -/

@[simp] theorem State.markPhase_cfg (s : State) : s.markPhase.cfg = s.cfg := by
  rcases markPhase_cases s with e | ⟨-, e⟩ <;> rw [e]
@[simp] theorem State.markPhase_mem (s : State) : s.markPhase.mem = s.mem := by
  rcases markPhase_cases s with e | ⟨-, e⟩ <;> rw [e]
@[simp] theorem State.markPhase_icache (s : State) : s.markPhase.icache = s.icache := by
  rcases markPhase_cases s with e | ⟨-, e⟩ <;> rw [e]
@[simp] theorem State.markPhase_sup (s : State) : s.markPhase.sup = s.sup := by
  rcases markPhase_cases s with e | ⟨-, e⟩ <;> rw [e]
@[simp] theorem State.markPhase_usr (s : State) : s.markPhase.usr = s.usr := by
  rcases markPhase_cases s with e | ⟨-, e⟩ <;> rw [e]
@[simp] theorem State.markPhase_gie (s : State) : s.markPhase.cc.gie = s.cc.gie := by
  rcases markPhase_cases s with e | ⟨-, e⟩ <;> rw [e]

/-- An exception changes status bits, the user PC, the lock, `halted` and the draw counter alone. -/
theorem takeException_outer (s : State) (x : Exc) :
    (s.takeException x).cfg = s.cfg ∧ (s.takeException x).mem = s.mem ∧
      (s.takeException x).icache = s.icache ∧ (s.takeException x).sup = s.sup := by
  cases hg : s.cc.gie with
  | true =>
    obtain ⟨pc, n, e⟩ := takeException_usr x hg
    rw [e]
    exact ⟨rfl, rfl, rfl, rfl⟩
  | false =>
    rw [takeException_sup x hg]
    exact ⟨rfl, rfl, rfl, rfl⟩

/-- A BREAK changes status bits, the lock and `halted` alone. -/
theorem takeBreak_outer (s : State) :
    s.takeBreak.cfg = s.cfg ∧ s.takeBreak.mem = s.mem ∧ s.takeBreak.icache = s.icache ∧
      s.takeBreak.sup = s.sup ∧ s.takeBreak.usr = s.usr := by
  rcases takeBreak_cases s with ⟨-, -, e⟩ | ⟨-, e⟩ <;>
  · rw [e]
    exact ⟨rfl, rfl, rfl, rfl, rfl⟩

/-- A write of register 14 leaves memory and the configuration alone. -/
theorem writeCc_outer (s : State) (v : Word) :
    (s.writeCc v).cfg = s.cfg ∧ (s.writeCc v).mem = s.mem := by
  cases hg : s.cc.gie with
  | true =>
    rw [writeCc_of_user hg]
    rcases writeCcUsr_cases s v with ⟨-, e⟩ | ⟨-, -, e⟩ | ⟨-, -, e⟩ <;>
    · rw [e]
      exact ⟨rfl, rfl⟩
  | false =>
    rw [writeCc_of_supervisor hg]
    rcases writeCcSup_cases s v with ⟨-, e⟩ | ⟨-, -, e⟩ | ⟨-, -, e⟩ <;>
    · rw [e]
      exact ⟨rfl, rfl⟩

/-- A supervisor's write of a register of the user set leaves memory, the configuration and the
supervisor's set alone. -/
theorem writeForeign_outer (s : State) (r : Reg) (v : Word) :
    (s.writeForeign r v).cfg = s.cfg ∧ (s.writeForeign r v).mem = s.mem := by
  cases r <;> exact ⟨rfl, rfl⟩

/-! ### The invariant -/

/-- A word keeps the configuration. -/
theorem Ends.cfg_eq {i : Instr} {s u t : State} (h : Ends i s u t) : t.cfg = u.cfg := by
  cases h with
  | raised x u' h =>
    rw [(takeException_outer u' x).1]
    rcases h with rfl | rfl
    · rfl
    · exact u.markPhase_cfg
  | broke => exact (takeBreak_outer u).1
  | cc v n h => exact (writeCc_outer u v).1
  | foreign r v n hg h => exact (writeForeign_outer u r v).1
  | _ => rfl

/-- A word leaves memory as its last instruction found it, or stores one word at a bus address. -/
theorem Ends.mem_cases {i : Instr} {s u t : State} (h : Ends i s u t) :
    t.mem = u.mem ∨
      (storesMemory i = true ∧ ∃ a v, t.mem = u.mem.writeWord (u.busAddr a) v) := by
  cases h with
  | raised x u' h =>
    rw [(takeException_outer u' x).2.1]
    rcases h with rfl | rfl
    · exact .inl rfl
    · exact .inl u.markPhase_mem
  | broke => exact .inl (takeBreak_outer u).2.1
  | cc v n h => exact .inl (writeCc_outer u v).2
  | foreign r v n hg h => exact .inl (writeForeign_outer u r v).2
  | store a v h => exact .inr ⟨h, a, v, rfl⟩
  | _ => exact .inl rfl

/-- A word keeps memory canonical and in the address space. -/
theorem Ends.memOk {i : Instr} {s u t : State} (h : Ends i s u t) (hu : u.memOk = true) :
    t.memOk = true := by
  have hcfg := h.cfg_eq
  rcases h.mem_cases with hmem | ⟨-, a, v, hmem⟩
  · rw [State.memOk, hcfg, hmem]
    exact hu
  · rw [State.memOk, hcfg, hmem]
    exact State.storeWord_memOk (s := u) a v hu

/-- A word keeps the status bits in order. -/
theorem Ends.statusOk {i : Instr} {s u t : State} (h : Ends i s u t)
    (hu : StatusOk u.cc u.halted) : StatusOk t.cc t.halted := by
  cases h with
  | raised x u' h => exact hu.takeException x h
  | broke => exact hu.takeBreak
  | cc v n h =>
    change StatusOk (u.writeCc v).cc (u.writeCc v).halted
    cases hg : u.cc.gie with
    | true =>
      rw [writeCc_of_user hg]
      exact hu.writeCcUsr v hg
    | false =>
      rw [writeCc_of_supervisor hg]
      exact hu.writeCcSup v hg
  | foreign r v n hg h => exact hu.writeForeign r v hg
  | _ => exact hu

/-- Every word keeps the invariant. -/
theorem exec_keeps_inv {i : Instr} {s t : State} (hs : s.Inv) (h : exec i s = .next t) : t.Inv := by
  obtain ⟨hcfg, hmem, hok⟩ := (inv_iff s).1 hs
  obtain ⟨u, hr, he⟩ := exec_ends h
  refine (inv_iff t).2 ⟨?_, he.memOk (hr.memOk hmem), he.statusOk ?_⟩
  · rw [he.cfg_eq, hr.cfg]
    exact hcfg
  · rw [hr.cc, hr.halted]
    exact hok

/-- The invariant does not look at the inputs, the draw counter, the lock or the phase. -/
theorem inv_congr {s t : State} (hs : s.Inv) (hcfg : t.cfg = s.cfg) (hmem : t.mem = s.mem)
    (hcc : t.cc = s.cc) (hh : t.halted = s.halted) : t.Inv := by
  rw [inv_iff] at hs ⊢
  rw [State.memOk, hcfg, hmem, hcc, hh]
  exact hs

/-- An exception keeps the invariant. -/
theorem takeException_keeps_inv {s : State} (x : Exc) (hs : s.Inv) : (s.takeException x).Inv := by
  obtain ⟨hcfg, hmem, hok⟩ := (inv_iff s).1 hs
  obtain ⟨ec, em, -, -⟩ := takeException_outer s x
  refine (inv_iff _).2 ⟨by rw [ec]; exact hcfg, ?_, hok.takeException x (.inl rfl)⟩
  rw [State.memOk, ec, em]
  exact hmem

/-- An entry to supervisor mode that sets no cause bit keeps the invariant. -/
theorem trapToSupervisor_keeps_inv {s : State} (hs : s.Inv) : s.trapToSupervisor.Inv := by
  obtain ⟨hcfg, hmem, hok⟩ := (inv_iff s).1 hs
  exact (inv_iff _).2
    ⟨hcfg, hmem, statusOk_entry hok.oneCause hok.noUserFpe hok.noSupFpe hok.faultHalts⟩

/-- A reset establishes the status bits' part of the invariant. -/
theorem statusOk_reset : StatusOk Status.reset false :=
  ⟨fun h => (by cases h), rfl, fun _ h => (by cases h), rfl, rfl, fun h => by
    rcases h with h | h | h <;> cases h⟩

/-- A fetch changes the draw counter at most. -/
theorem fetch_eq_withFresh {s t : State} {w : Word} (h : s.fetch = some (w, t)) :
    ∃ n, t = { s with fresh := n } := by
  obtain ⟨-, rfl | rfl, -⟩ := fetch_cases h
  · exact ⟨t.fresh, rfl⟩
  · exact ⟨s.fresh + 1, rfl⟩

/-- The state in which a fetched word begins: all but the lock and the draw counter is as before the
fetch. -/
theorem beginWord_of_fetch {s s' : State} {m : Bool} {w : Word} (i : Instr)
    (h : (s.drawIf m).fetch = some (w, s')) :
    ∃ n l, s'.beginWord i = { s with fresh := n, lock := l } := by
  obtain ⟨n, rfl⟩ := fetch_eq_withFresh h
  rw [drawIf_eq]
  exact ⟨n, _, rfl⟩

/-- Settles O14, by the cases of a step. A word keeps the invariant because each of its ends does
(`exec_keeps_inv`); what may come around it is an entry to supervisor mode. -/
theorem everyStepKeepsInvariant : Obligations.EveryStepKeepsInvariant := by
  unfold Obligations.EveryStepKeepsInvariant
  intro s t hs h
  have htick : s.tick.Inv := inv_congr hs rfl rfl rfl rfl
  have hdraw : ∀ m, (s.tick.drawIf m).Inv := fun m =>
    inv_congr htick (by simp) (by simp) (by simp) (by simp)
  rcases stepWith_cases h with ⟨-, rfl⟩ | ⟨-, -, rfl⟩ | ⟨-, -, -, -, -, rfl⟩ |
    ⟨-, -, -, -, -, m, rfl⟩ | ⟨-, -, -, m, -, rfl⟩ | ⟨-, -, -, m, w, s', t', hf, he, rfl⟩
  · obtain ⟨hcfg, hmem, -⟩ := (inv_iff _).1 htick
    exact (inv_iff _).2 ⟨hcfg, hmem, statusOk_reset⟩
  · exact htick
  · exact htick
  · exact trapToSupervisor_keeps_inv (hdraw m)
  · exact takeException_keeps_inv _ (hdraw m)
  · obtain ⟨n, l, hb⟩ := beginWord_of_fetch (decodeWord w) hf
    have ht' : t'.Inv := exec_keeps_inv (by rw [hb]; exact inv_congr htick rfl rfl rfl rfl) he
    rcases afterWord_cases s.tick.cc.gie t' with e | ⟨-, -, -, -, e⟩
    · rw [e]
      exact ht'
    · rw [e]
      exact trapToSupervisor_keeps_inv ht'

/-- Settles O13: the default configuration is within its limits, nothing is listed in memory, and every
status bit is 0. -/
theorem invariantHoldsAtReset : Obligations.InvariantHoldsAtReset := by
  unfold Obligations.InvariantHoldsAtReset
  exact (inv_iff _).2 ⟨by decide, rfl, statusOk_reset⟩

/-- Settles O57: a word that is no store reaches its last instruction with memory as it was, and ends
with it so. -/
theorem onlyStoresChangeMemory : Obligations.OnlyStoresChangeMemory := by
  unfold Obligations.OnlyStoresChangeMemory
  intro i s t hi h a
  obtain ⟨u, hr, he⟩ := exec_ends h
  rcases he.mem_cases with e | ⟨hs, -⟩
  · rw [e, hr.mem hi]
  · rw [hi] at hs
    cases hs

end Sys2Proof.Machine
end

section
/-! ## Rules of the whole machine: the two sets, the modes, single-step -/

namespace Sys2Proof.Machine

/-! ### The supervisor exception bits -/

/-- The supervisor exception bits set in `c` are set in `d` (10_state.md R38). -/
def SupFaultsKept (c d : Status) : Prop :=
  (c.sIll = true → d.sIll = true) ∧ (c.sBusErr = true → d.sBusErr = true) ∧
    (c.sDive = true → d.sDive = true) ∧ (c.sFpe = true → d.sFpe = true)

theorem SupFaultsKept.of_eq {c d : Status} (hi : d.sIll = c.sIll) (hb : d.sBusErr = c.sBusErr)
    (hd : d.sDive = c.sDive) (hf : d.sFpe = c.sFpe) : SupFaultsKept c d := by
  rw [SupFaultsKept, hi, hb, hd, hf]
  exact ⟨id, id, id, id⟩

/-- Marking the phase leaves the supervisor exception bits. -/
theorem supFaultsKept_markPhase (s : State) : SupFaultsKept s.cc s.markPhase.cc := by
  rcases markPhase_cases s with e | ⟨-, e⟩ <;>
  · rw [e]
    exact .of_eq rfl rfl rfl rfl

/-- An exception clears no supervisor exception bit, and in supervisor mode sets one. -/
theorem supFaultsKept_takeException (s : State) (x : Exc) :
    SupFaultsKept s.cc (s.takeException x).cc := by
  cases hg : s.cc.gie with
  | true =>
    obtain ⟨pc, n, e⟩ := takeException_usr x hg
    rw [e]
    cases x <;> exact .of_eq rfl rfl rfl rfl
  | false =>
    rw [takeException_sup x hg]
    cases x with
    | illegalInstruction => exact ⟨fun _ => rfl, id, id, id⟩
    | busError => exact ⟨id, fun _ => rfl, id, id⟩
    | divideByZero => exact ⟨id, id, fun _ => rfl, id⟩

/-- No write of register 14 changes a supervisor exception bit. -/
theorem supFaultsKept_writeCc (s : State) (v : Word) : SupFaultsKept s.cc (s.writeCc v).cc := by
  cases hg : s.cc.gie with
  | true =>
    rw [writeCc_of_user hg]
    rcases writeCcUsr_cases s v with ⟨-, e⟩ | ⟨-, -, e⟩ | ⟨-, -, e⟩ <;>
    · rw [e]
      exact .of_eq rfl rfl rfl rfl
  | false =>
    rw [writeCc_of_supervisor hg]
    rcases writeCcSup_cases s v with ⟨-, e⟩ | ⟨-, -, e⟩ | ⟨-, -, e⟩ <;>
    · rw [e]
      exact .of_eq rfl rfl rfl rfl

/-- A word clears no supervisor exception bit. -/
theorem Ends.supFaultsKept {i : Instr} {s u t : State} (h : Ends i s u t) :
    SupFaultsKept u.cc t.cc := by
  cases h with
  | raised x u' h =>
    rcases h with rfl | rfl
    · exact supFaultsKept_takeException u' x
    · obtain ⟨mi, mb, md, mf⟩ := supFaultsKept_markPhase u
      obtain ⟨ti, tb, td, tf⟩ := supFaultsKept_takeException u.markPhase x
      exact ⟨ti ∘ mi, tb ∘ mb, td ∘ md, tf ∘ mf⟩
  | broke =>
    rcases takeBreak_cases u with ⟨-, -, e⟩ | ⟨-, e⟩ <;>
    · rw [e]
      exact .of_eq rfl rfl rfl rfl
  | cc v n h => exact supFaultsKept_writeCc u v
  | foreign r v n hg h => cases r <;> exact .of_eq rfl rfl rfl rfl
  | _ => exact .of_eq rfl rfl rfl rfl

/-- Settles O15, by the cases of a step without a reset: of them only an exception changes a supervisor
exception bit, and it sets one. -/
theorem supervisorExceptionBitsSurvive : Obligations.SupervisorExceptionBitsSurvive := by
  unfold Obligations.SupervisorExceptionBitsSurvive
  intro s t hreset h
  change SupFaultsKept s.cc t.cc
  rcases stepWith_cases h with ⟨hr, -⟩ | ⟨-, -, rfl⟩ | ⟨-, -, -, -, -, rfl⟩ |
    ⟨-, -, -, -, -, m, rfl⟩ | ⟨-, -, -, m, -, rfl⟩ | ⟨-, -, -, m, w, s', t', hf, he, rfl⟩
  · rw [hreset] at hr
    cases hr
  · exact .of_eq rfl rfl rfl rfl
  · exact .of_eq rfl rfl rfl rfl
  · exact .of_eq (by simp) (by simp) (by simp) (by simp)
  · have := supFaultsKept_takeException (s.tick.drawIf m) .illegalInstruction
    rwa [State.drawIf_cc] at this
  · obtain ⟨n, l, hb⟩ := beginWord_of_fetch (decodeWord w) hf
    obtain ⟨u, hu, hends⟩ := exec_ends he
    have hkept := hends.supFaultsKept
    have hcc : u.cc = s.cc := by rw [hu.cc, hb]; rfl
    rw [hcc] at hkept
    rcases afterWord_cases s.tick.cc.gie t' with e | ⟨-, -, -, -, e⟩ <;>
    · rw [e]
      exact hkept

/-! ### What user mode leaves alone -/

/-- From `s` to `t` the supervisor's register set, break enable and exception bits stay, the cache loses
nothing, and STEP is not set. -/
structure SupStateKept (s t : State) : Prop where
  sup : t.sup = s.sup
  breakEn : t.cc.breakEn = s.cc.breakEn
  sIll : t.cc.sIll = s.cc.sIll
  sBusErr : t.cc.sBusErr = s.cc.sBusErr
  sDive : t.cc.sDive = s.cc.sDive
  sFpe : t.cc.sFpe = s.cc.sFpe
  icache : ∀ e, e ∈ s.icache → e ∈ t.icache
  step : t.cc.step = true → s.cc.step = true

theorem SupStateKept.of_eq {s t : State} (hs : t.sup = s.sup) (hi : t.icache = s.icache)
    (hc : t.cc = s.cc) : SupStateKept s t := by
  refine ⟨hs, ?_, ?_, ?_, ?_, ?_, fun e he => hi ▸ he, ?_⟩ <;> rw [hc]
  exact id

theorem SupStateKept.trans {s u t : State} (h : SupStateKept s u) (g : SupStateKept u t) :
    SupStateKept s t :=
  ⟨g.sup.trans h.sup, g.breakEn.trans h.breakEn, g.sIll.trans h.sIll, g.sBusErr.trans h.sBusErr,
    g.sDive.trans h.sDive, g.sFpe.trans h.sFpe, fun e he => g.icache e (h.icache e he),
    fun ht => h.step (g.step ht)⟩

/-- The entry to supervisor mode. -/
theorem supStateKept_trap (s : State) : SupStateKept s s.trapToSupervisor :=
  ⟨rfl, rfl, rfl, rfl, rfl, rfl, fun _ he => he, fun h => by cases h⟩

/-- A fault in user mode. -/
theorem supStateKept_takeException {s : State} (x : Exc) (hg : s.cc.gie = true) :
    SupStateKept s (s.takeException x) := by
  obtain ⟨pc, n, e⟩ := takeException_usr x hg
  rw [e]
  cases x <;> exact ⟨rfl, rfl, rfl, rfl, rfl, rfl, fun _ he => he, fun h => by cases h⟩

/-- Marking the phase. -/
theorem supStateKept_markPhase (s : State) : SupStateKept s s.markPhase := by
  rcases markPhase_cases s with e | ⟨-, e⟩ <;>
  · rw [e]
    exact ⟨rfl, rfl, rfl, rfl, rfl, rfl, fun _ he => he, id⟩

/-- A user program's write of register 14. -/
theorem supStateKept_writeCcUsr (s : State) (v : Word) : SupStateKept s (s.writeCcUsr v) := by
  rcases writeCcUsr_cases s v with ⟨-, e⟩ | ⟨-, -, e⟩ | ⟨-, -, e⟩
  · rw [e]
    exact ⟨rfl, rfl, rfl, rfl, rfl, rfl, fun _ he => he, fun h => by cases h⟩
  · rw [e]
    exact ⟨rfl, rfl, rfl, rfl, rfl, rfl, fun _ he => he, id⟩
  · rw [e]
    exact .of_eq rfl rfl rfl

/-- A word in user mode keeps the supervisor's state. -/
theorem Ends.supStateKept {i : Instr} {s u t : State} (h : Ends i s u t) (hs : s.cc.gie = true)
    (hu : u.cc.gie = true) : SupStateKept u t := by
  have hbs := s.bank_of_user hs
  have hbu := u.bank_of_user hu
  cases h with
  | raised x u' h =>
    rcases h with rfl | rfl
    · exact supStateKept_takeException x hu
    · exact (supStateKept_markPhase u).trans
        (supStateKept_takeException x (by rw [State.markPhase_gie]; exact hu))
  | broke =>
    rcases takeBreak_cases u with ⟨-, -, e⟩ | ⟨-, e⟩
    · rw [e]
      exact ⟨rfl, rfl, rfl, rfl, rfl, rfl, fun _ he => he, fun h => by cases h⟩
    · rw [e]
      exact .of_eq rfl rfl rfl
  | jump v n =>
    rw [hbs]
    exact .of_eq rfl rfl rfl
  | plain g f n =>
    rw [hbs, hbu]
    exact .of_eq rfl rfl rfl
  | cc v n h =>
    rw [hbs, writeCc_of_user hu]
    obtain ⟨h1, h2, h3, h4, h5, h6, h7, h8⟩ := supStateKept_writeCcUsr u v
    exact ⟨h1, h2, h3, h4, h5, h6, h7, h8⟩
  | foreign r v n hg h =>
    rw [hu] at hg
    cases hg
  | store a v h =>
    rw [hbs]
    refine ⟨rfl, rfl, rfl, rfl, rfl, rfl, fun e he => ?_, id⟩
    simp only [State.setPc_icache, State.storeWord]
    split
    · exact he
    · exact List.mem_cons_of_mem _ he
  | lock =>
    rw [hbs]
    exact .of_eq rfl rfl rfl

/-- Where the last instruction of a word in user mode begins, the supervisor's state is as before. -/
theorem State.Reaches.supStateKept {i : Instr} {s u : State} (h : s.Reaches i u)
    (hs : s.cc.gie = true) : SupStateKept s u := by
  have hother := h.other
  rw [s.bank_of_user hs] at hother
  refine ⟨hother, ?_, ?_, ?_, ?_, ?_, h.icache, ?_⟩ <;> rw [h.cc]
  exact id

/-- Settles O53, by the cases of a step without a reset. -/
theorem userStepKeepsSupervisorState : Obligations.UserStepKeepsSupervisorState := by
  unfold Obligations.UserStepKeepsSupervisorState
  intro s t hg hreset h
  suffices hk : SupStateKept s t from
    ⟨hk.sup, hk.breakEn, hk.sIll, hk.sBusErr, hk.sDive, hk.sFpe, hk.icache, hk.step⟩
  have hdraw : ∀ m, SupStateKept s (s.tick.drawIf m) := fun m =>
    .of_eq (by simp) (by simp) (by simp)
  rcases stepWith_cases h with ⟨hr, -⟩ | ⟨-, -, rfl⟩ | ⟨-, -, -, -, -, rfl⟩ |
    ⟨-, -, -, -, -, m, rfl⟩ | ⟨-, -, -, m, -, rfl⟩ | ⟨-, -, -, m, w, s', t', hf, he, rfl⟩
  · rw [hreset] at hr
    cases hr
  · exact .of_eq rfl rfl rfl
  · exact .of_eq rfl rfl rfl
  · exact (hdraw m).trans (supStateKept_trap _)
  · exact (hdraw m).trans (supStateKept_takeException _ (by simpa using hg))
  · obtain ⟨n, l, hb⟩ := beginWord_of_fetch (decodeWord w) hf
    rw [hb] at he
    obtain ⟨u, hu, hends⟩ := exec_ends he
    have hbegin : SupStateKept s { s.tick with fresh := n, lock := l } := .of_eq rfl rfl rfl
    have hword := (hbegin.trans (hu.supStateKept hg)).trans
      (hends.supStateKept hg (by rw [hu.cc]; exact hg))
    rcases afterWord_cases s.tick.cc.gie t' with e | ⟨-, -, -, -, e⟩
    · rw [e]
      exact hword
    · rw [e]
      exact hword.trans (supStateKept_trap t')

/-! ### What supervisor mode leaves alone -/

/-- A supervisor's write of register 14 leaves the user set alone. -/
theorem writeCcSup_usr (s : State) (v : Word) : (s.writeCcSup v).usr = s.usr := by
  rcases writeCcSup_cases s v with ⟨-, e⟩ | ⟨-, -, e⟩ | ⟨-, -, e⟩ <;>
  · rw [e]
    rfl

/-- A word in supervisor mode that is no MOV to the user set leaves the user set alone. -/
theorem Ends.usr_eq {i : Instr} {s u t : State} (h : Ends i s u t) (hs : s.cc.gie = false)
    (hu : u.cc.gie = false) (hi : movesToUser i = false) : t.usr = u.usr := by
  have hbs := s.bank_of_supervisor hs
  have hbu := u.bank_of_supervisor hu
  cases h with
  | raised x u' h =>
    have hg : u'.cc.gie = false ∧ u'.usr = u.usr := by
      rcases h with rfl | rfl
      · exact ⟨hu, rfl⟩
      · exact ⟨by rw [State.markPhase_gie]; exact hu, u.markPhase_usr⟩
    rw [takeException_sup x hg.1]
    exact hg.2
  | broke =>
    obtain ⟨-, -, -, -, e⟩ := takeBreak_outer u
    exact e
  | cc v n h =>
    rw [hbs, writeCc_of_supervisor hu]
    exact writeCcSup_usr u v
  | foreign r v n hg h =>
    rw [hi] at h
    cases h
  | plain g f n =>
    rw [hbs, hbu]
    rfl
  | _ =>
    rw [hbs]
    rfl

/-- Settles O55. -/
theorem supervisorReachesUserSetOnlyByMov : Obligations.SupervisorReachesUserSetOnlyByMov := by
  unfold Obligations.SupervisorReachesUserSetOnlyByMov
  intro i s t hg hi h
  obtain ⟨u, hr, he⟩ := exec_ends h
  have hreach : u.usr = s.usr := by
    have hother := hr.other
    rwa [s.bank_of_supervisor hg] at hother
  rw [he.usr_eq hg (by rw [hr.cc]; exact hg) hi, hreach]

/-- A word in supervisor mode after which the mode is user names register 14. -/
theorem Ends.namesCc_of_gie {i : Instr} {s u t : State} (h : Ends i s u t) (hu : u.cc.gie = false)
    (ht : t.cc.gie = true) : namesCc i = true := by
  have hno : ∀ {c : Status}, c.gie = true → c.gie = false → namesCc i = true := by
    intro c h1 h2
    rw [h1] at h2
    cases h2
  cases h with
  | raised x u' h =>
    have hg : u'.cc.gie = false := by
      rcases h with rfl | rfl
      · exact hu
      · rw [State.markPhase_gie]; exact hu
    rw [takeException_sup x hg] at ht
    exact hno ht (by cases x <;> exact hg)
  | broke =>
    rcases takeBreak_cases u with ⟨hg, -⟩ | ⟨-, e⟩
    · exact hno hg hu
    · rw [e] at ht
      exact hno ht hu
  | cc v n h => exact h
  | foreign r v n hg h => exact hno ht (by cases r <;> exact hg)
  | _ => exact hno ht hu

/-- Settles O56. -/
theorem userModeEnteredOnlyThroughStatus : Obligations.UserModeEnteredOnlyThroughStatus := by
  unfold Obligations.UserModeEnteredOnlyThroughStatus
  intro i s t hg h ht
  obtain ⟨u, hr, he⟩ := exec_ends h
  exact he.namesCc_of_gie (by rw [hr.cc]; exact hg) ht

/-! ### Single-step -/

/-- The mode is supervisor mode as an entry leaves it. -/
def State.Entered (t : State) : Prop :=
  t.cc.gie = false ∧ t.cc.step = false ∧ t.cc.sleep = false ∧ t.lock = .off

theorem entered_trap (s : State) : s.trapToSupervisor.Entered := ⟨rfl, rfl, rfl, rfl⟩

theorem entered_takeException {s : State} (x : Exc) (hg : s.cc.gie = true) :
    (s.takeException x).Entered := by
  obtain ⟨pc, n, e⟩ := takeException_usr x hg
  rw [e]
  exact entered_trap _

/-- A word run in user mode with STEP set has entered supervisor mode, has halted at a BREAK, or is still
in user mode with STEP set, not halted. -/
theorem Ends.stepped {i : Instr} {s u t : State} (h : Ends i s u t) (hu : u.cc.gie = true)
    (hstep : u.cc.step = true) (hh : u.halted = false) :
    t.Entered ∨ (t.halted = true ∧ u.cc.breakEn = true) ∨
      (t.cc.gie = true ∧ t.cc.step = true ∧ t.halted = false) := by
  cases h with
  | raised x u' h =>
    refine .inl (entered_takeException x ?_)
    rcases h with rfl | rfl
    · exact hu
    · rw [State.markPhase_gie]; exact hu
  | broke =>
    rcases takeBreak_cases u with ⟨-, -, e⟩ | ⟨hb, e⟩
    · rw [e]
      exact .inl (entered_trap _)
    · rw [e]
      exact .inr (.inl ⟨rfl, hb hu⟩)
  | cc v n h =>
    rw [writeCc_of_user hu]
    rcases writeCcUsr_cases u v with ⟨-, e⟩ | ⟨-, -, e⟩ | ⟨-, -, e⟩ <;> rw [e]
    · exact .inl ⟨rfl, rfl, rfl, rfl⟩
    · exact .inr (.inr ⟨hu, hstep, hh⟩)
    · exact .inr (.inr ⟨hu, hstep, hh⟩)
  | foreign r v n hg h =>
    rw [hu] at hg
    cases hg
  | _ => exact .inr (.inr ⟨hu, hstep, hh⟩)

/-- The same of a whole word, begun in user mode with STEP set, not halted. -/
theorem exec_stepped {i : Instr} {s t : State} (hg : s.cc.gie = true) (hstep : s.cc.step = true)
    (hh : s.halted = false) (h : exec i s = .next t) :
    t.Entered ∨ (t.halted = true ∧ s.cc.breakEn = true) ∨
      (t.cc.gie = true ∧ t.cc.step = true ∧ t.halted = false) := by
  obtain ⟨u, hr, hends⟩ := exec_ends h
  have := hends.stepped (by rw [hr.cc]; exact hg) (by rw [hr.cc]; exact hstep)
    (hr.halted.trans hh)
  rwa [hr.cc] at this

/-- The single-step entry, where it comes. -/
theorem afterWord_stepped {t : State} (hg : t.cc.gie = true) (hst : t.cc.step = true)
    (hh : t.halted = false) : t.afterWord true = t.trapToSupervisor := by
  simp [State.afterWord, hg, hst, hh]

/-- A step runs a word if nothing comes before it. -/
theorem runsWord_iff (s : State) :
    s.runsWord = true ↔ s.input.reset = false ∧ s.halted = false ∧
      (s.cc.gie && s.cc.sleep) = false ∧ s.takesInterrupt s.input.irq = false := by
  simp only [State.runsWord, Bool.and_eq_true, Bool.not_eq_true', and_assoc]

/-- Settles O11: whatever the word did, what it left in user mode not halted is followed by the
single-step entry. -/
theorem steppedWordReturnsToSupervisor : Obligations.SteppedWordReturnsToSupervisor := by
  unfold Obligations.SteppedWordReturnsToSupervisor
  intro s t hrun hg hstep h
  change t.Entered ∨ _
  obtain ⟨-, hh, -, -⟩ := (runsWord_iff s).1 hrun
  rw [step_of_runsWord hrun] at h
  generalize s.drawsInterrupt s.input.irq = m at h
  unfold runWord at h
  split at h
  · cases h
    exact .inl (entered_takeException _ (by simpa using hg))
  · rename_i w s' hf
    obtain ⟨t', he, rfl⟩ := afterWordOutcome_eq_next h
    obtain ⟨n, l, hb⟩ := beginWord_of_fetch (decodeWord w) hf
    rw [hb] at he
    rw [State.drawIf_cc, State.tick_cc, hg]
    rcases exec_stepped (by exact hg) (by exact hstep) (by exact hh) he with hin | hhalt | ⟨hgt, hst, hht⟩
    · have e : t'.afterWord true = t' := by simp [State.afterWord, hin.1]
      rw [e]
      exact .inl hin
    · have e : t'.afterWord true = t' := by simp [State.afterWord, hhalt.1]
      rw [e]
      exact .inr hhalt
    · rw [afterWord_stepped hgt hst hht]
      exact .inl (entered_trap t')

end Sys2Proof.Machine
end

section
/-! ## One instruction: arithmetic, logic, shifts, multiply and divide -/

namespace Sys2Proof.Machine

/-! ### Conditions, operands -/

/-- Settles O17: the effect of an instruction whose condition fails is nothing, and a word without an
effect ends by advancing the PC. -/
theorem failedConditionOnlyAdvancesPc : Obligations.FailedConditionOnlyAdvancesPc := by
  unfold Obligations.FailedConditionOnlyAdvancesPc
  intro i cnd s hi hc
  have hv : ∀ h1 v h2, i ≠ .vliw h1 v h2 := by
    rintro h1 v h2 rfl
    cases hi
  rw [exec_eq_finish i s hv, singleEffect_of_fails hi hc, finish_done]

/-- Settles O58: each read selects the active set by the mode. -/
theorem operandReads : Obligations.OperandReads := by
  unfold Obligations.OperandReads
  intro s
  refine ⟨fun _ => rfl, fun _ _ => rfl, ?_⟩
  cases hg : s.cc.gie with
  | true =>
    have hb := s.bank_of_user hg
    simp [State.pc, State.condHolds, hb]
  | false =>
    have hb := s.bank_of_supervisor hg
    simp [State.pc, State.condHolds, hb]

/-! ### Arithmetic and logic -/

/-- The flags of SUB and CMP (40_arith_logic.md R141, R146). -/
theorem subResult_flags (a b : Word) (n : Nat) :
    ((subResult a b).flags.resolve n).zn (a - b) ∧
      ((subResult a b).flags.resolve n).c = decide (a.toNat < b.toNat) ∧
      ((subResult a b).flags.resolve n).v =
        decide (a.toInt - b.toInt < -2 ^ 31 ∨ 2 ^ 31 ≤ a.toInt - b.toInt) :=
  ⟨zn_resolve_of _ _ _ n, rfl, sub_overflow a b⟩

/-- The flags of ADD (40_arith_logic.md R143). -/
theorem addResult_flags (a b : Word) (n : Nat) :
    ((addResult a b).flags.resolve n).zn (a + b) ∧
      ((addResult a b).flags.resolve n).c = decide (2 ^ 32 ≤ a.toNat + b.toNat) ∧
      ((addResult a b).flags.resolve n).v =
        decide (a.toInt + b.toInt < -2 ^ 31 ∨ 2 ^ 31 ≤ a.toInt + b.toInt) :=
  ⟨zn_resolve_of _ _ _ n, rfl, add_overflow a b⟩

/-- Z and N of a result whose C and V are free. -/
theorem openCV_flags (r : Word) (n : Nat) : ((AluResult.openCV r).flags.resolve n).zn r :=
  zn_resolve_of r none none n

/-- Settles O18. -/
theorem addAndSubtract : Obligations.AddAndSubtract := by
  unfold Obligations.AddAndSubtract
  intro cnd dr b s hc
  exact ⟨computes_of_aluEffect (f := subResult) false rfl hc rfl (subResult_flags _ _),
    computes_of_aluEffect (f := addResult) false rfl hc rfl (addResult_flags _ _)⟩

/-- Settles O19. -/
theorem bitwiseLogic : Obligations.BitwiseLogic := by
  unfold Obligations.BitwiseLogic
  intro cnd dr b s hc
  exact ⟨computes_of_aluEffect (f := andResult) false rfl hc rfl (openCV_flags _),
    computes_of_aluEffect (f := orResult) false rfl hc rfl (openCV_flags _),
    computes_of_aluEffect (f := xorResult) false rfl hc rfl (openCV_flags _)⟩

/-- Settles O20. -/
theorem compareAndTest : Obligations.CompareAndTest := by
  unfold Obligations.CompareAndTest
  intro cnd dr b s hc
  exact ⟨compares_of_compareEffect (f := subResult) rfl hc (subResult_flags _ _),
    compares_of_compareEffect (f := andResult) rfl hc (openCV_flags _)⟩

/-! ### Shifts -/

/-- A result given as a word whose C and V are free is computed with that word's Z and N. -/
theorem computes_openCV {i : Instr} {s : State} {cnd : Cond} {dr : Reg} {b : OpB}
    {f : Word → Word → AluResult} {r : Word} (hx : exec i s = s.finish (aluEffect f cnd dr b s))
    (hc : s.condHolds cnd = true) (hf : f (s.readReg dr) (s.opB b) = .openCV r) :
    computes i s cnd dr r (fun g => g.zn r) :=
  computes_of_aluEffect false hx hc (by rw [hf]; rfl) (fun n => by rw [hf]; exact openCV_flags r n)

/-- A result with a carry: Z and N of the word, C as given, V free. -/
theorem computes_carry {i : Instr} {s : State} {cnd : Cond} {dr : Reg} {b : OpB}
    {f : Word → Word → AluResult} {r : Word} {k : Bool}
    (hx : exec i s = s.finish (aluEffect f cnd dr b s)) (hc : s.condHolds cnd = true)
    (hf : f (s.readReg dr) (s.opB b) = { value := r, flags := FlagResult.of r (some k) none }) :
    computes i s cnd dr r (fun g => g.zn r ∧ g.c = k) :=
  computes_of_aluEffect false hx hc (by rw [hf])
    (fun n => by rw [hf]; exact ⟨zn_resolve_of r _ _ n, rfl⟩)

theorem lsrResult_zero {a b : Word} (h : b.toNat = 0) : lsrResult a b = .openCV a := by
  simp only [lsrResult, h, if_true]

theorem lsrResult_small {a b : Word} (h1 : 1 ≤ b.toNat) (h2 : b.toNat ≤ 31) :
    lsrResult a b = { value := BitVec.ofNat 32 (a.toNat / 2 ^ b.toNat)
                      flags := FlagResult.of (BitVec.ofNat 32 (a.toNat / 2 ^ b.toNat))
                        (some (a.getLsbD (b.toNat - 1))) none } := by
  simp only [lsrResult, if_neg (show ¬b.toNat = 0 by omega), if_pos (show b.toNat < 32 by omega),
    ushiftRight_eq_div]

theorem lsrResult_large {a b : Word} (h : 32 ≤ b.toNat) : lsrResult a b = .openCV 0#32 := by
  simp only [lsrResult, if_neg (show ¬b.toNat = 0 by omega), if_neg (show ¬b.toNat < 32 by omega)]

theorem lslResult_zero {a b : Word} (h : b.toNat = 0) : lslResult a b = .openCV a := by
  simp only [lslResult, h, if_true]

theorem lslResult_small {a b : Word} (h1 : 1 ≤ b.toNat) (h2 : b.toNat ≤ 31) :
    lslResult a b = { value := BitVec.ofNat 32 (a.toNat * 2 ^ b.toNat)
                      flags := FlagResult.of (BitVec.ofNat 32 (a.toNat * 2 ^ b.toNat))
                        (some (a.getLsbD (32 - b.toNat))) none } := by
  simp only [lslResult, if_neg (show ¬b.toNat = 0 by omega), if_pos (show b.toNat < 32 by omega),
    shiftLeft_eq_mul]

theorem lslResult_large {a b : Word} (h : 32 ≤ b.toNat) : lslResult a b = .openCV 0#32 := by
  simp only [lslResult, if_neg (show ¬b.toNat = 0 by omega), if_neg (show ¬b.toNat < 32 by omega)]

theorem asrResult_zero {a b : Word} (h : b.toNat = 0) : asrResult a b = .openCV a := by
  simp only [asrResult, h, if_true]

theorem asrResult_small {a b : Word} (h1 : 1 ≤ b.toNat) (h2 : b.toNat ≤ 31) :
    asrResult a b = { value := BitVec.ofInt 32 (a.toInt / 2 ^ b.toNat)
                      flags := FlagResult.of (BitVec.ofInt 32 (a.toInt / 2 ^ b.toNat))
                        (some (a.getLsbD (b.toNat - 1))) none } := by
  simp only [asrResult, if_neg (show ¬b.toNat = 0 by omega), if_pos (show b.toNat < 32 by omega),
    sshiftRight_eq_div]

theorem asrResult_large {a b : Word} (h : 32 ≤ b.toNat) :
    asrResult a b = .openCV (if a.getLsbD 31 then 0xFFFFFFFF#32 else 0#32) := by
  have hones : BitVec.allOnes 32 = 0xFFFFFFFF#32 := by decide
  simp only [asrResult, if_neg (show ¬b.toNat = 0 by omega), if_neg (show ¬b.toNat < 32 by omega),
    hones, BitVec.msb_eq_getLsbD_last]

/-- Settles O21: amount 0, amounts 1 to 31, and larger ones. -/
theorem logicalShifts : Obligations.LogicalShifts := by
  unfold Obligations.LogicalShifts
  intro cnd dr b s hc
  refine ⟨fun h => ⟨?_, ?_⟩, fun ⟨h1, h2⟩ => ⟨?_, ?_⟩, fun h => ⟨?_, ?_⟩⟩
  · exact computes_openCV (f := lsrResult) rfl hc (lsrResult_zero h)
  · exact computes_openCV (f := lslResult) rfl hc (lslResult_zero h)
  · exact computes_carry (f := lsrResult) rfl hc (lsrResult_small h1 h2)
  · exact computes_carry (f := lslResult) rfl hc (lslResult_small h1 h2)
  · exact computes_openCV (f := lsrResult) rfl hc (lsrResult_large h)
  · exact computes_openCV (f := lslResult) rfl hc (lslResult_large h)

/-- Settles O22: amount 0, amounts 1 to 31, and larger ones. -/
theorem arithmeticShift : Obligations.ArithmeticShift := by
  unfold Obligations.ArithmeticShift
  intro cnd dr b s hc
  refine ⟨fun h => ?_, fun ⟨h1, h2⟩ => ?_, fun h => ?_⟩
  · exact computes_openCV (f := asrResult) rfl hc (asrResult_zero h)
  · exact computes_carry (f := asrResult) rfl hc (asrResult_small h1 h2)
  · exact computes_openCV (f := asrResult) rfl hc (asrResult_large h)

/-! ### Rotate and count -/

/-- A rotation by `n` moves bit `i` to bit `(i + n) mod 32`. -/
theorem getLsbD_rotateLeft_add (a : Word) (n : Nat) {i : Nat} (hi : i < 32) :
    (a.rotateLeft (n % 32)).getLsbD ((i + n) % 32) = a.getLsbD i := by
  rw [BitVec.getLsbD_rotateLeft_of_le (Nat.mod_lt _ (by decide))]
  have hn : n % 32 < 32 := Nat.mod_lt _ (by decide)
  by_cases h : (i + n) % 32 < n % 32
  · rw [decide_eq_true h, cond_true]
    congr 1
    omega
  · rw [decide_eq_false h, cond_false, decide_eq_true (Nat.mod_lt _ (by decide)), Bool.true_and]
    congr 1
    omega

/-- Settles O23. -/
theorem rotateLeft : Obligations.RotateLeft := by
  unfold Obligations.RotateLeft
  intro cnd dr b s hc
  exact ⟨(s.readReg dr).rotateLeft ((s.opB b).toNat % 32),
    fun i hi => getLsbD_rotateLeft_add _ _ hi,
    computes_openCV (f := rolResult) rfl hc rfl⟩

/-- The number of 1 bits as the size of the set of their positions. -/
theorem popcount_eq_card (b : Word) :
    popcount b = (Finset.univ.filter (fun i : Fin 32 => b.getLsbD i = true)).card := by
  have hrange : popcount b = ((Finset.range 32).filter (fun i => b.getLsbD i = true)).card := by
    rw [popcount, Finset.card_def, Finset.filter_val, Finset.range_val, Multiset.range]
    simp
  rw [hrange, Finset.card_filter, Finset.card_filter,
    Fin.sum_univ_eq_sum_range (fun i => if b.getLsbD i = true then 1 else 0) 32]

/-- A word has at most 32 1 bits. -/
theorem popcount_le (b : Word) : popcount b ≤ 32 := by
  simpa [popcount] using List.length_filter_le (fun i => b.getLsbD i) (List.range 32)

/-- Settles O25: the count is below 2^31, so that its N is 0. -/
theorem populationCount : Obligations.PopulationCount := by
  unfold Obligations.PopulationCount
  intro cnd dr b s hc
  have hle := popcount_le (s.opB b)
  have hnat : (BitVec.ofNat 32 (popcount (s.opB b))).toNat = popcount (s.opB b) := by
    rw [BitVec.toNat_ofNat]
    omega
  have hneg : (BitVec.ofNat 32 (popcount (s.opB b))).msb = false := by
    rw [BitVec.msb_eq_decide, hnat, decide_eq_false_iff_not]
    omega
  refine ⟨BitVec.ofNat 32 (popcount (s.opB b)), hnat.trans (popcount_eq_card _), ?_⟩
  refine computes_of_aluEffect (f := fun _ opb => popcResult opb) false rfl hc rfl fun n => ?_
  exact ⟨(openCV_flags _ n).1, hneg⟩

end Sys2Proof.Machine
end

section
/-! ## Multiply and divide -/

namespace Sys2Proof.Machine

/-- Settles O26: the low word and the two high words of the product. -/
theorem multiplies : Obligations.Multiplies := by
  unfold Obligations.Multiplies
  intro cnd dr b s hc
  refine ⟨?_, ?_, ?_⟩
  · exact computes_openCV (f := mpyResult) rfl hc (congrArg AluResult.openCV (mul_eq_ofNat _ _))
  · exact computes_openCV (f := mpyuhiResult) rfl hc
      (congrArg AluResult.openCV (mpyuhi_value _ _))
  · exact computes_openCV (f := mpyshiResult) rfl hc
      (congrArg AluResult.openCV (mpyshi_value _ _))

/-! ### Division -/

/-- DIVU by other than 0 follows the template. -/
theorem exec_divu_of_ne {cnd : Cond} {dr : Reg} {b : OpB} {s : State} (hb : s.opB b ≠ 0#32) :
    exec (.divu cnd dr b) s = s.finish (aluEffect divuResult cnd dr b s) := by
  change s.finish (divuEffect cnd dr b s) = _
  rw [divuEffect, if_neg (by simp [hb])]

/-- DIVS by other than 0 follows the template, after a draw where the quotient does not fit. -/
theorem exec_divs_of_ne {cnd : Cond} {dr : Reg} {b : OpB} {s : State} (hb : s.opB b ≠ 0#32) :
    exec (.divs cnd dr b) s = s.finish (aluEffect (divsResult s.fresh) cnd dr b
      (s.drawIf (s.condHolds cnd && divsOverflows (s.readReg dr) (s.opB b)))) := by
  change s.finish (divsEffect cnd dr b s) = _
  rw [divsEffect, if_neg (by simp [hb])]

/-- The one quotient that does not fit. -/
theorem divsOverflows_iff (a b : Word) :
    divsOverflows a b = true ↔ a = 0x80000000#32 ∧ b = 0xFFFFFFFF#32 := by
  simp [divsOverflows]

theorem divsResult_of_fits {a b : Word} (n : Nat) (h : ¬(a = 0x80000000#32 ∧ b = 0xFFFFFFFF#32)) :
    divsResult n a b = .openCV (BitVec.ofInt 32 (a.toInt.tdiv b.toInt)) := by
  rw [divsResult, if_neg (fun ho => h ((divsOverflows_iff a b).1 ho))]

/-- Settles O27: away from the overflow both divisions give the template's quotient; at the overflow the
result is the free value DIVS draws. -/
theorem divides : Obligations.Divides := by
  unfold Obligations.Divides
  intro cnd dr b s hc hb
  refine ⟨?_, fun hfit => ?_, fun _ => ?_⟩
  · exact computes_openCV (f := divuResult) (exec_divu_of_ne hb) hc rfl
  · have hres := divsResult_of_fits s.fresh hfit
    exact computes_of_aluEffect _ (exec_divs_of_ne hb) hc (by rw [hres]; rfl)
      (fun n => by rw [hres]; exact openCV_flags _ n)
  · exact ⟨_, computes_of_aluEffect _ (exec_divs_of_ne hb) hc rfl (fun _ => trivial)⟩

/-! ### The laws of multiply and divide (42_multiply_divide.md R187) -/

/-- The two halves of a 64-bit vector side by side. -/
theorem high_append_low (x : BitVec 64) : x.extractLsb' 32 32 ++ x.extractLsb' 0 32 = x :=
  (extract_join x 0 32 32).trans (extract_all x)

/-- The low word of a product as the lower half of the 64-bit unsigned product. -/
theorem mul_eq_extract_ofNat (a b : Word) :
    a * b = (BitVec.ofNat 64 (a.toNat * b.toNat)).extractLsb' 0 32 := by
  apply BitVec.eq_of_toNat_eq
  simp only [BitVec.toNat_mul, BitVec.extractLsb'_toNat, BitVec.toNat_ofNat, Nat.shiftRight_zero]
  omega

/-- The low word of a product as the lower half of the 64-bit signed product. -/
theorem mul_eq_extract_ofInt (a b : Word) :
    a * b = (BitVec.ofInt 64 (a.toInt * b.toInt)).extractLsb' 0 32 := by
  have h : a * b = BitVec.ofInt 32 (a.toInt * b.toInt) := by
    rw [BitVec.ofInt_mul, BitVec.ofInt_toInt, BitVec.ofInt_toInt]
  rw [h]
  apply BitVec.eq_of_toNat_eq
  generalize a.toInt * b.toInt = p
  simp only [BitVec.toNat_ofInt, BitVec.extractLsb'_toNat, Nat.shiftRight_zero]
  omega

/-- The unsigned product is its high word beside its low word. -/
theorem mpyuhi_append_mpy (a b : Word) :
    ((mpyuhiResult a b).value ++ (mpyResult a b).value).toNat = a.toNat * b.toNat := by
  have hlt : a.toNat * b.toNat < 2 ^ 32 * 2 ^ 32 := Nat.mul_lt_mul'' a.isLt b.isLt
  change ((BitVec.ofNat 64 (a.toNat * b.toNat)).extractLsb' 32 32 ++ a * b).toNat = _
  rw [mul_eq_extract_ofNat, high_append_low, BitVec.toNat_ofNat, Nat.mod_eq_of_lt (by omega)]

/-- The signed product is its high word beside its low word. -/
theorem mpyshi_append_mpy (a b : Word) :
    ((mpyshiResult a b).value ++ (mpyResult a b).value).toInt = a.toInt * b.toInt := by
  have ha := a.toInt_lt
  have ha' := a.le_toInt
  have hb := b.toInt_lt
  have hb' := b.le_toInt
  simp only [Nat.add_one_sub_one] at ha ha' hb hb'
  have habs : |a.toInt * b.toInt| ≤ 2 ^ 31 * 2 ^ 31 := by
    rw [abs_mul]
    exact mul_le_mul (abs_le.2 ⟨by omega, by omega⟩) (abs_le.2 ⟨by omega, by omega⟩)
      (abs_nonneg _) (by decide)
  obtain ⟨hlo, hhi⟩ := abs_le.1 habs
  change ((BitVec.ofInt 64 (a.toInt * b.toInt)).extractLsb' 32 32 ++ a * b).toInt = _
  rw [mul_eq_extract_ofInt, high_append_low, BitVec.toInt_ofInt]
  exact Int.bmod_eq_of_le (by omega) (by omega)

/-- Where the signed quotient fits, DIVS gives it. -/
theorem toInt_divs {a b : Word} (hb : b ≠ 0#32) (h : ¬(a = 0x80000000#32 ∧ b = 0xFFFFFFFF#32)) :
    (BitVec.ofInt 32 (a.toInt.tdiv b.toInt)).toInt = a.toInt.tdiv b.toInt := by
  have hlo := a.le_toInt
  have hhi := a.toInt_lt
  simp only [Nat.add_one_sub_one] at hlo hhi
  have hbi : b.toInt ≠ 0 := fun e => hb (BitVec.eq_of_toInt_eq (by simpa using e))
  have hq : (a.toInt.tdiv b.toInt).natAbs = a.toInt.natAbs / b.toInt.natAbs := Int.natAbs_tdiv _ _
  have hle : a.toInt.natAbs / b.toInt.natAbs ≤ a.toInt.natAbs := Nat.div_le_self _ _
  have hmin : a.toInt = -2 ^ 31 → b.toInt ≠ -1 := fun ha hb1 =>
    h ⟨BitVec.eq_of_toInt_eq (by rw [ha]; decide), BitVec.eq_of_toInt_eq (by rw [hb1]; decide)⟩
  have hfit : a.toInt.tdiv b.toInt < 2 ^ 31 := by
    by_contra hbig
    have habs : a.toInt.natAbs = 2 ^ 31 ∧ a.toInt = -2 ^ 31 := by omega
    have hone : b.toInt.natAbs = 1 := by
      by_contra h1
      have h2 : 2 ≤ b.toInt.natAbs := by omega
      have : a.toInt.natAbs / b.toInt.natAbs ≤ a.toInt.natAbs / 2 :=
        Nat.div_le_div_left h2 (by omega)
      omega
    have hb1 : b.toInt = 1 := by
      have := hmin habs.2
      omega
    rw [hb1, Int.tdiv_one] at hbig
    omega
  rw [BitVec.toInt_ofInt]
  exact Int.bmod_eq_of_le (by omega) (by omega)

/-- A remainder of a division rounded toward zero is 0 or of the dividend's sign. -/
theorem tmod_sign (a b : Int) : a.tmod b = 0 ∨ (0 < a.tmod b ↔ 0 < a) := by
  rcases lt_or_ge 0 a with ha | ha
  · have := Int.tmod_nonneg b (le_of_lt ha)
    omega
  · have hneg := Int.tmod_nonneg b (show 0 ≤ -a by omega)
    rw [Int.neg_tmod] at hneg
    omega

/-- Settles O28. -/
theorem multiplyAndDivideLaws : Obligations.MultiplyAndDivideLaws := by
  unfold Obligations.MultiplyAndDivideLaws
  intro a b
  have hpos : b ≠ 0#32 → 0 < b.toNat := fun hb =>
    Nat.pos_of_ne_zero fun h => hb (BitVec.eq_of_toNat_eq h)
  refine ⟨mpyuhi_append_mpy a b, mpyshi_append_mpy a b, BitVec.mul_comm a b, fun hb => ?_,
    fun hb hfit n => ?_⟩
  · refine ⟨a.toNat % b.toNat, ?_, Nat.mod_lt _ (hpos hb)⟩
    have hq : (divuResult a b).value.toNat = a.toNat / b.toNat := by
      change (BitVec.ofNat 32 (a.toNat / b.toNat)).toNat = _
      rw [BitVec.toNat_ofNat, Nat.mod_eq_of_lt (lt_of_le_of_lt (Nat.div_le_self _ _) a.isLt)]
    rw [hq, Nat.mul_comm]
    exact (Nat.div_add_mod _ _).symm
  · have hbi : b.toInt ≠ 0 := fun h => hb (BitVec.eq_of_toInt_eq (by simpa using h))
    refine ⟨a.toInt.tmod b.toInt, ?_, ?_, ?_⟩
    · rw [divsResult_of_fits n hfit]
      change _ = (BitVec.ofInt 32 (a.toInt.tdiv b.toInt)).toInt * _ + _
      rw [toInt_divs hb hfit, Int.mul_comm]
      exact (Int.mul_tdiv_add_tmod _ _).symm
    · rw [Int.natAbs_tmod]
      exact Nat.mod_lt _ (Int.natAbs_pos.2 hbi)
    · exact tmod_sign _ _

end Sys2Proof.Machine
end

section
/-! ## Faults of data instructions, moves, memory, LOCK, BREAK, the illegal opcodes -/

namespace Sys2Proof.Machine

/-! ### Faults -/

/-- A division by 0 that executes raises DivideByZero. -/
theorem divEffects_zero {cnd : Cond} {b : OpB} {s : State} (dr : Reg) (hc : s.condHolds cnd = true)
    (hb : s.opB b = 0#32) :
    divuEffect cnd dr b s = .raised .divideByZero s ∧
      divsEffect cnd dr b s = .raised .divideByZero s := by
  simp [divuEffect, divsEffect, hc, hb]

/-- A LOD that executes and meets a bus error raises BusError. -/
theorem lodEffect_busError {cnd : Cond} {b : OpB} {s : State} (dr : Reg)
    (hc : s.condHolds cnd = true) (hb : s.busError .read (s.opB b) = true) :
    lodEffect cnd dr b s = .raised .busError s := by
  simp [lodEffect, hc, State.memRead, hb]

/-- A LOD that executes and meets no bus error writes the addressed word to DR. -/
theorem lodEffect_ok {cnd : Cond} {b : OpB} {s : State} (dr : Reg) (hc : s.condHolds cnd = true)
    (hb : s.busError .read (s.opB b) = false) :
    lodEffect cnd dr b s = s.writeReg dr (s.mem.readWord (s.busAddr (s.opB b))) := by
  simp [lodEffect, hc, State.memRead, hb]

/-- A STO that executes and meets a bus error raises BusError. -/
theorem stoEffect_busError {cnd : Cond} {b : OpB} {s : State} (dr : Reg)
    (hc : s.condHolds cnd = true) (hb : s.busError .write (s.opB b) = true) :
    stoEffect cnd dr b s = .raised .busError s := by
  simp [stoEffect, hc, State.memWrite, hb]

/-- A STO that executes and meets no bus error stores DR at the address. -/
theorem stoEffect_ok {cnd : Cond} {b : OpB} {s : State} (dr : Reg) (hc : s.condHolds cnd = true)
    (hb : s.busError .write (s.opB b) = false) :
    stoEffect cnd dr b s = .done (s.storeWord (s.busAddr (s.opB b)) (s.readReg dr)) := by
  simp [stoEffect, hc, State.memWrite, hb]

/-- Settles O29. -/
theorem dataInstructionFaults : Obligations.DataInstructionFaults := by
  unfold Obligations.DataInstructionFaults
  intro cnd dr b s hc
  refine ⟨fun hb => ?_, fun hb => ?_, fun hb => ?_, rfl, rfl, rfl, rfl⟩
  · obtain ⟨hu, hs⟩ := divEffects_zero dr hc hb
    exact ⟨raises_of_finish (congrArg s.finish hu), raises_of_finish (congrArg s.finish hs)⟩
  · exact raises_of_finish (congrArg s.finish (lodEffect_busError dr hc hb))
  · exact raises_of_finish (congrArg s.finish (stoEffect_busError dr hc hb))

/-- Settles O41: the effect of these opcodes looks at no operand and no condition. -/
theorem unimplementedOpcodesRaise : Obligations.UnimplementedOpcodesRaise := by
  unfold Obligations.UnimplementedOpcodesRaise
  intro cnd dr b s
  exact ⟨raises_of_finish rfl, raises_of_finish rfl, raises_of_finish rfl, raises_of_finish rfl,
    raises_of_finish rfl, raises_of_finish rfl, raises_of_finish rfl, raises_of_finish rfl⟩

/-- Settles O4: the meaning of these rows is the refusal. -/
theorem sharedOpcodesWithDrCcAreRefused : Obligations.SharedOpcodesWithDrCcAreRefused := by
  unfold Obligations.SharedOpcodesWithDrCcAreRefused
  intro cnd x s
  exact ⟨rfl, rfl, rfl⟩

/-! ### Moves -/

/-- The low 16 bits of LDILO's result are Operand B's, the high 16 DR's. -/
theorem getLsbD_mergeLow (a b : Word) (i : Nat) :
    (mergeLow a b).getLsbD i = if i < 16 then b.getLsbD i else a.getLsbD i := by
  simp only [mergeLow, BitVec.getLsbD_append, BitVec.getLsbD_extractLsb']
  by_cases h : i < 16
  · simp [h]
  · simp only [if_neg h, decide_eq_false h, show 16 + (i - 16) = i by omega]
    by_cases h2 : i < 32
    · rw [decide_eq_true (show i - 16 < 16 by omega), Bool.true_and]
    · rw [BitVec.getLsbD_of_ge a i (by omega), Bool.and_false]

/-- Settles O30. -/
theorem loadLowerHalf : Obligations.LoadLowerHalf := by
  unfold Obligations.LoadLowerHalf
  intro cnd dr b s hc
  refine ⟨mergeLow (s.readReg dr) (s.opB b), fun i hi => ?_, fun i hi _ => ?_,
    moves_of_writeEffect (f := mergeLow) rfl hc rfl⟩
  · rw [getLsbD_mergeLow, if_pos hi]
  · rw [getLsbD_mergeLow, if_neg (by omega)]

/-- A MOV bit names the inactive set in supervisor mode only. -/
@[simp] theorem isForeign_movBank (s : State) (u : Bool) :
    s.isForeign (s.movBank u) = (!s.cc.gie && u) := by
  cases hg : s.cc.gie <;> cases u <;> simp [State.isForeign, State.movBank, hg]

/-- A draw does not change which set is inactive. -/
@[simp] theorem drawIf_isForeign (s : State) (m : Bool) (b : Bank) :
    (s.drawIf m).isForeign b = s.isForeign b := by
  cases m <;> rfl

/-- The source of a MOV: a register of the active set, or, of a supervisor MOV with B = 1, one of the user
set as it is stored. -/
theorem readMov_movBank (s : State) (u : Bool) (r : Reg) :
    s.readMov (s.movBank u) r = if !s.cc.gie && u then s.readForeign r else s.readReg r := by
  rw [State.readMov, isForeign_movBank]

/-- A MOV that executes and writes the active set is a register write. -/
theorem exec_mov_active {cnd : Cond} {dr br : Reg} {a bu : Bool} {off : BitVec 13} {s : State}
    (hc : s.condHolds cnd = true) (ha : (!s.cc.gie && a) = false) :
    ∃ m, exec (.mov cnd dr a br bu off) s = s.finish ((s.drawIf m).writeReg dr
      (s.readMov (s.movBank bu) br + BitVec.ofInt 32 off.toInt)) := by
  refine ⟨s.isForeign (s.movBank bu) && br == .cc, congrArg s.finish ?_⟩
  rw [movEffect, if_pos hc, State.writeMov, drawIf_isForeign, isForeign_movBank, ha,
    if_neg (by decide)]
  rfl

/-- A supervisor MOV with A = 1 that executes writes the user set. -/
theorem exec_mov_foreign {cnd : Cond} (dr : Reg) {br : Reg} {bu : Bool} {off : BitVec 13} {s : State}
    (hc : s.condHolds cnd = true) (hg : s.cc.gie = false) :
    ∃ m, exec (.mov cnd dr true br bu off) s = s.finish (.done ((s.drawIf m).writeForeign dr
      (s.readMov (s.movBank bu) br + BitVec.ofInt 32 off.toInt))) := by
  refine ⟨s.isForeign (s.movBank bu) && br == .cc, congrArg s.finish ?_⟩
  rw [movEffect, if_pos hc, State.writeMov, drawIf_isForeign, isForeign_movBank, hg,
    if_pos (by decide)]
  rfl

/-- Settles O32: neither bit names the inactive set. -/
theorem moveWithinActiveSet : Obligations.MoveWithinActiveSet := by
  unfold Obligations.MoveWithinActiveSet
  intro cnd dr a br bu off s hc h
  have hnot : (!s.cc.gie && a) = false ∧ (!s.cc.gie && bu) = false := by
    rcases h with h | ⟨ha, hb⟩
    · simp [h]
    · simp [ha, hb]
  obtain ⟨m, hx⟩ := exec_mov_active (dr := dr) (br := br) (bu := bu) (off := off) hc hnot.1
  rw [readMov_movBank, hnot.2, if_neg (by decide)] at hx
  exact moves_of_writeReg m hx

/-- Settles O33: the source is a register of the user set as it is stored. -/
theorem moveFromUserSet : Obligations.MoveFromUserSet := by
  unfold Obligations.MoveFromUserSet
  intro cnd dr off s hc hg
  have key : ∀ br, moves (.mov cnd dr false br true off) s dr
      (s.readForeign br + BitVec.ofInt 32 off.toInt) := by
    intro br
    obtain ⟨m, hx⟩ := exec_mov_active (dr := dr) (br := br) (bu := true) (off := off) hc
      (a := false) (by simp)
    rw [readMov_movBank, hg, if_pos (by decide)] at hx
    exact moves_of_writeReg m hx
  exact ⟨fun k => key (.gpr k), key .pc, _, key .cc⟩

/-- Settles O34: the source is that of either set, the destination the user set's. -/
theorem moveToUserSet : Obligations.MoveToUserSet := by
  unfold Obligations.MoveToUserSet
  intro cnd br bu off s hc hg
  have hsrc : s.readMov (s.movBank bu) br = if bu then s.readForeign br else s.readReg br := by
    rw [readMov_movBank, hg]
    rfl
  have hb : s.bank = .sup := s.bank_of_supervisor hg
  have hpc : s.pc = s.sup.pc := by rw [State.pc, hb]; rfl
  refine ⟨s.readMov (s.movBank bu) br, ?_, ?_, ?_, ?_, fun k => ?_, ?_, ?_⟩
  · rintro rfl
    exact hsrc
  · rintro k rfl rfl
    exact hsrc
  · rintro rfl rfl
    exact hsrc
  · rintro rfl rfl
    exact ⟨_, hsrc⟩
  · obtain ⟨m, hx⟩ := exec_mov_foreign (.gpr k) (br := br) (bu := bu) (off := off) hc hg
    refine ⟨_, hx, ?_, ?_⟩
    · exact onlyGpr_setGpr (s := s) (t := s.drawIf m) k _ .usr (by simp) (by simp)
        (by simp [State.restKept])
    · intro b
      simp [State.writeForeign]
  · obtain ⟨m, hx⟩ := exec_mov_foreign .pc (br := br) (bu := bu) (off := off) hc hg
    refine ⟨_, hx, ?_, ?_, ?_, ?_, ?_⟩
    · intro b
      simp [State.writeForeign]
    · intro b
      simp [State.writeForeign]
    · rw [hb]
      rfl
    · rw [hb, hpc]
      rfl
    · simp [State.restKept, State.writeForeign]
  · obtain ⟨m, hx⟩ := exec_mov_foreign .cc (br := br) (bu := bu) (off := off) hc hg
    refine ⟨_, (s.drawIf m).fresh, hx, ?_⟩
    rw [hb, hpc, drawIf_eq]
    rfl

/-! ### Memory -/

/-- Settles O35. -/
theorem loadWord : Obligations.LoadWord := by
  unfold Obligations.LoadWord
  intro cnd dr b s hc hb
  exact moves_of_writeReg false (congrArg s.finish (lodEffect_ok dr hc hb))

/-- The cache after a store: what it held, and the word replaced if that changed. -/
theorem mem_storeWord_icache (s : State) (a : Nat) (v : Word) (e : Nat × Word) :
    e ∈ (s.storeWord a v).icache ↔
      e ∈ s.icache ∨ (e = (a, s.mem.readWord a) ∧ e.2 ≠ v) := by
  simp only [State.storeWord]
  split
  · rename_i h
    refine ⟨.inl, ?_⟩
    rintro (he | ⟨rfl, hne⟩)
    · exact he
    · rcases h with h | h
      · exact absurd h hne
      · exact h
  · rename_i h
    rw [not_or] at h
    rw [List.mem_cons, or_comm]
    refine or_congr_right ⟨?_, And.left⟩
    rintro rfl
    exact ⟨rfl, h.1⟩

/-- Settles O36. -/
theorem storeWord : Obligations.StoreWord := by
  unfold Obligations.StoreWord
  intro cnd dr b s hc hb hw
  have hx : exec (.sto cnd dr b) s =
      s.finish (.done (s.storeWord (s.busAddr (s.opB b)) (s.readReg dr))) :=
    congrArg s.finish (stoEffect_ok dr hc hb)
  refine ⟨_, hx, ?_, ?_, ?_, ?_, ⟨?_, ?_⟩, by simp, by simp, by simp, by simp, by simp, by simp,
    ?_⟩
  · exact Memory.readWord_writeWord_same _ _ hw
  · intro a ha
    exact Memory.readByte_writeWord_outside _ _ _ hw ha
  · intro b'
    simp
  · intro b'
    simp
  · simp
  · simp
  · intro e
    exact mem_storeWord_icache s _ _ e

/-- Settles O37. -/
theorem lockTakesTheBus : Obligations.LockTakesTheBus := by
  unfold Obligations.LockTakesTheBus
  intro cnd x s hc
  have hx : exec (.lock cnd x) s = s.finish (.done { s with lock := .armed }) := by
    change s.finish (lockEffect cnd x s) = _
    rw [lockEffect, if_pos hc]
  refine ⟨_, hx, rfl, ?_⟩
  have e : ({ ({ s with lock := .armed } : State).setPc s.bank (s.pc + 1#32) with
      lock := s.lock } : State) = s.setPc s.bank (s.pc + 1#32) := rfl
  rw [e]
  exact jumpedTo_setPc s (s.pc + 1#32)

/-! ### BREAK -/

/-- The entry to supervisor mode from a state that differs from `s` in its status bits and user PC. -/
theorem enteredSupervisor_trap {s u : State} {c : Status} {pcOk : Word → Prop}
    (hcc : u.cc = c) (hpc : pcOk u.usr.pc) (husr : u.usr = { s.usr with pc := u.usr.pc })
    (hsup : u.sup = s.sup) (hh : u.halted = s.halted) (hk : s.outerKept u) :
    s.enteredSupervisor u.trapToSupervisor c pcOk := by
  refine ⟨?_, rfl, hpc, husr, hsup, hh, hk⟩
  rw [State.trapToSupervisor_cc, hcc]

/-- A halt changes `halted` alone. -/
theorem haltedInPlace_halt (s : State) : s.haltedInPlace s.halt s.cc s.lock :=
  ⟨rfl, rfl, rfl, rfl, rfl, rfl, rfl, rfl, rfl, fun _ => rfl⟩

/-- Settles O40. -/
theorem breakTrapsOrHalts : Obligations.BreakTrapsOrHalts := by
  unfold Obligations.BreakTrapsOrHalts
  intro cnd x s hc
  have hx : exec (.brk cnd x) s = s.finish (.broke s) := by
    change s.finish (brkEffect cnd x s) = _
    rw [brkEffect, if_pos hc]
  refine ⟨s.takeBreak, hx, ?_⟩
  rcases takeBreak_cases s with ⟨hg, he, e⟩ | ⟨hhalt, e⟩
  · have hpc : s.usr.pc = s.pc := by
      rw [State.pc, s.bank_of_user hg]
      rfl
    refine ⟨fun _ _ => ?_, fun _ h => ?_, fun h => ?_⟩
    · rw [e]
      exact enteredSupervisor_trap rfl hpc rfl rfl rfl ⟨rfl, rfl, rfl, rfl, fun _ => rfl⟩
    · rw [he] at h
      cases h
    · rw [hg] at h
      cases h
  · refine ⟨fun hg he => ?_, fun _ _ => ?_, fun _ => ?_⟩
    · rw [hhalt hg] at he
      cases he
    · rw [e]
      exact haltedInPlace_halt s
    · rw [e]
      exact haltedInPlace_halt s

end Sys2Proof.Machine
end

section
/-! ## The status register: its reads, its writes, and the words that enter and leave modes -/

namespace Sys2Proof.Machine

/-! ### Reads -/

/-- One bit put below a vector. -/
theorem getLsbD_append_ofBool {n : Nat} (x : BitVec n) (b : Bool) (i : Nat) :
    (x ++ BitVec.ofBool b).getLsbD i = if i = 0 then b else x.getLsbD (i - 1) := by
  rw [BitVec.getLsbD_append]
  cases i with
  | zero => simp
  | succ i => simp

/-- Bits 31..15 of an assembled register 14. -/
theorem ccWord_up (up : BitVec 17) (b14 b13 b12 b11 b10 b9 b8 b7 b6 b5 b4 : Bool) (f : Flags) :
    (ccWord up b14 b13 b12 b11 b10 b9 b8 b7 b6 b5 b4 f).extractLsb' 15 17 = up := by
  simp (disch := decide) only [ccWord, extract_append_high]
  exact extract_all up

/-- Bits 14..0 of an assembled register 14, as the list of its columns from bit 0 on. -/
theorem ccWord_bits (up : BitVec 17) (b14 b13 b12 b11 b10 b9 b8 b7 b6 b5 b4 : Bool) (f : Flags)
    {i : Nat} (hi : i < 15) :
    (ccWord up b14 b13 b12 b11 b10 b9 b8 b7 b6 b5 b4 f).getLsbD i =
      [f.z, f.c, f.n, f.v, b4, b5, b6, b7, b8, b9, b10, b11, b12, b13, b14].getD i false := by
  simp only [ccWord, getLsbD_append_ofBool]
  interval_cases i <;> rfl

/-- Settles O42: both views are assembled by `ccWord`. -/
theorem statusRegisterReads : Obligations.StatusRegisterReads := by
  unfold Obligations.StatusRegisterReads
  intro s
  refine ⟨fun hg => ?_, fun hg => ?_, fun hg => ?_, fun bit5 => ?_⟩
  · have e : s.readReg .cc = s.readCcSup := by
      rw [readReg_cc, State.readCc, s.bank_of_supervisor hg, Bank.pick_sup]
    rw [e]
    exact ⟨ccWord_up .., fun i hi => ccWord_bits (hi := hi) ..⟩
  · have e : s.readReg .cc = s.readCcUsr true := by
      rw [readReg_cc, State.readCc, s.bank_of_user hg, Bank.pick_usr]
    rw [e]
    exact ⟨ccWord_up .., fun i hi => ccWord_bits (hi := hi) ..⟩
  · have e : s.isForeign .usr = true := by simp [State.isForeign, hg]
    exact ⟨_, by rw [State.readMov, e, if_pos rfl, State.readForeign]⟩
  · exact ⟨ccWord_up .., fun i hi => ccWord_bits (hi := hi) ..⟩

/-! ### Writes -/

/-- Settles O43: the stores, then the return, the halt, or neither. -/
theorem supervisorWritesStatus : Obligations.SupervisorWritesStatus := by
  unfold Obligations.SupervisorWritesStatus
  intro s v hg
  refine ⟨_, writeCc_of_supervisor hg v, ?_⟩
  have hcache1 : v.getLsbD 14 = true → (s.storeCcSup v).icache = [] := fun h => if_pos h
  have hcache0 : v.getLsbD 14 = false → (s.storeCcSup v).icache = s.icache := fun h =>
    if_neg (by rw [h]; decide)
  rcases writeCcSup_cases s v with ⟨h5, e⟩ | ⟨h5, h4, e⟩ | ⟨h5, h4, e⟩
  · rw [e, h5]
    refine ⟨rfl, rfl, rfl, rfl, rfl, rfl, rfl, rfl, rfl, rfl, rfl, hcache1, hcache0,
      fun _ => ⟨rfl, rfl, rfl, rfl, rfl, rfl⟩, fun h => ?_, rfl, rfl, rfl, rfl⟩
    cases h
  · rw [e, h5, h4]
    refine ⟨rfl, rfl, rfl, rfl, rfl, rfl, rfl, rfl, rfl, rfl, rfl, hcache1, hcache0, fun h => ?_,
      fun _ => ⟨hg, rfl, rfl, rfl, fun _ => ⟨rfl, rfl⟩, fun h => ?_⟩, rfl, rfl, rfl, rfl⟩
    · cases h
    · cases h
  · rw [e, h5, h4]
    refine ⟨rfl, rfl, rfl, rfl, rfl, rfl, rfl, rfl, rfl, rfl, rfl, hcache1, hcache0, fun h => ?_,
      fun _ => ⟨hg, rfl, rfl, rfl, fun h => ?_, fun _ => ⟨rfl, rfl⟩⟩, rfl, rfl, rfl, rfl⟩
    · cases h
    · cases h

/-- Settles O44: the stores, and a trap, a sleep, or neither. -/
theorem userWritesStatus : Obligations.UserWritesStatus := by
  unfold Obligations.UserWritesStatus
  intro s v hg
  refine ⟨_, writeCc_of_user hg v, ?_⟩
  rcases writeCcUsr_cases s v with ⟨h5, e⟩ | ⟨h5, h4, e⟩ | ⟨h5, h4, e⟩
  · rw [e, h5]
    refine ⟨rfl, rfl, fun _ => ⟨rfl, rfl⟩, fun h => ?_, fun h => ?_, rfl, rfl, rfl, rfl, rfl, rfl⟩
    · cases h
    · cases h
  · rw [e, h5, h4]
    refine ⟨rfl, rfl, fun h => ?_, fun _ _ => ⟨rfl, rfl⟩, fun _ h => ?_, rfl, rfl, rfl, rfl, rfl,
      rfl⟩
    · cases h
    · cases h
  · rw [e, h5, h4]
    refine ⟨rfl, rfl, fun h => ?_, fun _ h => ?_, fun _ _ => ⟨rfl, rfl⟩, rfl, rfl, rfl, rfl, rfl,
      rfl⟩
    · cases h
    · cases h

/-- Settles O45: the restricted write is its stores and the six conjunctions. -/
theorem supervisorWritesUserStatus : Obligations.SupervisorWritesUserStatus := by
  unfold Obligations.SupervisorWritesUserStatus
  intro s v
  exact ⟨_, rfl, rfl, rfl, rfl, rfl, rfl, rfl, rfl, rfl, rfl, rfl⟩

/-! ### RTU, WAIT, HALT, TRAP, SLEEP -/

/-- OR of an immediate into register 14 is a write of the status register and sets no flag of its own. -/
theorem exec_or_cc (k : BitVec 18) (s : State) :
    exec (.or .always .cc (.imm k)) s =
      .next ((s.writeCc (s.readCc ||| k.signExtend 32)).setPc s.bank (s.pc + 1#32)) := rfl

/-- AND of an immediate into register 14 is a write of the status register and sets no flag of its
own. -/
theorem exec_and_cc (k : BitVec 18) (s : State) :
    exec (.and .always .cc (.imm k)) s =
      .next ((s.writeCc (s.readCc &&& k.signExtend 32)).setPc s.bank (s.pc + 1#32)) := rfl

/-- The value `v` agrees with what `s` stores for the set `b` in the flags and bits 31..15, so that
writing it changes neither. -/
def State.SameFlagsUp (s : State) (b : Bank) (v : Word) : Prop :=
  Flags.ofCc v = (s.regs b).flags ∧ v.extractLsb' 15 17 = (s.regs b).up

/-- Storing the flags and bits 31..15 a set already has changes nothing. -/
theorem storeCcPlain_same {s : State} {b : Bank} {v : Word} (h : s.SameFlagsUp b v) :
    s.storeCcPlain b v = s := by
  obtain ⟨hf, hup⟩ := h
  rw [State.storeCcPlain, hf, hup]
  cases b <;> rfl

/-- OR of an assembled register 14 with bits other than the flags and bits 31..15 keeps these. -/
theorem sameFlagsUp_or {s : State} {b : Bank} {up : BitVec 17}
    {b14 b13 b12 b11 b10 b9 b8 b7 b6 b5 b4 : Bool} {f : Flags} (k : Word)
    (hf : f = (s.regs b).flags) (hup : up = (s.regs b).up) (hk : k.extractLsb' 15 17 = 0#17)
    (hk4 : ∀ i, i < 4 → k.getLsbD i = false) :
    s.SameFlagsUp b (ccWord up b14 b13 b12 b11 b10 b9 b8 b7 b6 b5 b4 f ||| k) := by
  subst hf hup
  constructor
  · simp only [Flags.ofCc, BitVec.getLsbD_or, hk4 0 (by decide), hk4 1 (by decide),
      hk4 2 (by decide), hk4 3 (by decide), Bool.or_false]
    rw [ccWord_bits (hi := by decide), ccWord_bits (hi := by decide),
      ccWord_bits (hi := by decide), ccWord_bits (hi := by decide)]
    rfl
  · rw [BitVec.extractLsb'_or, ccWord_up, hk, BitVec.or_zero]

/-- AND of an assembled register 14 with ones in the flags and bits 31..15 keeps these. -/
theorem sameFlagsUp_and {s : State} {b : Bank} {up : BitVec 17}
    {b14 b13 b12 b11 b10 b9 b8 b7 b6 b5 b4 : Bool} {f : Flags} (k : Word)
    (hf : f = (s.regs b).flags) (hup : up = (s.regs b).up)
    (hk : k.extractLsb' 15 17 = BitVec.allOnes 17) (hk4 : ∀ i, i < 4 → k.getLsbD i = true) :
    s.SameFlagsUp b (ccWord up b14 b13 b12 b11 b10 b9 b8 b7 b6 b5 b4 f &&& k) := by
  subst hf hup
  constructor
  · simp only [Flags.ofCc, BitVec.getLsbD_and, hk4 0 (by decide), hk4 1 (by decide),
      hk4 2 (by decide), hk4 3 (by decide), Bool.and_true]
    rw [ccWord_bits (hi := by decide), ccWord_bits (hi := by decide),
      ccWord_bits (hi := by decide), ccWord_bits (hi := by decide)]
    rfl
  · rw [BitVec.extractLsb'_and, ccWord_up, hk, BitVec.and_allOnes]

/-- OR of an immediate with bits 5 and 4 alone into the supervisor's register 14: nothing is stored but
what was there, and the immediate's two bits decide. -/
theorem writeCcSup_or (s : State) (k : Word) (hk : k.extractLsb' 15 17 = 0#17)
    (hk0 : ∀ i, i < 15 → i ≠ 4 → i ≠ 5 → k.getLsbD i = false) :
    s.writeCcSup (s.readCcSup ||| k) =
      if k.getLsbD 5 then
        ({ s with cc := { s.cc with sleep := k.getLsbD 4 } } : State).returnToUser
      else if k.getLsbD 4 then ({ s with cc := { s.cc with sleep := true } } : State).halt
      else s := by
  have bit : ∀ i, i < 15 → (s.readCcSup ||| k).getLsbD i =
      ([s.sup.flags.z, s.sup.flags.c, s.sup.flags.n, s.sup.flags.v, false, false, s.cc.step,
        s.cc.breakEn, s.cc.sIll, false, s.cc.sBusErr, s.cc.sDive, s.cc.sFpe, false, false].getD i
          false || k.getLsbD i) := fun i hi => by
    rw [BitVec.getLsbD_or, State.readCcSup, ccWord_bits (hi := hi)]
  have hsame : s.SameFlagsUp .sup (s.readCcSup ||| k) :=
    sameFlagsUp_or k rfl rfl hk fun i hi => hk0 i (by omega) (by omega) (by omega)
  have h5 : (s.readCcSup ||| k).getLsbD 5 = k.getLsbD 5 := (bit 5 (by decide)).trans (by simp)
  have h4 : (s.readCcSup ||| k).getLsbD 4 = k.getLsbD 4 := (bit 4 (by decide)).trans (by simp)
  have hstore : s.storeCcSup (s.readCcSup ||| k) = s := by
    have h6 : (s.readCcSup ||| k).getLsbD 6 = s.cc.step := by
      rw [bit 6 (by decide), hk0 6 (by decide) (by decide) (by decide)]
      exact Bool.or_false _
    have h7 : (s.readCcSup ||| k).getLsbD 7 = s.cc.breakEn := by
      rw [bit 7 (by decide), hk0 7 (by decide) (by decide) (by decide)]
      exact Bool.or_false _
    have h14 : (s.readCcSup ||| k).getLsbD 14 = false := by
      rw [bit 14 (by decide), hk0 14 (by decide) (by decide) (by decide)]
      exact Bool.or_false _
    rw [State.storeCcSup, storeCcPlain_same hsame, h6, h7, h14, if_neg (by decide)]
  rcases writeCcSup_cases s (s.readCcSup ||| k) with ⟨e5, e⟩ | ⟨e5, e4, e⟩ | ⟨e5, e4, e⟩
  · rw [e, hstore, h4, ← h5, e5, if_pos rfl]
  · rw [e, hstore, ← h5, ← h4, e5, e4, if_neg (by decide), if_pos rfl]
  · rw [e, hstore, ← h5, ← h4, e5, e4, if_neg (by decide), if_neg (by decide)]

/-- Settles O46. -/
theorem returnWaitAndHalt : Obligations.ReturnWaitAndHalt := by
  unfold Obligations.ReturnWaitAndHalt
  intro s hg
  have hb : s.bank = .sup := s.bank_of_supervisor hg
  have hread : s.readCc = s.readCcSup := by rw [State.readCc, hb, Bank.pick_sup]
  have key : ∀ (k : BitVec 18), (k.signExtend 32).extractLsb' 15 17 = 0#17 →
      (∀ i, i < 15 → i ≠ 4 → i ≠ 5 → (k.signExtend 32).getLsbD i = false) →
      exec (.or .always .cc (.imm k)) s = .next ((if (k.signExtend 32).getLsbD 5 then
        ({ s with cc := { s.cc with sleep := (k.signExtend 32).getLsbD 4 } } : State).returnToUser
        else if (k.signExtend 32).getLsbD 4 then
          ({ s with cc := { s.cc with sleep := true } } : State).halt
        else s).setPc .sup (s.pc + 1#32)) := fun k hk hk0 => by
    rw [exec_or_cc, hread, writeCc_of_supervisor hg, writeCcSup_or s _ hk hk0, hb]
  refine ⟨⟨_, key 0x20#18 (by decide) (by decide), ?_⟩, ⟨_, key 0x30#18 (by decide) (by decide), ?_⟩,
    ⟨_, key 0x10#18 (by decide) (by decide), ?_⟩⟩
  · exact ⟨rfl, rfl, rfl, rfl, rfl, rfl, rfl, rfl, rfl, rfl, rfl, rfl, rfl, rfl, fun _ => rfl⟩
  · exact ⟨rfl, rfl, rfl, rfl, rfl, rfl, rfl, rfl, rfl, rfl, rfl, rfl, rfl, rfl, fun _ => rfl⟩
  · exact ⟨rfl, rfl, rfl, rfl, rfl, rfl, rfl, rfl, rfl, fun _ => rfl⟩

/-- Settles O47: both words write back the flags and bits 31..15 they read; TRAP clears bit 5, and the
sleep sets bit 4 beside the 1 that bit 5 reads as. -/
theorem trapAndUserSleep : Obligations.TrapAndUserSleep := by
  unfold Obligations.TrapAndUserSleep
  intro s hg
  have hb : s.bank = .usr := s.bank_of_user hg
  have hread : s.readCc = s.readCcUsr true := by rw [State.readCc, hb, Bank.pick_usr]
  constructor
  · have hsame : s.SameFlagsUp .usr (s.readCcUsr true &&& (0x3FFDF#18).signExtend 32) :=
      sameFlagsUp_and _ rfl rfl (by decide) (by decide)
    have h5 : (s.readCcUsr true &&& (0x3FFDF#18).signExtend 32).getLsbD 5 = false := by
      rw [BitVec.getLsbD_and, show ((0x3FFDF#18).signExtend 32).getLsbD 5 = false by decide,
        Bool.and_false]
    refine ⟨_, exec_and_cc _ s, ?_⟩
    rw [hread, writeCc_of_user hg, hb]
    rcases writeCcUsr_cases s (s.readCcUsr true &&& (0x3FFDF#18).signExtend 32) with
      ⟨-, e⟩ | ⟨e5, -⟩ | ⟨e5, -⟩
    · rw [e, storeCcPlain_same hsame]
      exact ⟨rfl, rfl, rfl, rfl, rfl, rfl, rfl, rfl, rfl, rfl, fun _ => rfl⟩
    · rw [h5] at e5; cases e5
    · rw [h5] at e5; cases e5
  · have hsame : s.SameFlagsUp .usr (s.readCcUsr true ||| (0x10#18).signExtend 32) :=
      sameFlagsUp_or _ rfl rfl (by decide) (by decide)
    have h5 : (s.readCcUsr true ||| (0x10#18).signExtend 32).getLsbD 5 = true := by
      rw [BitVec.getLsbD_or, State.readCcUsr, ccWord_bits (hi := by decide)]
      rfl
    have h4 : (s.readCcUsr true ||| (0x10#18).signExtend 32).getLsbD 4 = true := by
      rw [BitVec.getLsbD_or, show ((0x10#18).signExtend 32).getLsbD 4 = true by decide,
        Bool.or_true]
    refine ⟨_, exec_or_cc _ s, ?_⟩
    rw [hread, writeCc_of_user hg, hb]
    rcases writeCcUsr_cases s (s.readCcUsr true ||| (0x10#18).signExtend 32) with
      ⟨e5, -⟩ | ⟨-, -, e⟩ | ⟨-, e4, -⟩
    · rw [h5] at e5; cases e5
    · rw [e, storeCcPlain_same hsame]
      exact ⟨rfl, rfl, rfl, rfl, rfl, rfl, rfl, rfl, rfl, fun _ => rfl⟩
    · rw [h4] at e4; cases e4

end Sys2Proof.Machine
end

section
/-! ## One step of the machine -/

namespace Sys2Proof.Machine

/-! ### Which step runs a word -/

/-- Where no interrupt is sampled none is taken and no free value is drawn. -/
theorem takesInterrupt_of_not_sampled {s : State} {irq : Bool}
    (h : s.cc.gie = false ∨ s.cc.step = true ∨ irq = false) :
    s.takesInterrupt irq = false ∧ s.drawsInterrupt irq = false := by
  have hno : s.samplesInterrupt irq = false := by
    rcases h with h | h | h <;> simp [State.samplesInterrupt, h]
  simp [State.takesInterrupt, State.drawsInterrupt, hno]

/-- The word the active PC holds, fetched and begun: the step is its execution and the end of the word. -/
theorem step_of_holdsNext {s : State} {i : Instr} (hrun : s.runsWord = true)
    (hb : s.busError .fetch s.pc = false) (hi : s.holdsNext i) :
    step s = afterWordOutcome s.cc.gie
      (exec i ((s.tick.drawIf (s.drawsInterrupt s.input.irq)).beginWord i)) := by
  rw [step_of_runsWord hrun, drawIf_eq]
  obtain ⟨w, hf, hw⟩ := fetch_of_holdsNext (s := s.tick) (i := i) hb hi
    (s.tick.drawIf (s.drawsInterrupt s.input.irq)).fresh
  rw [runWord, hf]
  simp only [hw]
  rfl

/-- A word that begins in supervisor mode, or with STEP clear in user mode, is followed by nothing. -/
theorem afterWordOutcome_of_not_stepped {b : State} {i : Instr}
    (h : b.cc.gie = false ∨ b.cc.step = false) :
    afterWordOutcome b.cc.gie (exec i b) = exec i b := by
  cases hx : exec i b with
  | fault f => cases f
  | refused r => rfl
  | next u =>
    rw [afterWordOutcome_next]
    rcases afterWord_cases b.cc.gie u with e | ⟨hg, -, hst, -, -⟩
    · rw [e]
    · have hstep : b.cc.step = false := by
        rcases h with h | h
        · rw [hg] at h; cases h
        · exact h
      obtain ⟨v, hr, he⟩ := exec_ends hx
      have hk := (hr.supStateKept hg).trans (he.supStateKept hg (by rw [hr.cc]; exact hg))
      rw [hk.step hst] at hstep
      cases hstep

/-- Settles O5. -/
theorem stepRunsTheDecodedInstruction : Obligations.StepRunsTheDecodedInstruction := by
  unfold Obligations.StepRunsTheDecodedInstruction
  refine ⟨fun s hr hh hs hq => ?_, ?_⟩
  · obtain ⟨ht, hd⟩ := takesInterrupt_of_not_sampled hq
    have hawake : (s.cc.gie && s.cc.sleep) = false := by
      rw [← Bool.not_eq_true, Bool.and_eq_true]
      exact hs
    exact ⟨(runsWord_iff s).2 ⟨hr, hh, hawake, ht⟩, hd⟩
  · rintro s b i hrun hb hi rfl
    rw [step_of_holdsNext hrun hb hi]
    generalize hbegin : (s.tick.drawIf (s.drawsInterrupt s.input.irq)).beginWord i = b
    have hcc : b.cc = s.cc := by simp [← hbegin]
    rw [← hcc]
    refine ⟨afterWordOutcome_of_not_stepped, fun hg hst => ⟨fun u hu => ?_, fun r hr => ?_⟩⟩
    · obtain ⟨-, hh, -, -⟩ := (runsWord_iff s).1 hrun
      have hbh : b.halted = false := by simpa [← hbegin] using hh
      rw [hu, afterWordOutcome_next, hg]
      congr 1
      rcases exec_stepped hg hst hbh hu with ⟨hgu, -⟩ | ⟨hhu, -⟩ | ⟨hgu, hsu, hhu⟩
      · simp [State.afterWord, hgu]
      · simp [State.afterWord, hhu]
      · rw [afterWord_stepped hgu hsu hhu, if_pos ⟨hgu, hhu⟩]
        rfl
    · rw [hr, afterWordOutcome_refused]

/-! ### Steps that run no word -/

/-- Settles O9. -/
theorem idleStepChangesNothing : Obligations.IdleStepChangesNothing := by
  unfold Obligations.IdleStepChangesNothing
  intro s hr h
  cases hh : s.halted with
  | true => simp [step, stepWith, hr, hh]
  | false =>
    rcases h with h | ⟨hg, hs, hi⟩
    · rw [hh] at h
      cases h
    · simp [step, stepWith, hr, hh, hg, hs, hi]

/-- Settles O10: `systemReset`, field by field. -/
theorem resetInputRestartsTheMachine : Obligations.ResetInputRestartsTheMachine := by
  unfold Obligations.ResetInputRestartsTheMachine
  intro s hr
  have hx : step s = .next s.tick.systemReset := by simp [step, stepWith, hr]
  exact ⟨_, hx, rfl, rfl, rfl, rfl, rfl, rfl, rfl, rfl, rfl, rfl, rfl, rfl, rfl, rfl, rfl, rfl, rfl,
    rfl, rfl, rfl, rfl, rfl, fun _ => rfl⟩

/-- Settles O12: the fields of the reset state. -/
theorem stateAfterReset : Obligations.StateAfterReset := by
  unfold Obligations.StateAfterReset
  exact ⟨rfl, rfl, rfl, rfl, rfl, rfl, rfl, rfl, rfl, rfl, rfl, rfl, rfl, rfl, rfl⟩

/-- An interrupt entry from user mode, after a draw: no cause bit is set and no register changes. -/
theorem enteredSupervisor_interrupt (s : State) (m : Bool) :
    s.tick.enteredSupervisor (s.tick.drawIf m).trapToSupervisor s.cc (fun pc => pc = s.usr.pc) :=
  enteredSupervisor_trap (by simp) (by simp) (by simp) (by simp) (by simp)
    ⟨by simp, by simp, by simp, by simp, fun _ => by simp⟩

/-- The interrupt is taken before a word where the region does not hold it back. -/
theorem step_of_released {s : State} (hr : s.input.reset = false) (hh : s.halted = false)
    (hs : s.cc.sleep = false) (hi : s.takesInterrupt s.input.irq = true) :
    ∃ t, step s = .next t ∧ s.tick.enteredSupervisor t s.cc (fun pc => pc = s.usr.pc) := by
  refine ⟨_, ?_, enteredSupervisor_interrupt s (s.drawsInterrupt s.input.irq)⟩
  have ht : s.tick.takesInterrupt s.input.irq = true := hi
  have hd : s.tick.drawsInterrupt s.input.irq = s.drawsInterrupt s.input.irq := rfl
  simp [step, stepWith, hr, hh, hs, ht, hd]

/-- Settles O8: a sleeping program is left at once; a running one because the region, being off, holds
no interrupt back. -/
theorem interruptEntersSupervisor : Obligations.InterruptEntersSupervisor := by
  unfold Obligations.InterruptEntersSupervisor
  intro s hr hh hg hi h
  cases hs : s.cc.sleep with
  | true =>
    have hx : step s = .next (s.tick.drawIf false).trapToSupervisor := by
      simp [step, stepWith, hr, hh, hg, hi, hs, State.drawIf]
    exact ⟨_, hx, enteredSupervisor_interrupt s false⟩
  | false =>
    obtain ⟨hstep, hlock⟩ : s.cc.step = false ∧ s.lock = .off := by
      rcases h with h | h
      · rw [hs] at h
        cases h
      · exact h
    refine step_of_released hr hh hs ?_
    simp [State.takesInterrupt, State.samplesInterrupt, hg, hstep, hi, lockHold_of_off hlock]

/-! ### The fetch -/

/-- The word a store replaces is stale afterwards. -/
theorem mem_staleWords_storeWord {s : State} {a : Nat} {v : Word} (hw : s.mem.wf = true)
    (hne : s.mem.readWord a ≠ v) : s.mem.readWord a ∈ (s.storeWord a v).staleWords a := by
  have hin : (a, s.mem.readWord a) ∈ (s.storeWord a v).icache :=
    (mem_storeWord_icache s a v _).2 (.inr ⟨rfl, hne⟩)
  have hmem : (s.storeWord a v).mem.readWord a = v := Memory.readWord_writeWord_same a v hw
  simp only [State.staleWords, hmem, List.mem_filter, List.mem_map, decide_eq_true_eq]
  exact ⟨⟨_, ⟨hin, rfl⟩, rfl⟩, hne⟩

/-- With an empty cache no word is stale. -/
theorem staleWords_of_empty {s : State} (a : Nat) (h : s.icache = []) : s.staleWords a = [] := by
  simp [State.staleWords, h]

/-- Settles O6. -/
theorem fetchReturnsMemoryOrCachedWord : Obligations.FetchReturnsMemoryOrCachedWord := by
  unfold Obligations.FetchReturnsMemoryOrCachedWord
  refine ⟨fun s hb => ?_, fun s a v hw hb hne => ?_⟩
  · obtain ⟨w, t, hf⟩ : ∃ w t, s.fetch = some (w, t) := by
      simp only [State.fetch, hb, Bool.false_eq_true, if_false]
      cases s.staleWords (s.busAddr s.pc) with
      | nil => exact ⟨_, _, rfl⟩
      | cons w ws => exact ⟨_, _, rfl⟩
    obtain ⟨-, ht, hword⟩ := fetch_cases hf
    refine ⟨w, t, hf, ht, hword, fun hempty => ?_⟩
    rw [fetch_of_fresh hb (staleWords_of_empty _ hempty), Option.some.injEq, Prod.mk.injEq] at hf
    exact hf.1.symm
  · refine ⟨s.storeWord (s.busAddr a) v, ?_, mem_staleWords_storeWord hw hne⟩
    rw [State.memWrite, hb, if_neg (by decide)]

/-- Settles O7. -/
theorem fetchBusErrorIsIllegalInstruction : Obligations.FetchBusErrorIsIllegalInstruction := by
  unfold Obligations.FetchBusErrorIsIllegalInstruction
  intro s hrun hb
  generalize hu : s.tick.drawIf (s.drawsInterrupt s.input.irq) = u
  have hx : step s = .next (u.takeException .illegalInstruction) := by
    have hf : u.fetch = none := by
      have hbu : u.busError .fetch u.pc = true := by
        rw [← hu, drawIf_eq]
        exact hb
      rw [State.fetch, hbu, if_pos rfl]
    rw [step_of_runsWord hrun, hu, runWord, hf]
  refine ⟨_, hx, fun hg => ?_, fun hg => ?_⟩
  · have hpc : s.pc = s.usr.pc := by
      rw [State.pc, s.bank_of_user hg]
      rfl
    have hent := takeException_user (s := u) .illegalInstruction (by simpa [← hu] using hg)
    rw [hpc]
    rw [← hu, drawIf_eq] at hent ⊢
    exact hent
  · rw [takeException_sup _ (by simpa [← hu] using hg), ← hu, drawIf_eq]
    exact ⟨rfl, rfl, rfl, rfl, rfl, rfl, rfl, rfl, rfl, fun _ => rfl⟩

end Sys2Proof.Machine
end

section
/-! ## The lock region (44_load_store.md R226, 60_exceptions.md R345) -/

namespace Sys2Proof.Machine

/-! ### How far a region has come -/

@[simp] theorem after_armed_mem : LockState.armed.after .mem = .afterM := rfl
@[simp] theorem after_afterM_alu : LockState.afterM.after .alu = .afterMA := rfl
@[simp] theorem after_afterMA (c : LockClass) : LockState.afterMA.after c = .off := by cases c <;> rfl
@[simp] theorem after_off (c : LockClass) : LockState.off.after c = .off := by cases c <;> rfl
@[simp] theorem after_other (l : LockState) : l.after .other = .off := by cases l <;> rfl

theorem after_armed_of_ne {c : LockClass} (h : c ≠ .mem) : LockState.armed.after c = .off := by
  cases c <;> first | rfl | exact absurd rfl h

theorem after_afterM_of_ne {c : LockClass} (h : c ≠ .alu) : LockState.afterM.after c = .off := by
  cases c <;> first | rfl | exact absurd rfl h

/-- How many more instructions a region can still take in. -/
def LockState.room : LockState → Nat
  | .armed => 3
  | .afterM => 2
  | .afterMA => 1
  | .off => 0

theorem eq_off_of_room {l : LockState} (h : l.room ≤ 0) : l = .off := by
  cases l <;> first | rfl | simp [LockState.room] at h

/-- Every instruction leaves a region at least one shorter. -/
theorem room_after (l : LockState) (c : LockClass) : (l.after c).room ≤ l.room - 1 := by
  cases l <;> cases c <;> decide

theorem room_foldl_le (cs : List LockClass) (l : LockState) :
    (cs.foldl LockState.after l).room ≤ l.room := by
  induction cs generalizing l with
  | nil => exact Nat.le_refl _
  | cons c cs ih => exact (ih (l.after c)).trans ((room_after l c).trans (Nat.sub_le _ _))

/-- A word executes at least one instruction. -/
theorem lockClasses_ne_nil (s : State) (i : Instr) : lockClasses s i ≠ [] := by
  cases hc : isCompact i with
  | false => simp [lockClasses_of_not_compact s hc]
  | true =>
    cases i with
    | vliw h1 v h2 =>
      simp only [lockClasses]
      split
      · simp
      · split <;> simp
    | _ => cases hc

theorem beginWord_lock (s : State) (i : Instr) :
    (s.beginWord i).lock = (lockClasses s i).foldl LockState.after s.lock := rfl

/-- Every word leaves a region at least one shorter. -/
theorem room_beginWord (s : State) (i : Instr) :
    (s.beginWord i).lock.room ≤ s.lock.room - 1 := by
  rw [beginWord_lock]
  cases hc : lockClasses s i with
  | nil => exact absurd hc (lockClasses_ne_nil s i)
  | cons c cs => exact (room_foldl_le cs _).trans (room_after _ _)

/-- A word that is not compact counts as one instruction of its class. -/
theorem beginWord_lock_single {i : Instr} (s : State) (h : isCompact i = false) :
    (s.beginWord i).lock = s.lock.after (lockClass s i) := by
  rw [beginWord_lock, lockClasses_of_not_compact s h]
  rfl

theorem isCompact_of_isMemory {i : Instr} (h : isMemory i = true) : isCompact i = false := by
  cases i <;> first | rfl | cases h

theorem isCompact_of_isLockAlu {s : State} {i : Instr} (h : s.isLockAlu i = true) :
    isCompact i = false := by
  cases i <;> first | rfl | cases h

theorem isCompact_halfInstr (cnd : Cond) (h : Half) : isCompact (halfInstr cnd h) = false := by
  cases hi : halfInstr cnd h with
  | vliw h1 v h2 => exact absurd hi (decodeSingle_ne_vliw _ h1 h2 v)
  | _ => rfl

/-- Which class an instruction has does not depend on the region. -/
theorem lockClass_beginWord (s : State) (i j : Instr) :
    lockClass (s.beginWord i) j = lockClass s j := by
  cases j <;> rfl

/-- Without a load immediate a compact word has the conditions of its VCND field. -/
theorem firstHalfCond_of_not_ldi (layout : Option LdiLayout) {h1 : Half} (v : BitVec 3)
    (h : h1.isLdi = false) : firstHalfCond layout h1 v = firstCond v := by
  simp [firstHalfCond, vcndCovered, h]

theorem secondHalfCond_of_not_ldi (layout : Option LdiLayout) {h1 : Half} (v : BitVec 3)
    (h : h1.isLdi = false) : secondHalfCond layout h1 v = secondCond v := by
  simp [secondHalfCond, vcndCovered, h]

/-- A half that skips the second and is no LOD breaks every shape. -/
theorem lockClass_of_skips {s : State} {cnd : Cond} {h : Half} (hl : h.isLdi = false)
    (hs : skipsSecondHalf s cnd h = true) (ho : h.op ≠ 0x12#5) :
    lockClass s (halfInstr cnd h) = .other := by
  have halu := halfLockClass_of_skips hs
  rw [halfLockClass_of_not_ldi s cnd hl] at halu
  have hmem : lockClass s (halfInstr cnd h) ≠ .mem := by
    rw [Ne, lockClass_eq_mem_iff, isMemory_halfInstr]
    have h13 : h.op ≠ 0x13#5 := by
      rintro e
      simp [skipsSecondHalf, halfWritesDr, Half.isLdi, e] at hs
    simp [ho, h13]
  cases hc : lockClass s (halfInstr cnd h) with
  | mem => exact absurd hc hmem
  | alu => exact absurd hc halu
  | other => rfl

/-- A compact word without a load immediate counts as its first half, where that is a LOD into the PC
whose condition holds, and as both its halves where not: another first half that skips the second
breaks the shape. -/
theorem beginWord_lock_compact {s : State} {h1 h2 : Half} {v : BitVec 3}
    (ho : s.cfg.optVliw = true) (hl1 : h1.isLdi = false) (hl2 : h2.isLdi = false) :
    (s.beginWord (.vliw h1 v h2)).lock =
      if h1.op = 0x12#5 ∧ h1.dr = .pc ∧ s.condHolds (firstCond v) = true then
        s.lock.after (lockClass s (halfInstr (firstCond v) h1))
      else (s.lock.after (lockClass s (halfInstr (firstCond v) h1))).after
        (lockClass s (halfInstr (secondCond v) h2)) := by
  rw [beginWord_lock, lockClasses]
  simp only [ho, Bool.not_true, Bool.false_eq_true, if_false, firstHalfCond_of_not_ldi _ v hl1,
    secondHalfCond_of_not_ldi _ v hl1, halfLockClass_of_not_ldi s _ hl1,
    halfLockClass_of_not_ldi s _ hl2]
  cases hs : skipsSecondHalf s (firstCond v) h1 with
  | false =>
    have hno : ¬(h1.op = 0x12#5 ∧ h1.dr = .pc ∧ s.condHolds (firstCond v) = true) := by
      rintro ⟨hop, hd, hc⟩
      simp [skipsSecondHalf, halfWritesDr, hop, hd, hc] at hs
    simp [hno]
  | true =>
    by_cases h : h1.op = 0x12#5 ∧ h1.dr = .pc ∧ s.condHolds (firstCond v) = true
    · simp [h]
    · have hop : h1.op ≠ 0x12#5 := by
        intro e
        simp only [skipsSecondHalf, Bool.and_eq_true, beq_iff_eq] at hs
        exact h ⟨e, hs.1.1, hs.2⟩
      simp [h, lockClass_of_skips hl1 hs hop]

/-- Settles O38: the shapes by the classes; three words use up whatever room a region has. -/
theorem lockRegionIsBounded : Obligations.LockRegionIsBounded := by
  unfold Obligations.LockRegionIsBounded
  refine ⟨fun s i => ?_, fun s h1 h2 v ho hl1 hl2 => ?_, fun s t u i j k ht hu => ?_⟩
  · have mem : isMemory i = true → (s.beginWord i).lock = s.lock.after .mem := fun hm => by
      rw [beginWord_lock_single s (isCompact_of_isMemory hm), (lockClass_eq_mem_iff s i).2 hm]
    have notMem : isMemory i = false → lockClass s i ≠ .mem := fun hm => by
      rw [Ne, lockClass_eq_mem_iff, hm]
      decide
    refine ⟨fun hl hm => ?_, fun hl ha => ?_, fun hl hm => ?_, fun hl hm => ?_,
      fun hl hc hm => ?_, fun hl hc hm ha => ?_, fun hl hc hm => ?_⟩
    · rw [mem hm, hl]; rfl
    · rw [beginWord_lock_single s (isCompact_of_isLockAlu ha), (lockClass_eq_alu_iff s i).2 ha, hl]
      rfl
    · rw [mem hm, hl]; rfl
    · rw [mem hm, hl]; rfl
    · rw [beginWord_lock_single s hc, hl, after_armed_of_ne (notMem hm)]
    · rw [beginWord_lock_single s hc, hl, after_afterM_of_ne]
      rw [Ne, lockClass_eq_alu_iff, ha]
      decide
    · rw [beginWord_lock_single s hc, hl, after_afterMA]
  · rw [beginWord_lock_compact ho hl1 hl2]
    refine ⟨fun h => ?_, fun h => ?_⟩
    · rw [if_pos h, beginWord_lock_single s (isCompact_halfInstr _ h1)]
    · rw [if_neg h, beginWord_lock_single _ (isCompact_halfInstr _ h2),
        beginWord_lock_single s (isCompact_halfInstr _ h1), lockClass_beginWord]
  · have hs : s.lock.room ≤ 3 := by cases s.lock <;> decide
    have hi := room_beginWord s i
    have hj := room_beginWord t j
    have hk := room_beginWord u k
    rw [← ht] at hi
    rw [← hu] at hj
    exact eq_off_of_room (by omega)

/-! ### Interrupts and the region -/

/-- The word a running user program without STEP holds next runs if the interrupt is not taken. -/
theorem step_of_not_taken {s : State} {i : Instr} (hr : s.input.reset = false)
    (hh : s.halted = false) (hs : s.cc.sleep = false) (hst : s.cc.step = false)
    (hb : s.busError .fetch s.pc = false) (hi : s.holdsNext i)
    (ht : s.takesInterrupt s.input.irq = false) :
    step s = exec i ((s.tick.drawIf (s.drawsInterrupt s.input.irq)).beginWord i) := by
  have hrun : s.runsWord = true := (runsWord_iff s).2 ⟨hr, hh, by simp [hs], ht⟩
  rw [step_of_holdsNext hrun hb hi]
  have hcc : ((s.tick.drawIf (s.drawsInterrupt s.input.irq)).beginWord i).cc = s.cc := by simp
  rw [← hcc]
  exact afterWordOutcome_of_not_stepped (.inr (by rw [hcc]; exact hst))

/-- A word the region takes in runs, and no free value is drawn. -/
theorem step_of_held {s : State} {i : Instr} (hr : s.input.reset = false) (hh : s.halted = false)
    (hs : s.cc.sleep = false) (hst : s.cc.step = false) (hb : s.busError .fetch s.pc = false)
    (hi : s.holdsNext i) (h : s.lock.hold (lockClasses s i) s.memFollows = .held) :
    step s = exec i (s.tick.beginWord i) := by
  have hh' : s.lockHold = .held := (lockHold_of_holdsNext hb hi).trans h
  have ht : s.takesInterrupt s.input.irq = false := by simp [State.takesInterrupt, hh']
  rw [step_of_not_taken hr hh hs hst hb hi ht, drawsInterrupt_of_ne _ (by simp [hh'])]
  rfl

/-- A high line is taken in user mode without STEP before a word the region does not take in. -/
theorem takesInterrupt_of_released {s : State} {i : Instr} (hg : s.cc.gie = true)
    (hst : s.cc.step = false) (hirq : s.input.irq = true) (hb : s.busError .fetch s.pc = false)
    (hi : s.holdsNext i) (h : s.lock.hold (lockClasses s i) s.memFollows = .released) :
    s.takesInterrupt s.input.irq = true := by
  have hh : s.lockHold = .released := (lockHold_of_holdsNext hb hi).trans h
  simp [State.takesInterrupt, State.samplesInterrupt, hg, hst, hirq, hh]

/-- After `LOCK ; M` a region takes in a one-instruction A that an M follows. -/
theorem hold_of_lockAlu {s : State} {i : Instr} (ha : s.isLockAlu i = true) :
    LockState.afterM.hold (lockClasses s i) true = .held := by
  rw [lockClasses_of_not_compact s (isCompact_of_isLockAlu ha), (lockClass_eq_alu_iff s i).2 ha]
  rfl

/-- After `LOCK ; M` a region takes in a compact word of an A and an M. -/
theorem hold_of_lockAlu_memory {s : State} {h1 h2 : Half} {v : BitVec 3} (m : Bool)
    (ha : s.beginsWithLockAlu (.vliw h1 v h2) = true) (ho : h2.op = 0x12#5 ∨ h2.op = 0x13#5) :
    LockState.afterM.hold (lockClasses s (.vliw h1 v h2)) m = .held := by
  have hl : h2.isLdi = false := by rcases ho with ho | ho <;> simp [Half.isLdi, ho]
  have hm : halfLockClass s (secondHalfCond s.cfg.vliwLdi h1 v) h2 = .mem := by
    rw [halfLockClass_of_not_ldi s _ hl, lockClass_eq_mem_iff, isMemory_halfInstr]
    simpa using ho
  rw [lockClasses_of_alu ha, hm]
  rfl

/-- The first class of a word is A only if the word begins with an A. -/
theorem beginsWithLockAlu_of_head {s : State} {i : Instr} {cs : List LockClass}
    (h : lockClasses s i = .alu :: cs) : s.beginsWithLockAlu i = true := by
  cases hc : isCompact i with
  | false =>
    rw [lockClasses_of_not_compact s hc] at h
    have ha := (lockClass_eq_alu_iff s i).1 (List.cons.inj h).1
    cases i with
    | vliw h1 v h2 => cases hc
    | _ => exact ha
  | true =>
    cases i with
    | vliw h1 v h2 =>
      simp only [lockClasses] at h
      cases ho : s.cfg.optVliw with
      | false => simp [ho] at h
      | true =>
        refine (halfLockClass_eq_alu_iff s h1 h2 v ho).1 ?_
        simp only [ho, Bool.not_true, Bool.false_eq_true, if_false] at h
        split at h <;> exact (List.cons.inj h).1
    | _ => cases hc

/-- After `LOCK ; M` a region ends before a word that begins with neither M nor A. -/
theorem hold_of_other {s : State} {i : Instr} (m : Bool) (hm : beginsWithMemory s.cfg i = false)
    (ha : s.beginsWithLockAlu i = false) :
    LockState.afterM.hold (lockClasses s i) m = .released := by
  rw [← head_lockClasses] at hm
  cases hc : lockClasses s i with
  | nil => rfl
  | cons c cs =>
    cases c with
    | mem => simp [hc] at hm
    | alu => rw [beginsWithLockAlu_of_head hc] at ha; cases ha
    | other => rfl

/-- Settles O59: each clause by whether the region takes in the word; the last by whether the interrupt
is taken. -/
theorem interruptsWaitForLockRegion : Obligations.InterruptsWaitForLockRegion := by
  unfold Obligations.InterruptsWaitForLockRegion
  intro s i hr hh hg hs hst hirq hb hi
  have held := step_of_held hr hh hs hst hb hi
  have released := fun h => step_of_released hr hh hs
    (takesInterrupt_of_released hg hst hirq hb hi h)
  refine ⟨fun hl hm => held (hold_of_memory _ hl hm), fun j hl ha hbj hj hm => held ?_,
    fun hl hm => released (hold_of_not_memory _ ?_ hm), ?_, fun hl hm ha => released ?_,
    fun _ _ => ?_⟩
  · rw [hl, memFollows_of_holdsAt hbj hj, hm]
    exact hold_of_lockAlu ha
  · rcases hl with hl | hl <;> simp [hl]
  · rintro h1 v h2 rfl hl ha ho
    exact held (by rw [hl]; exact hold_of_lockAlu_memory _ ha ho)
  · rw [hl]
    exact hold_of_other _ hm ha
  · cases ht : s.takesInterrupt s.input.irq with
    | true => exact .inl (step_of_released hr hh hs ht)
    | false => exact .inr ⟨_, step_of_not_taken hr hh hs hst hb hi ht⟩

end Sys2Proof.Machine
end

section
/-! ## The meaning of a compact word (30_encoding.md R115, R121) -/

namespace Sys2Proof.Machine

theorem exec_vliw_of_disabled {s : State} (h1 h2 : Half) (v : BitVec 3)
    (ho : s.cfg.optVliw = false) :
    exec (.vliw h1 v h2) s = s.finish (.raised .illegalInstruction s) := by
  show execVliw h1 v h2 s = _
  rw [execVliw, if_neg (by simp [ho])]
  rfl

theorem exec_vliw_of_refusal {s : State} {h1 h2 : Half} (v : BitVec 3) {c : Refusal}
    (ho : s.cfg.optVliw = true) (hr : compactRefusal s.cfg.vliwLdi h1 h2 = some c) :
    exec (.vliw h1 v h2) s = .refused c := by
  show execVliw h1 v h2 s = _
  rw [execVliw, if_pos ho, hr]

theorem exec_vliw_of_no_refusal {s : State} {h1 h2 : Half} (v : BitVec 3)
    (ho : s.cfg.optVliw = true) (hr : compactRefusal s.cfg.vliwLdi h1 h2 = none) :
    exec (.vliw h1 v h2) s = s.finishCompact (compactEffect h1 v h2 s) := by
  show execVliw h1 v h2 s = _
  rw [execVliw, if_pos ho, hr]

/-- Settles O48. -/
theorem compactDisabledIsIllegal : Obligations.CompactDisabledIsIllegal := by
  unfold Obligations.CompactDisabledIsIllegal
  intro h1 h2 v s ho
  exact raises_of_finish (exec_vliw_of_disabled h1 h2 v ho)

end Sys2Proof.Machine
end
section
/-! ## A user step does not look at the supervisor set (10_state.md R24)

Every function of the model, applied to a user-mode state with another supervisor set, gives what it
gives for the state, with that set put into its result. -/

namespace Sys2Proof.Machine

/-- The state with another supervisor register set. -/
def State.withSup (r : RegSet) (s : State) : State := { s with sup := r }

/-- The event with its state mapped. -/
def Event.map (f : State → State) : Event → Event
  | .done t => .done (f t)
  | .jump v t => .jump v (f t)
  | .raised x t => .raised x (f t)
  | .broke t => .broke (f t)
  | .refused r => .refused r

section Fields

variable (r : RegSet) (s : State)

@[simp] theorem withSup_cfg : (s.withSup r).cfg = s.cfg := rfl
@[simp] theorem withSup_usr : (s.withSup r).usr = s.usr := rfl
@[simp] theorem withSup_cc : (s.withSup r).cc = s.cc := rfl
@[simp] theorem withSup_lock : (s.withSup r).lock = s.lock := rfl
@[simp] theorem withSup_halted : (s.withSup r).halted = s.halted := rfl
@[simp] theorem withSup_phase : (s.withSup r).phase = s.phase := rfl
@[simp] theorem withSup_mem : (s.withSup r).mem = s.mem := rfl
@[simp] theorem withSup_fresh : (s.withSup r).fresh = s.fresh := rfl
@[simp] theorem withSup_bank : (s.withSup r).bank = s.bank := rfl

@[simp] theorem drawIf_withSup (m : Bool) :
    (s.withSup r).drawIf m = (s.drawIf m).withSup r := by cases m <;> rfl
@[simp] theorem trapToSupervisor_withSup :
    (s.withSup r).trapToSupervisor = s.trapToSupervisor.withSup r := rfl
theorem afterWord_withSup (u : Bool) :
    (s.withSup r).afterWord u = (s.afterWord u).withSup r :=
  (apply_ite (State.withSup r) _ s.trapToSupervisor s).symm
@[simp] theorem memRead_withSup (a : Word) : (s.withSup r).memRead a = s.memRead a := rfl
theorem memWrite_withSup (a v : Word) :
    (s.withSup r).memWrite a v = (s.memWrite a v).map (State.withSup r) := by
  unfold State.memWrite
  rw [show (s.withSup r).busError .write a = s.busError .write a from rfl]
  split <;> rfl

end Fields

section UserMode

variable {s : State} (r : RegSet) (hg : s.cc.gie = true)
include hg

/-! ### Registers and flags -/

theorem regs_withSup : (s.withSup r).regs s.bank = s.regs s.bank := by
  rw [s.bank_of_user hg]
  rfl

theorem withRegs_withSup (x : RegSet) :
    (s.withSup r).withRegs s.bank x = (s.withRegs s.bank x).withSup r := by
  rw [s.bank_of_user hg]
  rfl

theorem pc_withSup : (s.withSup r).pc = s.pc := by
  rw [State.pc, withSup_bank, regs_withSup r hg, State.pc]

theorem setPc_withSup (v : Word) :
    (s.withSup r).setPc s.bank v = (s.setPc s.bank v).withSup r := by
  rw [State.setPc, regs_withSup r hg, withRegs_withSup r hg, State.setPc]

theorem setGpr_withSup (i : Fin 14) (v : Word) :
    (s.withSup r).setGpr s.bank i v = (s.setGpr s.bank i v).withSup r := by
  rw [State.setGpr, regs_withSup r hg, withRegs_withSup r hg, State.setGpr]

theorem condHolds_withSup (cnd : Cond) : (s.withSup r).condHolds cnd = s.condHolds cnd := by
  rw [State.condHolds, withSup_bank, regs_withSup r hg, State.condHolds]

theorem readCc_withSup : (s.withSup r).readCc = s.readCc := by
  rw [State.readCc, withSup_bank, State.readCc, s.bank_of_user hg]
  rfl

theorem writeCc_withSup (v : Word) : (s.withSup r).writeCc v = (s.writeCc v).withSup r := by
  rw [State.writeCc, withSup_bank, State.writeCc, s.bank_of_user hg]
  simp only [Bank.pick_usr, State.writeCcUsr]
  cases v.getLsbD 5 <;> cases v.getLsbD 4 <;> rfl

theorem readReg_withSup (x : Reg) : (s.withSup r).readReg x = s.readReg x := by
  cases x with
  | gpr i => rw [readReg_gpr, withSup_bank, regs_withSup r hg, readReg_gpr]
  | cc => exact readCc_withSup r hg
  | pc => rw [readReg_pc, pc_withSup r hg, readReg_pc]

theorem opB_withSup (b : OpB) : (s.withSup r).opB b = s.opB b := by
  cases b with
  | imm i => rfl
  | reg x off => rw [State.opB, readReg_withSup r hg, State.opB]

theorem writeReg_withSup (x : Reg) (v : Word) :
    (s.withSup r).writeReg x v = (s.writeReg x v).map (State.withSup r) := by
  cases x with
  | gpr i => exact congrArg Event.done (setGpr_withSup r hg i v)
  | cc => exact congrArg Event.done (writeCc_withSup r hg v)
  | pc => rfl

theorem setFlags_withSup (f : FlagResult) :
    (s.withSup r).setFlags f = (s.setFlags f).withSup r := by
  rw [State.setFlags, State.setFlagsOf, withSup_bank, regs_withSup r hg, withRegs_withSup r hg,
    drawIf_withSup]
  rfl

theorem setFlagsGated_withSup (cnd : Cond) (dr : Reg) (f : FlagResult) :
    (s.withSup r).setFlagsGated cnd dr f = (s.setFlagsGated cnd dr f).withSup r := by
  unfold State.setFlagsGated
  split
  · exact setFlags_withSup r hg f
  · rfl

/-! ### One instruction -/

theorem aluEffect_withSup (f : Word → Word → AluResult) (cnd : Cond) (dr : Reg) (b : OpB) :
    aluEffect f cnd dr b (s.withSup r) = (aluEffect f cnd dr b s).map (State.withSup r) := by
  simp only [aluEffect, condHolds_withSup r hg, readReg_withSup r hg, opB_withSup r hg,
    setFlagsGated_withSup r hg]
  split
  · exact writeReg_withSup r (by simpa using hg) dr _
  · rfl

theorem compareEffect_withSup (f : Word → Word → AluResult) (cnd : Cond) (dr : Reg) (b : OpB) :
    compareEffect f cnd dr b (s.withSup r) =
      (compareEffect f cnd dr b s).map (State.withSup r) := by
  simp only [compareEffect, condHolds_withSup r hg, readReg_withSup r hg, opB_withSup r hg,
    setFlags_withSup r hg]
  split <;> rfl

theorem writeEffect_withSup (f : Word → Word → Word) (cnd : Cond) (dr : Reg) (b : OpB) :
    writeEffect f cnd dr b (s.withSup r) = (writeEffect f cnd dr b s).map (State.withSup r) := by
  simp only [writeEffect, condHolds_withSup r hg, readReg_withSup r hg, opB_withSup r hg]
  split
  · exact writeReg_withSup r hg dr _
  · rfl

theorem isForeign_of_user (b : Bank) : s.isForeign b = false := by
  simp [State.isForeign, hg]

theorem movEffect_withSup (cnd : Cond) (dr : Reg) (a : Bool) (br : Reg) (bu : Bool)
    (off : BitVec 13) :
    movEffect cnd dr a br bu off (s.withSup r) =
      (movEffect cnd dr a br bu off s).map (State.withSup r) := by
  have hf : ∀ b, (s.withSup r).isForeign b = false := isForeign_of_user (s := s.withSup r) hg
  simp only [movEffect, State.writeMov, State.readMov, State.drawIf, hf, isForeign_of_user hg,
    Bool.false_and, Bool.false_eq_true, if_false, condHolds_withSup r hg, readReg_withSup r hg]
  split
  · exact writeReg_withSup r hg dr _
  · rfl

theorem lodEffect_withSup (cnd : Cond) (dr : Reg) (b : OpB) :
    lodEffect cnd dr b (s.withSup r) = (lodEffect cnd dr b s).map (State.withSup r) := by
  simp only [lodEffect, condHolds_withSup r hg, opB_withSup r hg, memRead_withSup]
  split
  · cases s.memRead (s.opB b) with
    | none => rfl
    | some v => exact writeReg_withSup r hg dr v
  · rfl

theorem stoEffect_withSup (cnd : Cond) (dr : Reg) (b : OpB) :
    stoEffect cnd dr b (s.withSup r) = (stoEffect cnd dr b s).map (State.withSup r) := by
  simp only [stoEffect, condHolds_withSup r hg, opB_withSup r hg, readReg_withSup r hg,
    memWrite_withSup]
  split
  · cases s.memWrite (s.opB b) (s.readReg dr) <;> rfl
  · rfl

theorem divuEffect_withSup (cnd : Cond) (dr : Reg) (b : OpB) :
    divuEffect cnd dr b (s.withSup r) = (divuEffect cnd dr b s).map (State.withSup r) := by
  simp only [divuEffect, condHolds_withSup r hg, opB_withSup r hg, aluEffect_withSup r hg]
  split <;> rfl

theorem divsEffect_withSup (cnd : Cond) (dr : Reg) (b : OpB) :
    divsEffect cnd dr b (s.withSup r) = (divsEffect cnd dr b s).map (State.withSup r) := by
  simp only [divsEffect, condHolds_withSup r hg, opB_withSup r hg, readReg_withSup r hg,
    drawIf_withSup, withSup_fresh]
  split
  · rfl
  · exact aluEffect_withSup r (by simpa using hg) _ cnd dr b

/-- The effect of one instruction. -/
theorem singleEffect_withSup (i : Instr) :
    singleEffect i (s.withSup r) = (singleEffect i s).map (State.withSup r) := by
  cases i with
  | brk cnd x =>
    simp only [singleEffect, brkEffect, condHolds_withSup r hg]
    split <;> rfl
  | lock cnd x =>
    simp only [singleEffect, lockEffect, condHolds_withSup r hg]
    split <;> rfl
  | ldilo cnd dr b => exact writeEffect_withSup r hg _ cnd dr b
  | brev cnd dr b => exact writeEffect_withSup r hg (fun _ opb => bitrev opb) cnd dr b
  | mov cnd dr a br bu off => exact movEffect_withSup r hg cnd dr a br bu off
  | cmp cnd dr b | tst cnd dr b => exact compareEffect_withSup r hg _ cnd dr b
  | lod cnd dr b => exact lodEffect_withSup r hg cnd dr b
  | sto cnd dr b => exact stoEffect_withSup r hg cnd dr b
  | divu cnd dr b => exact divuEffect_withSup r hg cnd dr b
  | divs cnd dr b => exact divsEffect_withSup r hg cnd dr b
  | ldi dr i => exact writeReg_withSup r hg dr _
  | popc cnd dr b => exact aluEffect_withSup r hg (fun _ opb => popcResult opb) cnd dr b
  | sub cnd dr b | and cnd dr b | add cnd dr b | or cnd dr b | xor cnd dr b | lsr cnd dr b
  | lsl cnd dr b | asr cnd dr b | mpy cnd dr b | mpyuhi cnd dr b | mpyshi cnd dr b
  | rol cnd dr b => exact aluEffect_withSup r hg _ cnd dr b
  | _ => rfl

/-- The effect of one half. -/
theorem halfEffect_withSup (word : Word) (positions : LdiLayout → List Nat) (cnd : Cond)
    (h : Half) :
    halfEffect word positions cnd h (s.withSup r) =
      (halfEffect word positions cnd h s).map (State.withSup r) := by
  simp only [halfEffect, withSup_cfg, condHolds_withSup r hg]
  split
  · cases s.cfg.vliwLdi with
    | none => rfl
    | some l =>
      simp only
      split
      · rfl
      · exact writeReg_withSup r hg h.dr _
  · exact singleEffect_withSup r hg _

/-! ### The end of a word -/

theorem takeException_withSup (x : Exc) :
    (s.withSup r).takeException x = (s.takeException x).withSup r := by
  simp only [State.takeException, withSup_bank, s.bank_of_user hg]
  rw [← trapToSupervisor_withSup, ← drawIf_withSup]
  rfl

theorem takeBreak_withSup : (s.withSup r).takeBreak = s.takeBreak.withSup r := by
  simp only [State.takeBreak, withSup_bank, s.bank_of_user hg]
  exact (apply_ite (State.withSup r) (s.cc.breakEn = true) s.halt
    ({ s with cc := { s.cc with uBreak := true } } : State).trapToSupervisor).symm

theorem markPhase_withSup : (s.withSup r).markPhase = s.markPhase.withSup r := by
  simp only [State.markPhase, withSup_bank, withSup_phase, s.bank_of_user hg]
  cases s.phase <;> rfl

/-- The end of an effect that an exception or a BREAK leaves in the state it met. -/
theorem finish_withSup {e : Event} (hr : ∀ x t, e = .raised x t → t.cc.gie = true)
    (hb : ∀ t, e = .broke t → t.cc.gie = true) :
    (s.withSup r).finish (e.map (State.withSup r)) = mapNext (State.withSup r) (s.finish e) := by
  have put : ∀ (t : State) v,
      (t.withSup r).setPc s.bank v = (t.setPc s.bank v).withSup r := by
    rw [s.bank_of_user hg]
    exact fun _ _ => rfl
  cases e with
  | done t =>
    simp only [Event.map, finish_done, mapNext_next, withSup_bank, pc_withSup r hg, put]
  | jump v t => simp only [Event.map, finish_jump, mapNext_next, withSup_bank, put]
  | raised x t => exact congrArg _ (takeException_withSup r (hr x t rfl) x)
  | broke t => exact congrArg _ (takeBreak_withSup r (hb t rfl))
  | refused c => rfl

end UserMode

/-- An exception or a BREAK leaves an instruction's effect in the mode it began in. -/
theorem EffectOf.eq_of_raised {i : Instr} {s : State} {e : Event} (h : EffectOf i s e) :
    (∀ x t, e = .raised x t → t = s) ∧ (∀ t, e = .broke t → t = s) := by
  refine ⟨?_, ?_⟩
  · rintro x t rfl
    cases h
    rfl
  · rintro t rfl
    cases h
    rfl

theorem finishCompact_withSup {s : State} (r : RegSet) (hg : s.cc.gie = true) {e : Event}
    (hr : ∀ x t, e = .raised x t → t.cc.gie = true) (hb : ∀ t, e = .broke t → t.cc.gie = true) :
    (s.withSup r).finishCompact (e.map (State.withSup r)) =
      mapNext (State.withSup r) (s.finishCompact e) := by
  cases e with
  | raised x t =>
    have ht := hr x t rfl
    rw [show (s.withSup r).finishCompact ((Event.raised x t).map (State.withSup r)) =
      .next ((t.withSup r).markPhase.takeException x) from rfl, markPhase_withSup r ht,
      takeException_withSup r (by simpa using ht)]
    rfl
  | done t => exact finish_withSup r hg hr hb
  | jump v t => exact finish_withSup r hg hr hb
  | broke t => exact finish_withSup r hg hr hb
  | refused c => rfl

/-- Both halves of a compact word that is not refused: the first leaves the mode as it was. -/
theorem compactEffect_withSup {s : State} (r : RegSet) (hg : s.cc.gie = true) {h1 h2 : Half}
    (v : BitVec 3) (hw : halfWritesCc h1 = false) :
    compactEffect h1 v h2 (s.withSup r) = (compactEffect h1 v h2 s).map (State.withSup r) ∧
      (∀ x t, compactEffect h1 v h2 s = .raised x t → t.cc.gie = true) ∧
      (∀ t, compactEffect h1 v h2 s = .broke t → t.cc.gie = true) := by
  have hfirst : ∀ c1, halfEffect (compactWord h1 v h2) LdiLayout.first c1 h1
      { s.withSup r with phase := .first } =
      (halfEffect (compactWord h1 v h2) LdiLayout.first c1 h1 { s with phase := .first }).map
        (State.withSup r) :=
    fun c1 => halfEffect_withSup (s := { s with phase := .first }) r hg _ _ c1 h1
  unfold compactEffect
  simp only
  rw [hfirst, withSup_cfg]
  generalize firstHalfCond s.cfg.vliwLdi h1 v = c1
  generalize secondHalfCond s.cfg.vliwLdi h1 v = c2
  obtain ⟨_, -, -, -, he1⟩ := halfEffect_effectOf (compactWord h1 v h2) LdiLayout.first c1 h1
    { s with phase := .first }
  cases hf : halfEffect (compactWord h1 v h2) LdiLayout.first c1 h1 { s with phase := .first } with
  | done u =>
    have hgu : ({ u with phase := .second } : State).cc.gie = true := by
      rw [← hg, ← show u.cc = s.cc from (doneWithoutCc_firstHalf hw hf).cc_eq]
    obtain ⟨_, -, -, -, he2⟩ := halfEffect_effectOf (compactWord h1 v h2) LdiLayout.second c2 h2
      { u with phase := .second }
    obtain ⟨hr, hb⟩ := he2.eq_of_raised
    exact ⟨halfEffect_withSup r hgu _ _ c2 h2, fun x t e => by rw [hr x t e]; exact hgu,
      fun t e => by rw [hb t e]; exact hgu⟩
  | _ =>
    obtain ⟨hr, hb⟩ := (hf ▸ he1).eq_of_raised
    exact ⟨rfl, fun x t e => by rw [hr x t e]; exact hg, fun t e => by rw [hb t e]; exact hg⟩

/-- The meaning of a word. -/
theorem exec_withSup {s : State} (r : RegSet) (hg : s.cc.gie = true) (i : Instr) :
    exec i (s.withSup r) = mapNext (State.withSup r) (exec i s) := by
  have gie : ∀ {j : Instr} {e : Event}, EffectOf j s e →
      (∀ x t, e = .raised x t → t.cc.gie = true) ∧ (∀ t, e = .broke t → t.cc.gie = true) :=
    fun he => ⟨fun x t h => by rw [he.eq_of_raised.1 x t h]; exact hg,
      fun t h => by rw [he.eq_of_raised.2 t h]; exact hg⟩
  cases hc : isCompact i with
  | true =>
    cases i with
    | vliw h1 v h2 =>
      cases ho : s.cfg.optVliw with
      | false =>
        rw [exec_vliw_of_disabled (s := s.withSup r) h1 h2 v ho, exec_vliw_of_disabled h1 h2 v ho]
        exact congrArg _ (takeException_withSup r hg _)
      | true =>
        cases hr : compactRefusal s.cfg.vliwLdi h1 h2 with
        | some c =>
          rw [exec_vliw_of_refusal (s := s.withSup r) v ho hr, exec_vliw_of_refusal v ho hr]
          rfl
        | none =>
          obtain ⟨he, hx, hb⟩ := compactEffect_withSup r hg (h2 := h2) v
            (halfWritesCc_of_not_refused hr)
          rw [exec_vliw_of_no_refusal (s := s.withSup r) v ho hr, exec_vliw_of_no_refusal v ho hr,
            he]
          exact finishCompact_withSup r hg hx hb
    | _ => cases hc
  | false =>
    have hv : ∀ h1 v h2, i ≠ .vliw h1 v h2 := by
      rintro h1 v h2 rfl
      cases hc
    rw [exec_eq_finish i _ hv, exec_eq_finish i s hv, singleEffect_withSup r hg]
    obtain ⟨hx, hb⟩ := gie (singleEffect_effectOf i s)
    exact finish_withSup r hg hx hb

/-! ### One step -/

section Step

variable {s : State} (r : RegSet) (hg : s.cc.gie = true)
include hg

theorem fetch_withSup :
    (s.withSup r).fetch = s.fetch.map (fun p => (p.1, p.2.withSup r)) := by
  have hb : ∀ a, (s.withSup r).busError .fetch a = s.busError .fetch a := fun _ => rfl
  have hs : ∀ a, (s.withSup r).staleWords a = s.staleWords a := fun _ => rfl
  have ha : ∀ a, (s.withSup r).busAddr a = s.busAddr a := fun _ => rfl
  simp only [State.fetch, pc_withSup r hg, hb, hs, ha]
  split
  · rfl
  · cases s.staleWords (s.busAddr s.pc) <;> rfl

theorem writerClass_withSup (cnd : Cond) (dr : Reg) :
    writerClass (s.withSup r) cnd dr = writerClass s cnd dr := by
  rw [writerClass, condHolds_withSup r hg, writerClass]

theorem lockClass_withSup (i : Instr) : lockClass (s.withSup r) i = lockClass s i := by
  cases i with
  | lock cnd x => rw [lockClass, condHolds_withSup r hg, lockClass]
  | _ => first | rfl | exact writerClass_withSup r hg _ _

theorem halfLockClass_withSup (cnd : Cond) (h : Half) :
    halfLockClass (s.withSup r) cnd h = halfLockClass s cnd h := by
  simp only [halfLockClass, withSup_cfg, writerClass_withSup r hg, lockClass_withSup r hg]

theorem lockClasses_withSup (i : Instr) : lockClasses (s.withSup r) i = lockClasses s i := by
  cases hc : isCompact i with
  | false =>
    rw [lockClasses_of_not_compact _ hc, lockClasses_of_not_compact _ hc, lockClass_withSup r hg]
  | true =>
    cases i with
    | vliw h1 v h2 =>
      simp only [lockClasses, skipsSecondHalf, withSup_cfg, condHolds_withSup r hg,
        halfLockClass_withSup r hg]
      rfl
    | _ => cases hc

theorem beginWord_withSup (i : Instr) :
    (s.withSup r).beginWord i = (s.beginWord i).withSup r := by
  rw [State.beginWord, lockClasses_withSup r hg]
  rfl

theorem lockHold_withSup : (s.withSup r).lockHold = s.lockHold := by
  have hf : ∀ a, (s.withSup r).fetchable a = s.fetchable a := fun _ => rfl
  simp only [State.lockHold, State.memFollows, pc_withSup r hg, hf, lockClasses_withSup r hg,
    withSup_lock]
  rfl

theorem takesInterrupt_withSup (irq : Bool) :
    (s.withSup r).takesInterrupt irq = s.takesInterrupt irq := by
  rw [State.takesInterrupt, lockHold_withSup r hg]
  rfl

theorem drawsInterrupt_withSup (irq : Bool) :
    (s.withSup r).drawsInterrupt irq = s.drawsInterrupt irq := by
  rw [State.drawsInterrupt, lockHold_withSup r hg]
  rfl

theorem runWord_withSup : runWord (s.withSup r) = mapNext (State.withSup r) (runWord s) := by
  rw [runWord, fetch_withSup r hg, runWord]
  cases hf : s.fetch with
  | none => exact congrArg _ (takeException_withSup r hg _)
  | some p =>
    obtain ⟨w, t⟩ := p
    have hgt : t.cc.gie = true := by
      rcases (fetch_cases hf).2.1 with rfl | rfl <;> exact hg
    have hgb : (t.beginWord (decodeWord w)).cc.gie = true := hgt
    simp only [Option.map_some, beginWord_withSup r hgt, exec_withSup r hgb, withSup_cc]
    cases exec (decodeWord w) (t.beginWord (decodeWord w)) with
    | next u =>
      exact congrArg Host.Outcome.next (afterWord_withSup r u s.cc.gie)
    | fault f => cases f
    | refused c => rfl

theorem stepWith_withSup {inp : Input} (hr : inp.reset = false) :
    stepWith inp (s.withSup r) = mapNext (State.withSup r) (stepWith inp s) := by
  have hgd : (s.drawIf (s.drawsInterrupt inp.irq)).cc.gie = true := by simpa using hg
  simp only [stepWith, hr, withSup_halted, withSup_cc, drawsInterrupt_withSup r hg,
    takesInterrupt_withSup r hg, drawIf_withSup, runWord_withSup r hgd]
  split
  · rename_i h
    cases h
  · split
    · rfl
    · split
      · split <;> rfl
      · split <;> rfl

end Step

/-- Settles O54. -/
theorem userStepIgnoresSupervisorSet : Obligations.UserStepIgnoresSupervisorSet := by
  unfold Obligations.UserStepIgnoresSupervisorSet
  intro s r hg hr
  exact stepWith_withSup (s := s.tick) r hg hr

end Sys2Proof.Machine
end

section
/-! ## Which compact words are refused (30_encoding.md R119 to R121) -/

namespace Sys2Proof

/-- An opcode is its number. -/
theorem Half.op_eq_iff (h : Half) (o : BitVec 5) : h.op = o ↔ h.op.toNat = o.toNat :=
  BitVec.toNat_inj.symm

/-- Load immediates are the opcodes 0x16 and 0x17. -/
theorem Half.isLdi_iff (h : Half) : h.isLdi = true ↔ h.op.toNat = 0x16 ∨ h.op.toNat = 0x17 := by
  rw [Half.isLdi, beq_iff_eq, ← BitVec.toNat_inj, BitVec.extractLsb'_toNat,
    Nat.shiftRight_eq_div_pow, BitVec.toNat_ofNat]
  have := h.op.isLt
  omega

theorem Half.isLdi_eq_false_iff (h : Half) :
    h.isLdi = false ↔ h.op.toNat ≠ 0x16 ∧ h.op.toNat ≠ 0x17 := by
  rw [← Bool.not_eq_true, h.isLdi_iff]
  omega

namespace Machine

/-- The opcodes that write DR, by number. -/
theorem halfWritesDr_iff (h : Half) :
    halfWritesDr h = true ↔
      h.op.toNat ≤ 0x0f ∨ h.op.toNat = 0x12 ∨ (0x14 ≤ h.op.toNat ∧ h.op.toNat ≤ 0x17) := by
  simp only [halfWritesDr, Bool.or_eq_true, decide_eq_true_eq, beq_iff_eq, h.isLdi_iff, h.op_eq_iff]
  simp only [BitVec.toNat_ofNat]
  omega

/-- A first half the spec does not refuse (30_encoding.md R120, R121), load immediates apart. -/
structure FirstOk (h : Half) : Prop where
  movOk : h.op = 0x0f#5 → h.sel = true
  notCc : h.dr = .cc → halfWritesDr h = false
  notPc : h.dr = .pc → h.op ≠ 0x19#5 ∧ h.op ≠ 0x1a#5

/-- The compact words the model gives a meaning. -/
theorem compactRefusal_eq_none_iff (layout : Option LdiLayout) (h1 h2 : Half) :
    compactRefusal layout h1 h2 = none ↔
      ((h1.isLdi = true ∨ h2.isLdi = true) → layout ≠ none) ∧ FirstOk h1 ∧
        (h2.op = 0x0f#5 → h2.sel = true) := by
  have ite_none : ∀ {p : Prop} [Decidable p] {r : Refusal} {e : Option Refusal},
      (if p then some r else e) = none ↔ ¬p ∧ e = none := by
    intro p _ r e
    split <;> simp [*]
  have hf : FirstOk h1 ↔ (h1.op = 0x0f#5 → h1.sel = true) ∧ (h1.dr = .cc → halfWritesDr h1 = false) ∧
      (h1.dr = .pc → h1.op ≠ 0x19#5 ∧ h1.op ≠ 0x1a#5) :=
    ⟨fun h => ⟨h.movOk, h.notCc, h.notPc⟩, fun ⟨hm, hc, hp⟩ => ⟨hm, hc, hp⟩⟩
  simp only [compactRefusal, ite_none, hf]
  simp only [Bool.and_eq_true, Bool.or_eq_true, Option.isNone_iff_eq_none, not_and, Half.isMov,
    beq_iff_eq, Bool.not_eq_eq_eq_not, Bool.not_true, not_or, Bool.not_eq_false, halfWritesCc,
    Bool.not_eq_true, and_true, ne_eq, and_congr_right_iff]
  intro _
  exact ⟨fun ⟨⟨m1, m2⟩, hc, hb, hk⟩ => ⟨⟨m1, hc, fun hp => ⟨fun e => hb e hp, fun e => hk e hp⟩⟩, m2⟩,
    fun ⟨⟨m1, hc, hp⟩, m2⟩ => ⟨⟨m1, m2⟩, hc, fun e hd => (hp hd).1 e, fun e hd => (hp hd).2 e⟩⟩

/-- A first half that is no load immediate, beside a second half the spec allows, is refused for what
it is itself alone. -/
theorem compactRefusal_eq_none {s : State} {h1 h2 : Half} (hl : h1.isLdi = false) (hf : FirstOk h1)
    (ha : s.halfAllowed h2 = true) : compactRefusal s.cfg.vliwLdi h1 h2 = none := by
  simp only [State.halfAllowed, Bool.and_eq_true, Bool.or_eq_true, Bool.not_eq_true',
    Option.isSome_iff_ne_none] at ha
  obtain ⟨hm, hlayout⟩ := ha
  refine (compactRefusal_eq_none_iff _ _ _).2 ⟨fun h => ?_, hf, fun ho => ?_⟩
  · rcases h with h | h
    · rw [hl] at h; cases h
    · rcases hlayout with h' | h'
      · rw [h] at h'; cases h'
      · exact h'
  · simpa [ho] using hm

/-! ## What a first half comes to -/

/-- The half's opcode writes DR, and in `s` it meets no fault. -/
def State.WritesCleanly (s : State) (h : Half) : Prop :=
  (h.op = 0x0f#5 → h.sel = true) ∧
    (h.op.toNat ≤ 0x0f ∨ (h.op = 0x12#5 ∧ s.busError .read (s.halfOperand h) = false) ∨
      ((h.op = 0x14#5 ∨ h.op = 0x15#5) ∧ s.halfOperand h ≠ 0#32))

/-- What `halfCompletes` says, kind by kind. -/
inductive CompletesFirst (s : State) (cnd : Cond) (h : Half) : Prop where
  | compare (ho : h.op = 0x10#5 ∨ h.op = 0x11#5)
  | noop (ho : h.op = 0x18#5) (hd : h.dr = .pc)
  | writes (j : Fin 14) (hd : h.dr = .gpr j) (hw : s.WritesCleanly h)
  | store (ho : h.op = 0x13#5) (hb : s.busError .write (s.halfOperand h) = false)
  | fails (hc : s.condHolds cnd = false) (ho : h.op.toNat ≤ 0x15)
      (hd : h.op = 0x13#5 ∨ h.dr ≠ .cc) (hm : h.op = 0x0f#5 → h.sel = true)

/-- The half is neither a load immediate nor a MOV with sel = 0. -/
theorem isLdiOrMovImmediate_eq_false_iff (h : Half) :
    isLdiOrMovImmediate h = false ↔ h.isLdi = false ∧ (h.op = 0x0f#5 → h.sel = true) := by
  simp only [isLdiOrMovImmediate, Bool.or_eq_false_iff, Bool.and_eq_false_imp, beq_iff_eq,
    Bool.not_eq_false']

theorem movImmediate_eq_false_iff (h : Half) :
    (h.isMov && !h.sel) = false ↔ (h.op = 0x0f#5 → h.sel = true) := by
  simp [Half.isMov]

theorem completesFirst_of_halfCompletes {s : State} {cnd : Cond} {h : Half}
    (hc : s.halfCompletes cnd h = true) : CompletesFirst s cnd h := by
  have clean : ∀ {o : BitVec 5}, o ≠ 0x0f#5 → h.op = o → (h.op = 0x0f#5 → h.sel = true) :=
    fun ne e e' => absurd (e.symm.trans e') ne
  simp only [State.halfCompletes, plainHalf, Bool.or_eq_true, Bool.and_eq_true, beq_iff_eq,
    decide_eq_true_eq, Bool.not_eq_true', bne_iff_ne, isLdiOrMovImmediate_eq_false_iff,
    movImmediate_eq_false_iff] at hc
  rcases hc with (((((ho | ⟨ho, hd⟩) | ⟨⟨hg, hlow⟩, hm⟩) | ⟨hf, hk⟩) | ⟨ho, hb⟩) | ⟨⟨ho, hg⟩, hb⟩) |
    ⟨⟨ho, hg⟩, hz⟩
  · exact .compare ho
  · exact .noop ho hd
  · obtain ⟨j, hd⟩ := Reg.exists_gpr hg
    exact .writes j hd ⟨hm, .inl hlow⟩
  · rcases hk with ho | ⟨⟨hd, hl, hm⟩, hops⟩
    · exact .fails hf (by simp [ho]) (.inl ho) (clean (by decide) ho)
    · refine .fails hf ?_ (.inr hd) hm
      rcases hops with (ho | ho) | ho
      · omega
      · simp [ho]
      · simp [ho]
  · exact .store ho hb
  · obtain ⟨j, hd⟩ := Reg.exists_gpr hg
    exact .writes j hd ⟨clean (by decide) ho, .inr (.inl ⟨ho, hb⟩)⟩
  · obtain ⟨j, hd⟩ := Reg.exists_gpr hg
    refine .writes j hd ⟨?_, .inr (.inr ⟨ho, hz⟩)⟩
    rcases ho with ho | ho
    · exact clean (by decide) ho
    · exact clean (by decide) ho

/-- A half that writes DR cleanly, its condition holding, writes a result to DR. -/
theorem writesResult_of_writesCleanly {s : State} {cnd : Cond} {h : Half}
    (hw : s.WritesCleanly h) (hc : s.condHolds cnd = true) :
    WritesResult s h.dr (singleEffect (halfInstr cnd h) s) := by
  obtain ⟨hm, ho | ⟨ho, hb⟩ | ⟨ho | ho, hz⟩⟩ := hw
  · exact writesResult_half ho hm hc
  · rw [halfInstr_lod cnd ho]
    show WritesResult s h.dr (lodEffect cnd h.dr h.opB s)
    rw [lodEffect_ok h.dr hc (by rw [opB_half]; exact hb)]
    exact writesResult_writeReg s h.dr s.fresh _
  · rw [halfInstr_divu cnd ho]
    have hz' : s.opB h.opB ≠ 0#32 := by rwa [opB_half]
    show WritesResult s h.dr (divuEffect cnd h.dr h.opB s)
    rw [divuEffect, if_neg (by simp [hz'])]
    exact writesResult_aluEffect _ h.dr h.opB false hc
  · rw [halfInstr_divs cnd ho]
    have hz' : s.opB h.opB ≠ 0#32 := by rwa [opB_half]
    show WritesResult s h.dr (divsEffect cnd h.dr h.opB s)
    rw [divsEffect, if_neg (by simp [hz'])]
    exact writesResult_aluEffect _ h.dr h.opB _ hc

/-- A first half is refused for a write of register 14, for a BREAK, or for a LOCK. -/
theorem firstOk_of_op {h : Half} (hm : h.op = 0x0f#5 → h.sel = true)
    (hcc : h.dr = .cc → halfWritesDr h = false)
    (hpc : h.op.toNat ≤ 0x18 ∨ 0x1b ≤ h.op.toNat ∨ h.dr ≠ .pc) : FirstOk h := by
  refine ⟨hm, hcc, fun hd => ?_⟩
  constructor <;>
  · intro e
    simp [e, hd] at hpc

theorem WritesResult.eq_done {s : State} {j : Fin 14} {e : Event}
    (h : WritesResult s (.gpr j) e) : ∃ f n r, e =
      .done (({ s.withRegs s.bank { s.regs s.bank with flags := f } with
        fresh := n } : State).setGpr s.bank j r) := by
  obtain ⟨f, n, r⟩ := h
  exact ⟨f, n, r, rfl⟩

theorem WritesResult.eq_jump {s : State} {e : Event} (h : WritesResult s .pc e) :
    ∃ u r, e = .jump r u := by
  obtain ⟨f, n, r⟩ := h
  exact ⟨_, _, rfl⟩

/-- A half that writes DR cleanly is refused only where DR is register 14. -/
theorem State.WritesCleanly.firstOk {s : State} {h : Half} (hw : s.WritesCleanly h)
    (hd : h.dr ≠ .cc) : h.isLdi = false ∧ FirstOk h := by
  obtain ⟨hm, ho⟩ := hw
  have hn : h.op.toNat ≤ 0x15 := by
    rcases ho with ho | ⟨ho, -⟩ | ⟨ho | ho, -⟩
    · omega
    all_goals simp [ho]
  exact ⟨h.isLdi_eq_false_iff.2 (by omega),
    firstOk_of_op hm (fun e => absurd e hd) (.inl (by omega))⟩

/-- A first half that completes is not refused. -/
theorem CompletesFirst.firstOk {s : State} {cnd : Cond} {h : Half} (hc : CompletesFirst s cnd h) :
    h.isLdi = false ∧ FirstOk h := by
  have noDr : ∀ {o : BitVec 5}, h.op = o → o = 0x10#5 ∨ o = 0x11#5 ∨ o = 0x13#5 ∨ o = 0x18#5 →
      h.isLdi = false ∧ FirstOk h := by
    rintro o rfl ho
    rw [h.isLdi_eq_false_iff]
    rcases ho with e | e | e | e <;>
      exact ⟨by simp [e], firstOk_of_op (by simp [e]) (by simp [halfWritesDr, Half.isLdi, e])
        (by simp [e])⟩
  cases hc with
  | compare ho => exact ho.elim (fun e => noDr e (by decide)) (fun e => noDr e (by decide))
  | noop ho _ => exact noDr ho (by decide)
  | store ho _ => exact noDr ho (by decide)
  | writes j hd hw => exact hw.firstOk (by simp [hd])
  | fails _ ho hd hm =>
    rcases hd with e | hd
    · exact noDr e (by decide)
    · exact ⟨h.isLdi_eq_false_iff.2 (by omega),
        firstOk_of_op hm (fun e => absurd e hd) (.inl (by omega))⟩

/-- A first half that completes does so. -/
theorem CompletesFirst.done {s : State} {cnd : Cond} {h : Half} (hc : CompletesFirst s cnd h) :
    ∃ u, singleEffect (halfInstr cnd h) s = .done u := by
  have compare : ∀ f, ∃ u, compareEffect f cnd h.dr h.opB s = .done u := by
    intro f
    unfold compareEffect
    split <;> exact ⟨_, rfl⟩
  have fails : h.op.toNat ≤ 0x15 → s.condHolds cnd = false →
      ∃ u, singleEffect (halfInstr cnd h) s = .done u :=
    fun ho hf => ⟨s, singleEffect_half_of_fails ho hf⟩
  cases hc with
  | compare ho =>
    rcases ho with ho | ho
    · rw [halfInstr_cmp cnd ho]
      exact compare subResult
    · rw [halfInstr_tst cnd ho]
      exact compare andResult
  | noop ho hd =>
    rw [halfInstr_noop cnd ho hd]
    exact ⟨s, rfl⟩
  | store ho hb =>
    cases hf : s.condHolds cnd with
    | false => exact fails (by simp [ho]) hf
    | true =>
      rw [halfInstr_sto cnd ho]
      exact ⟨_, stoEffect_ok h.dr hf (by rw [opB_half]; exact hb)⟩
  | writes j hd hw =>
    cases hf : s.condHolds cnd with
    | false =>
      obtain ⟨-, ho | ⟨ho, -⟩ | ⟨ho | ho, -⟩⟩ := hw
      · exact fails (by omega) hf
      all_goals exact fails (by simp [ho]) hf
    | true =>
      have hr := writesResult_of_writesCleanly hw hf
      rw [hd] at hr
      obtain ⟨f, n, r, e⟩ := hr.eq_done
      exact ⟨_, e⟩
  | fails hf ho _ _ => exact fails ho hf

/-- What `halfJumps` says. -/
theorem halfJumps_iff {s : State} {h : Half} :
    s.halfJumps h = true ↔ h.dr = .pc ∧ s.WritesCleanly h ∧ h.isLdi = false := by
  simp only [State.halfJumps, State.WritesCleanly, Bool.or_eq_true, Bool.and_eq_true, beq_iff_eq,
    decide_eq_true_eq, Bool.not_eq_true', bne_iff_ne, isLdiOrMovImmediate_eq_false_iff, or_assoc]
  tauto

/-! ### First halves that raise an exception -/

/-- An unimplemented opcode raises IllegalInstruction whatever its condition (D17). -/
theorem singleEffect_decodeSingle_of_illegal {w : Word} (s : State)
    (h : 0x1b ≤ (opField w).toNat ∨ (0x18 ≤ (opField w).toNat ∧ (drField w).isGpr = true)) :
    singleEffect (decodeSingle w) s = .raised .illegalInstruction s := by
  have shared : ∀ {p c : Cond → BitVec 19 → Instr} {g : Cond → Reg → OpB → Instr},
      (drField w).isGpr = true →
      (∀ cnd dr b, singleEffect (g cnd dr b) s = illegalEffect s) →
      singleEffect (decodeShared w p c g) s = .raised .illegalInstruction s := by
    intro p c g hd hg
    obtain ⟨j, hj⟩ := Reg.exists_gpr hd
    simp only [decodeShared, hj, hg]
    rfl
  unfold decodeSingle
  split
  case h_25 e | h_26 e | h_27 e =>
    rw [e] at h
    exact shared (h.resolve_left (by decide)).2 (fun _ _ _ => rfl)
  case h_28 | h_29 | h_30 | h_31 | h_32 => rfl
  all_goals omega

/-- The opcodes 0x18 to 0x1a with DR = 14 have no meaning (45_special_fp.md R245). -/
theorem singleEffect_decodeSingle_of_reservedCc {w : Word} (s : State)
    (h : 0x18 ≤ (opField w).toNat ∧ (opField w).toNat ≤ 0x1a) (hd : drField w = .cc) :
    singleEffect (decodeSingle w) s = .refused .reservedCcEncoding := by
  unfold decodeSingle
  split
  case h_25 | h_26 | h_27 =>
    simp only [decodeShared, hd]
    rfl
  case h_32 => simp only [imp_false] at *; omega
  all_goals omega

/-- A first half that raises an exception is not refused, and has written nothing. -/
theorem raised_of_halfRaises {s : State} {cnd : Cond} {h : Half} {x : Exc}
    (hr : s.halfRaises cnd h x = true) :
    h.isLdi = false ∧ FirstOk h ∧ singleEffect (halfInstr cnd h) s = .raised x s := by
  have notCc : h.dr ≠ .cc → h.op.toNat ≤ 0x15 → h.op ≠ 0x0f#5 → h.isLdi = false ∧ FirstOk h :=
    fun hd ho hm => ⟨h.isLdi_eq_false_iff.2 (by omega),
      firstOk_of_op (fun e => absurd e hm) (fun e => absurd e hd) (.inl (by omega))⟩
  cases x with
  | illegalInstruction =>
    simp only [State.halfRaises, Bool.or_eq_true, Bool.and_eq_true, decide_eq_true_eq] at hr
    obtain ⟨hop, hdr, -⟩ := fields_expandHalf cnd h
    have hn : 0x18 ≤ h.op.toNat := by omega
    have hno : halfWritesDr h = false := by
      rw [← Bool.not_eq_true, halfWritesDr_iff]
      omega
    refine ⟨h.isLdi_eq_false_iff.2 (by omega), firstOk_of_op (fun e => ?_) (fun _ => hno) ?_,
      singleEffect_decodeSingle_of_illegal s (by rw [hop, hdr]; exact hr)⟩
    · rw [e] at hn
      exact absurd hn (by decide)
    · rcases hr with hr | ⟨-, hg⟩
      · exact .inr (.inl hr)
      · refine .inr (.inr fun e => ?_)
        rw [e] at hg
        cases hg
  | divideByZero =>
    simp only [State.halfRaises, Bool.or_eq_true, Bool.and_eq_true, beq_iff_eq, bne_iff_ne] at hr
    obtain ⟨⟨⟨hc, ho⟩, hd⟩, hz⟩ := hr
    obtain ⟨hu, hs⟩ := divEffects_zero (b := h.opB) h.dr hc (by rw [opB_half]; exact hz)
    rcases ho with ho | ho
    · obtain ⟨hl, hf⟩ := notCc hd (by simp [ho]) (by simp [ho])
      exact ⟨hl, hf, by rw [halfInstr_divu cnd ho]; exact hu⟩
    · obtain ⟨hl, hf⟩ := notCc hd (by simp [ho]) (by simp [ho])
      exact ⟨hl, hf, by rw [halfInstr_divs cnd ho]; exact hs⟩
  | busError =>
    simp only [State.halfRaises, Bool.or_eq_true, Bool.and_eq_true, beq_iff_eq, bne_iff_ne] at hr
    obtain ⟨hc, ⟨⟨ho, hd⟩, hb⟩ | ⟨ho, hb⟩⟩ := hr
    · obtain ⟨hl, hf⟩ := notCc hd (by simp [ho]) (by simp [ho])
      refine ⟨hl, hf, ?_⟩
      rw [halfInstr_lod cnd ho]
      exact lodEffect_busError h.dr hc (by rw [opB_half]; exact hb)
    · refine ⟨by simp [Half.isLdi, ho],
        firstOk_of_op (by simp [ho]) (by simp [halfWritesDr, Half.isLdi, ho]) (by simp [ho]), ?_⟩
      rw [halfInstr_sto cnd ho]
      exact stoEffect_busError h.dr hc (by rw [opB_half]; exact hb)

/-! ## The word, by what its first half comes to -/

section Word

variable {s u : State} {h1 h2 : Half} {v : BitVec 3}

/-- A half that is no load immediate does what the word it stands for does. -/
theorem halfEffect_of_not_ldi (word : Word) (positions : LdiLayout → List Nat) (cnd : Cond)
    {h : Half} (s : State) (hl : h.isLdi = false) :
    halfEffect word positions cnd h s = singleEffect (halfInstr cnd h) s := by
  simp [halfEffect, hl]

/-- The second half begins where a first half that completed has ended. -/
theorem exec_vliw_of_done (ho : s.cfg.optVliw = true)
    (hr : compactRefusal s.cfg.vliwLdi h1 h2 = none)
    (he : halfEffect (compactWord h1 v h2) LdiLayout.first (firstHalfCond s.cfg.vliwLdi h1 v) h1
      { s with phase := .first } = .done u) :
    exec (.vliw h1 v h2) s = s.finishCompact (halfEffect (compactWord h1 v h2) LdiLayout.second
      (secondHalfCond s.cfg.vliwLdi h1 v) h2 { u with phase := .second }) := by
  rw [exec_vliw_of_no_refusal v ho hr, compactEffect]
  simp only [he]

/-- A first half that jumps ends the word. -/
theorem exec_vliw_of_jump {w : Word} (ho : s.cfg.optVliw = true)
    (hr : compactRefusal s.cfg.vliwLdi h1 h2 = none)
    (he : halfEffect (compactWord h1 v h2) LdiLayout.first (firstHalfCond s.cfg.vliwLdi h1 v) h1
      { s with phase := .first } = .jump w u) :
    exec (.vliw h1 v h2) s = .next (u.setPc s.bank w) := by
  rw [exec_vliw_of_no_refusal v ho hr, compactEffect]
  simp only [he]
  rfl

/-- A first half that raises an exception ends the word and marks its phase. -/
theorem exec_vliw_of_raised {x : Exc} (ho : s.cfg.optVliw = true)
    (hr : compactRefusal s.cfg.vliwLdi h1 h2 = none)
    (he : halfEffect (compactWord h1 v h2) LdiLayout.first (firstHalfCond s.cfg.vliwLdi h1 v) h1
      { s with phase := .first } = .raised x u) :
    exec (.vliw h1 v h2) s = .next (u.markPhase.takeException x) := by
  rw [exec_vliw_of_no_refusal v ho hr, compactEffect]
  simp only [he]
  rfl

/-- A first half without a meaning leaves the word without one. -/
theorem exec_vliw_of_refused {c : Refusal} (ho : s.cfg.optVliw = true)
    (hr : compactRefusal s.cfg.vliwLdi h1 h2 = none)
    (he : halfEffect (compactWord h1 v h2) LdiLayout.first (firstHalfCond s.cfg.vliwLdi h1 v) h1
      { s with phase := .first } = .refused c) :
    exec (.vliw h1 v h2) s = .refused c := by
  rw [exec_vliw_of_no_refusal v ho hr, compactEffect]
  simp only [he]
  rfl

/-- The word a half stands for ends as its effect does. -/
theorem exec_halfInstr (cnd : Cond) (h : Half) (s : State) :
    exec (halfInstr cnd h) s = s.finish (singleEffect (halfInstr cnd h) s) :=
  exec_eq_finish _ s (fun h1 v h2 => decodeSingle_ne_vliw _ h1 h2 v)

/-- The first half of a word without a load immediate there. -/
theorem firstHalf_of_not_ldi (hl : h1.isLdi = false) :
    halfEffect (compactWord h1 v h2) LdiLayout.first (firstHalfCond s.cfg.vliwLdi h1 v) h1
      { s with phase := .first } =
      singleEffect (halfInstr (firstCond v) h1) { s with phase := .first } := by
  rw [halfEffect_of_not_ldi _ _ _ _ hl, firstHalfCond_of_not_ldi _ v hl]

end Word

/-- Settles O51: a first half that jumps ends the compact word as it ends its own. -/
theorem compactJumpSkipsSecondHalf : Obligations.CompactJumpSkipsSecondHalf := by
  unfold Obligations.CompactJumpSkipsSecondHalf
  intro h1 h2 v s ho hj hc ha
  obtain ⟨hd, hw, hl⟩ := halfJumps_iff.1 hj
  obtain ⟨-, hf⟩ := hw.firstOk (by simp [hd])
  have hres := writesResult_of_writesCleanly (s := { s with phase := .first }) hw hc
  rw [hd] at hres
  obtain ⟨u, r, e⟩ := hres.eq_jump
  rw [exec_vliw_of_jump ho (compactRefusal_eq_none hl hf ha)
      ((firstHalf_of_not_ldi hl).trans e), exec_halfInstr, e]
  rfl

/-- A fault in a first half marks its phase in user mode. -/
theorem markPhase_of_user {s : State} (hg : s.cc.gie = true) (hp : s.phase = .first) :
    s.markPhase = { s with cc := { s.cc with vph := true } } := by
  simp only [State.markPhase, s.bank_of_user hg, hp]

theorem markPhase_of_supervisor {s : State} (hg : s.cc.gie = false) : s.markPhase = s := by
  simp only [State.markPhase, s.bank_of_supervisor hg]

theorem setUserCause_vph (c : Status) (x : Exc) :
    ({ c with vph := true } : Status).setUserCause x = { c.setUserCause x with vph := true } := by
  cases x <;> rfl

/-- Settles O52: the exception of a first half, with VPH marked in user mode alone. -/
theorem compactFirstHalfFaultSetsPhase : Obligations.CompactFirstHalfFaultSetsPhase := by
  unfold Obligations.CompactFirstHalfFaultSetsPhase
  intro h1 h2 v s x ho hx ha
  obtain ⟨hl, hf, e⟩ := raised_of_halfRaises (s := { s with phase := .first }) hx
  refine ⟨_, exec_vliw_of_raised ho (compactRefusal_eq_none hl hf ha)
    ((firstHalf_of_not_ldi hl).trans e), fun hg => ?_, fun hg => ?_⟩
  · have hpc : s.pc = s.usr.pc := by
      rw [State.pc, s.bank_of_user hg]
      rfl
    rw [markPhase_of_user (s := { s with phase := .first }) hg rfl, hpc, ← setUserCause_vph]
    exact takeException_user
      (s := { s with phase := .first, cc := { s.cc with vph := true } }) x hg
  · rw [markPhase_of_supervisor (s := { s with phase := .first }) hg,
      takeException_sup (s := { s with phase := .first }) x hg]
    exact ⟨rfl, rfl, rfl, rfl, rfl, rfl, rfl, rfl, rfl, fun _ => rfl⟩

/-- A half of the opcodes 0x18 to 0x1a with DR = 14 has no meaning. -/
theorem singleEffect_half_of_reservedCc {cnd : Cond} {h : Half} (s : State)
    (hn : 0x18 ≤ h.op.toNat ∧ h.op.toNat ≤ 0x1a) (hd : h.dr = .cc) :
    singleEffect (halfInstr cnd h) s = .refused .reservedCcEncoding := by
  obtain ⟨hop, hdr, -⟩ := fields_expandHalf cnd h
  exact singleEffect_decodeSingle_of_reservedCc s (by rw [hop]; exact hn) (hdr.trans hd)

/-- Settles O49: what `compactRefusal` does not refuse is refused by the half without a meaning. -/
theorem compactRefusals : Obligations.CompactRefusals := by
  unfold Obligations.CompactRefusals
  intro h1 h2 v s ho h
  cases hr : compactRefusal s.cfg.vliwLdi h1 h2 with
  | some c => exact ⟨c, exec_vliw_of_refusal v ho hr⟩
  | none =>
    obtain ⟨hlayout, hf, hm2⟩ := (compactRefusal_eq_none_iff _ _ _).1 hr
    have notMov : ∀ {k : Half}, (k.op = 0x0f#5 → k.sel = true) → k.op = 0x0f#5 → k.sel ≠ false :=
      fun hm e => by simp [hm e]
    have noDr : h1.dr = .cc → ¬(h1.op.toNat ≤ 0x0f ∨ h1.op.toNat = 0x12 ∨
        (0x14 ≤ h1.op.toNat ∧ h1.op.toNat ≤ 0x17)) := fun hd e => by
      rw [← halfWritesDr_iff, hf.notCc hd] at e
      cases e
    rcases h with ⟨hl, hno⟩ | ⟨e, hs⟩ | ⟨e, hs⟩ | ⟨hd, hn⟩ | ⟨hd, e⟩ | ⟨hd, hlo, hhi⟩ | ⟨hd, e⟩ |
      ⟨hd, e⟩ | ⟨hd, hlo, hhi, hc⟩
    · exact absurd hno (hlayout hl)
    · exact absurd hs (notMov hf.movOk e)
    · exact absurd hs (notMov hm2 e)
    · exact absurd (.inl hn) (noDr hd)
    · exact absurd (.inr (.inl (by simp [e]))) (noDr hd)
    · have hn : 0x18 ≤ h1.op.toNat := by
        by_contra hlt
        exact noDr hd (.inr (.inr ⟨hlo, by omega⟩))
      have hl : h1.isLdi = false := h1.isLdi_eq_false_iff.2 (by omega)
      exact ⟨_, exec_vliw_of_refused ho hr ((firstHalf_of_not_ldi hl).trans
        (singleEffect_half_of_reservedCc _ ⟨hn, hhi⟩ hd))⟩
    · exact absurd e (hf.notPc hd).1
    · exact absurd e (hf.notPc hd).2
    · have hfirst : CompletesFirst { s with phase := .first } (firstCond v) h1 :=
        completesFirst_of_halfCompletes hc
      obtain ⟨u, e⟩ := hfirst.done
      have hl2 : h2.isLdi = false := h2.isLdi_eq_false_iff.2 (by omega)
      refine ⟨.reservedCcEncoding, ?_⟩
      rw [exec_vliw_of_done ho hr ((firstHalf_of_not_ldi hfirst.firstOk.1).trans e),
        halfEffect_of_not_ldi _ _ _ _ hl2, singleEffect_half_of_reservedCc _ ⟨hlo, hhi⟩ hd]
      rfl

end Machine
end Sys2Proof
end

section
/-! ## The second half of a compact word (30_encoding.md R118 to R121) -/

namespace Sys2Proof

/-! ### The immediate a layout lists -/

/-- The bits a layout lists make a number below the power of their count. -/
theorem pickBits_lt (w : Word) (p : List Nat) : pickBits w p < 2 ^ p.length := by
  induction p using List.reverseRecOn with
  | nil => simp [pickBits]
  | append_singleton p x ih =>
    have hb := Bool.toNat_lt (w.getLsbD x)
    simp only [pickBits, List.foldl_append, List.foldl_cons, List.foldl_nil, List.length_append,
      List.length_singleton, pow_succ] at ih ⊢
    omega

/-- The listed bits, the last one least significant. -/
theorem testBit_pickBits (w : Word) (p : List Nat) (d k : Nat) (hk : k < p.length) :
    (pickBits w p).testBit k = w.getLsbD (p.getD (p.length - 1 - k) d) := by
  induction p using List.reverseRecOn generalizing k with
  | nil => simp at hk
  | append_singleton p x ih =>
    have hstep : pickBits w (p ++ [x]) = 2 * pickBits w p + (w.getLsbD x).toNat := by
      simp [pickBits]
    rw [List.length_append, List.length_singleton] at hk ⊢
    rw [hstep]
    cases k with
    | zero =>
      rw [Nat.testBit_zero, Nat.mul_add_mod]
      simp only [Nat.add_sub_cancel, Nat.sub_zero, List.getD_append_right _ _ _ _ (Nat.le_refl _),
        Nat.sub_self, List.getD_cons_zero]
      cases w.getLsbD x <;> rfl
    | succ k =>
      have hhalf : (2 * pickBits w p + (w.getLsbD x).toNat) / 2 = pickBits w p := by
        have hb := Bool.toNat_lt (w.getLsbD x)
        omega
      have hk' : k < p.length := by omega
      rw [Nat.testBit_succ, hhalf, ih k hk', List.getD_append _ _ _ _ (by omega)]
      congr 2
      omega

/-- A load immediate's value is the sign extension of the listed bits. -/
theorem pickSigned_eq_signExtend (w : Word) {p : List Nat} (hp : 0 < p.length) :
    pickSigned w p = (BitVec.ofNat p.length (pickBits w p)).signExtend 32 := by
  have hlt := pickBits_lt w p
  rw [BitVec.signExtend, BitVec.toInt_eq_toNat_cond, BitVec.toNat_ofNat, Nat.mod_eq_of_lt hlt,
    pickSigned]
  simp only [hp, true_and]
  split
  · rw [if_neg (by omega)]
    rfl
  · rw [if_pos (by omega)]
    simp

/-- The bits of a load immediate's value: the listed ones, the first repeated above them. -/
theorem getLsbD_pickSigned (w : Word) {p : List Nat} (hp : 0 < p.length) {k : Nat} (hk : k < 32) :
    (pickSigned w p).getLsbD k = w.getLsbD (p.getD (p.length - 1 - k) (p.headD 0)) := by
  rw [pickSigned_eq_signExtend w hp, BitVec.getLsbD_signExtend, decide_eq_true hk, Bool.true_and]
  split
  · rename_i h
    rw [BitVec.getLsbD_ofNat, decide_eq_true h, Bool.true_and, testBit_pickBits w p _ k h]
  · rw [BitVec.msb_eq_getLsbD_last, BitVec.getLsbD_ofNat, decide_eq_true (by omega), Bool.true_and,
      testBit_pickBits w p (p.headD 0) _ (by omega)]
    congr 2
    omega

namespace Machine

/-! ### A register write that ends an instruction -/

/-- The end of a write of DR, as `movedInto` says it. -/
theorem movedInto_of_writeReg (s : State) (dr : Reg) (v : Word) :
    ∃ t, s.finish (s.writeReg dr v) = .next t ∧ s.movedInto t dr v := by
  cases dr with
  | gpr j =>
    exact ⟨_, rfl, onlyGpr_setGpr j v s.bank (by simp) (by simp) (by simp [State.restKept]),
      fun b => by simp⟩
  | cc => exact ⟨_, rfl, (s.writeCc v).fresh, rfl⟩
  | pc =>
    exact ⟨_, rfl, fun b => by simp, fun b => by simp, ⟨by simp, by simp⟩,
      by simp [State.restKept]⟩

/-! ### Where the second half begins -/

/-- The active PC after an update of the active set is that of the update. -/
theorem pc_withRegs (s : State) (r : RegSet) (n : Nat) :
    ({ s.withRegs s.bank r with fresh := n } : State).pc = r.pc := by
  show ((s.withRegs s.bank r).regs (s.withRegs s.bank r).bank).pc = r.pc
  rw [State.withRegs_bank, State.withRegs_regs_same]

/-- What a first half that completes leaves: the mode, the configuration and the active PC are those the
word began with. -/
theorem DoneWithoutCc.kept {stores : Prop} {s t : State} (h : DoneWithoutCc stores s t) :
    t.cfg = s.cfg ∧ t.bank = s.bank ∧ t.pc = s.pc := by
  have hcc := h.cc_eq
  have hb : t.bank = s.bank := by rw [State.bank, hcc, State.bank]
  obtain ⟨j, hd, hm, -, he⟩ := h
  refine ⟨?_, hb, ?_⟩
  · cases he with
    | cc v n h => exact absurd h hd
    | foreign r v n hg h => rw [hm] at h; cases h
    | _ => rfl
  · cases he with
    | cc v n h => exact absurd h hd
    | foreign r v n hg h => rw [hm] at h; cases h
    | plain g f n => exact pc_withRegs s _ n
    | _ => rfl

/-- A second half ends the word as the word it stands for ends in the state the second half begins
in: a fault there marks no phase. -/
theorem finishCompact_second {s w : State} (hb : w.bank = s.bank) (hp : w.pc = s.pc)
    (hph : w.phase = .second) (cnd : Cond) (h : Half) :
    s.finishCompact (singleEffect (halfInstr cnd h) w) = exec (halfInstr cnd h) w := by
  rw [exec_halfInstr, finish_congr hb hp]
  have he := singleEffect_effectOf (halfInstr cnd h) w
  cases hx : singleEffect (halfInstr cnd h) w with
  | raised x t =>
    rw [hx] at he
    obtain rfl := he.eq_of_raised.1 x t rfl
    have hm : t.markPhase = t := by
      unfold State.markPhase
      rw [hph]
      cases t.bank <;> rfl
    show s.finish (.raised x t.markPhase) = _
    rw [hm]
  | _ => rfl

/-- Where the PC advanced by a word of its own is put back, the second half begins. -/
theorem setPc_restore {s u : State} (hb : u.bank = s.bank) (hp : u.pc = s.pc) (v : Word) :
    (u.setPc s.bank v).setPc s.bank s.pc = u := by
  rw [State.setPc_setPc, ← hb, ← hp]
  cases h : u.bank <;> simp [State.setPc, State.withRegs, State.pc, h]

/-- A first half that is no load immediate and completes: its own word ends where the second half
begins, but for the PC. -/
theorem exec_vliw_of_completesFirst {s : State} {h1 h2 : Half} {v : BitVec 3}
    (ho : s.cfg.optVliw = true) (ha : s.halfAllowed h2 = true)
    (hc : s.halfCompletes (firstCond v) h1 = true) :
    ∃ u : State, u.cfg = s.cfg ∧ u.bank = s.bank ∧ u.pc = s.pc ∧
      exec (halfInstr (firstCond v) h1) { s with phase := .first } =
        .next (u.setPc s.bank (s.pc + 1#32)) ∧
      exec (.vliw h1 v h2) s = s.finishCompact (halfEffect (compactWord h1 v h2) LdiLayout.second
        (secondCond v) h2 { u with phase := .second }) := by
  have hfirst : CompletesFirst { s with phase := .first } (firstCond v) h1 :=
    completesFirst_of_halfCompletes hc
  obtain ⟨hl, hf⟩ := hfirst.firstOk
  obtain ⟨u, e⟩ := hfirst.done
  have hw : halfWritesCc h1 = false := by
    rw [halfWritesCc, Bool.and_eq_false_imp]
    exact fun hd => hf.notCc (by simpa using hd)
  have hhalf := (firstHalf_of_not_ldi (s := s) (h2 := h2) (v := v) hl).trans e
  obtain ⟨hcfg, hb, hp⟩ := (doneWithoutCc_firstHalf hw hhalf).kept
  refine ⟨u, hcfg, hb, hp, ?_, ?_⟩
  · rw [exec_halfInstr, e]
    rfl
  · rw [exec_vliw_of_done ho (compactRefusal_eq_none hl hf ha) hhalf,
      secondHalfCond_of_not_ldi _ v hl]

/-- A load immediate under a layout writes DR, unless it is conditional and its condition fails. -/
theorem halfEffect_of_ldi {h : Half} {u : State} {l : LdiLayout} (word : Word)
    (positions : LdiLayout → List Nat) (cnd : Cond) (hl : h.isLdi = true)
    (hlayout : u.cfg.vliwLdi = some l) :
    halfEffect word positions cnd h u =
      if l.conditional && !u.condHolds cnd then .done u
      else u.writeReg h.dr (pickSigned word (positions l)) := by
  simp only [halfEffect, hl, if_true, hlayout]

/-- A second half ends as `secondHalfEnds` says. -/
theorem secondHalfEnds_of_halfEffect {s u : State} {l : LdiLayout} (hb : u.bank = s.bank)
    (hp : u.pc = s.pc) (hph : u.phase = .second) (hl : u.cfg.vliwLdi = some l) (word : Word)
    (cnd : Cond) (h : Half) :
    secondHalfEnds word l cnd h u
      (s.finishCompact (halfEffect word LdiLayout.second cnd h u)) := by
  unfold secondHalfEnds
  cases hldi : h.isLdi with
  | false =>
    rw [if_neg (by decide), halfEffect_of_not_ldi _ _ _ _ hldi]
    exact finishCompact_second hb hp hph cnd h
  | true =>
    rw [if_pos rfl, halfEffect_of_ldi word _ cnd hldi hl]
    cases hs : l.conditional && !u.condHolds cnd with
    | true =>
      rw [if_pos rfl, if_pos rfl, hb, hp]
      rfl
    | false =>
      rw [if_neg (by decide), if_neg (by decide)]
      obtain ⟨t, ht, hm⟩ := movedInto_of_writeReg u h.dr (pickSigned word l.second)
      refine ⟨t, ?_, hm⟩
      rw [← ht, finish_congr hb hp]
      cases h.dr <;> rfl

/-- A load immediate that does not name register 14 is allowed first under a layout. -/
theorem compactRefusal_of_ldi {s : State} {h1 h2 : Half} {l : LdiLayout}
    (hlayout : s.cfg.vliwLdi = some l) (hl : h1.isLdi = true) (hd : h1.dr ≠ .cc)
    (ha : s.halfAllowed h2 = true) : compactRefusal s.cfg.vliwLdi h1 h2 = none := by
  have hop := h1.isLdi_iff.1 hl
  have hm : (h2.op == 0x0f#5 && !h2.sel) = false := by
    simp only [State.halfAllowed, Bool.and_eq_true, Bool.not_eq_true'] at ha
    exact ha.1
  refine (compactRefusal_eq_none_iff _ _ _).2 ⟨fun _ => by simp [hlayout],
    firstOk_of_op (fun e => ?_) (fun e => absurd e hd) (.inl (by omega)),
    (movImmediate_eq_false_iff h2).1 hm⟩
  rw [e] at hop
  exact absurd hop (by decide)

/-- The effective conditions of a word whose first half is a load immediate: always, where its immediate
takes in a bit of VCND. -/
theorem halfConds_of_ldi {h1 : Half} {l : LdiLayout} {v : BitVec 3} {c1 c2 : Cond}
    (hl : h1.isLdi = true)
    (hcov : l.first.any (fun q => decide (19 ≤ q) && decide (q ≤ 21)) = true →
      c1 = .always ∧ c2 = .always)
    (hunc : l.first.any (fun q => decide (19 ≤ q) && decide (q ≤ 21)) = false →
      c1 = firstCond v ∧ c2 = secondCond v) :
    firstHalfCond (some l) h1 v = c1 ∧ secondHalfCond (some l) h1 v = c2 := by
  cases hc : l.first.any (fun q => decide (19 ≤ q) && decide (q ≤ 21)) with
  | true =>
    obtain ⟨rfl, rfl⟩ := hcov hc
    simp [firstHalfCond, secondHalfCond, vcndCovered, hl, hc]
  | false =>
    obtain ⟨rfl, rfl⟩ := hunc hc
    simp [firstHalfCond, secondHalfCond, vcndCovered, hl, hc]

/-- Settles O60: a load immediate as first half by whether it writes; as second half after any first half
that completes. -/
theorem compactLoadImmediate : Obligations.CompactLoadImmediate := by
  unfold Obligations.CompactLoadImmediate
  refine ⟨fun w p hp _ k hk => getLsbD_pickSigned w hp hk, ?_⟩
  intro h1 h2 v s l ho hlayout
  refine ⟨fun c1 c2 hl1 hd ha hcov hunc => ?_, fun _ hl2 hc => ?_⟩
  · obtain ⟨hc1, hc2⟩ := halfConds_of_ldi hl1 hcov hunc
    rw [← hlayout] at hc1 hc2
    have hr := compactRefusal_of_ldi hlayout hl1 hd ha
    have hfirst := halfEffect_of_ldi (u := { s with phase := .first }) (compactWord h1 v h2)
      LdiLayout.first (firstHalfCond s.cfg.vliwLdi h1 v) hl1 hlayout
    have hcnd : ({ s with phase := .first } : State).condHolds (firstHalfCond s.cfg.vliwLdi h1 v) =
      s.condHolds c1 := congrArg s.condHolds hc1
    rw [hcnd] at hfirst
    refine ⟨fun ⟨hcond, hf⟩ => ?_, fun hwr => ?_⟩
    · rw [if_pos (by simp [hcond, hf])] at hfirst
      rw [exec_vliw_of_done ho hr hfirst, hc2]
      exact secondHalfEnds_of_halfEffect (u := { s with phase := .second }) rfl rfl rfl hlayout _ _ _
    · rw [if_neg (by rcases hwr with h | h <;> simp [h])] at hfirst
      refine ⟨fun j hj => ?_, fun hj => ?_⟩
      · rw [hj] at hfirst
        rw [exec_vliw_of_done ho hr hfirst, hc2]
        refine secondHalfEnds_of_halfEffect (s := s) (u := { s.setGpr s.bank j
          (pickSigned (compactWord h1 v h2) l.first) with phase := .second }) rfl ?_ rfl hlayout _ _ _
        exact State.setGpr_pc s s.bank j _
      · rw [hj] at hfirst
        obtain ⟨t, ht, hmoved⟩ := movedInto_of_writeReg { s with phase := .first } .pc
          (pickSigned (compactWord h1 v h2) l.first)
        exact ⟨t, (exec_vliw_of_jump ho hr hfirst).trans ht, hmoved⟩
  · have ha : s.halfAllowed h2 = true := by
      have hop : h2.op ≠ 0x0f#5 := by
        intro e
        simp [Half.isLdi, e] at hl2
      simp [State.halfAllowed, hlayout, hop]
    obtain ⟨u, hcfg, hb, hp, hx, he⟩ := exec_vliw_of_completesFirst (h2 := h2) ho ha hc
    refine ⟨_, hx, ?_⟩
    rw [setPc_restore hb hp, he]
    exact secondHalfEnds_of_halfEffect (u := { u with phase := .second }) hb hp rfl
      (by rw [← hlayout, ← hcfg]) _ _ _

end Machine
end Sys2Proof
end

section
/-! ## The two halves in order (30_encoding.md R115 to R121) -/

namespace Sys2Proof

/-- The effective conditions by the number in VCND (R118). -/
theorem conds_of_vcnd (v : BitVec 3) :
    firstCond v = [Cond.always, .lt, .z, .nz].getD (v.toNat % 4) .always ∧
      secondCond v = if 4 ≤ v.toNat then firstCond v else .always := by
  revert v
  decide

/-- A half other than MOV stands for the word of its register, opcode, condition and Operand B. -/
theorem halfInstr_eq_decodeWord (cnd : Cond) {h : Half} (ho : h.op ≠ 0x0f#5) :
    halfInstr cnd h = decodeWord (0#1 ++ h.dr.bits ++ h.op ++ cnd.bits ++
      (if h.sel then 1#1 ++ h.f ++ 0#14 else 0#1 ++ BitVec.ofInt 18 h.f.toInt)) := by
  have hm : h.isMov = false := by simp [Half.isMov, ho]
  refine Eq.trans ?_ (decodeWord_stdWord h.op cnd h.dr _).symm
  rw [halfInstr, expandHalf, hm]
  cases h.sel <;> rfl

namespace Machine

/-! ### Halves that change general registers and flags alone -/

/-- From `s` to `u` nothing changed but the PC, the register `dr`, if it is a general one, and flags of the
active set, and the draw counter. -/
structure PlainUpdate (s : State) (dr : Reg) (u : State) : Prop where
  other : u.regs s.bank.other = s.regs s.bank.other
  up : (u.regs s.bank).up = (s.regs s.bank).up
  gpr : ∀ j : Fin 14, dr ≠ .gpr j → (u.regs s.bank).gpr[j] = (s.regs s.bank).gpr[j]
  rest : s.restKept u

theorem PlainUpdate.bank {s u : State} {dr : Reg} (h : PlainUpdate s dr u) : u.bank = s.bank := by
  obtain ⟨-, hcc, -⟩ := h.rest
  rw [State.bank, hcc, State.bank]

/-- Two such updates one after the other. -/
theorem PlainUpdate.trans {s u w : State} {d1 d2 : Reg} (h : PlainUpdate s d1 u)
    (h' : PlainUpdate u d2 w) :
    w.regs s.bank.other = s.regs s.bank.other ∧ (w.regs s.bank).up = (s.regs s.bank).up ∧
      (∀ j : Fin 14, d1 ≠ .gpr j → d2 ≠ .gpr j →
        (w.regs s.bank).gpr[j] = (s.regs s.bank).gpr[j]) ∧ s.restKept w := by
  obtain ⟨hother, hup, hgpr, hcfg, hcc, hic, hlock, hhalted, hphase, hinputs, hmem⟩ := h'
  rw [h.bank] at hother hup hgpr
  obtain ⟨kcfg, kcc, kic, klock, khalted, kphase, kinputs, kmem⟩ := h.rest
  exact ⟨hother.trans h.other, hup.trans h.up,
    fun j h1 h2 => (hgpr j h2).trans (h.gpr j h1),
    hcfg.trans kcfg, hcc.trans kcc, hic.trans kic, hlock.trans klock, hhalted.trans khalted,
    hphase.trans kphase, hinputs.trans kinputs, fun a => (hmem a).trans (kmem a)⟩

/-- The phase is no part of such an update. -/
theorem PlainUpdate.withPhase {s u : State} {dr : Reg} (h : PlainUpdate s dr u) (p : Phase) :
    PlainUpdate { s with phase := p } dr { u with phase := p } := by
  obtain ⟨hcfg, hcc, hic, hlock, hhalted, -, hinputs, hmem⟩ := h.rest
  exact ⟨h.other, h.up, h.gpr, hcfg, hcc, hic, hlock, hhalted, rfl, hinputs, hmem⟩

/-- Flags, general registers other than `dr` kept, and draws. -/
theorem plainUpdate_withRegs (s : State) {dr : Reg} {g : Vector Word 14} (f : Flags) (n : Nat)
    (hg : ∀ j : Fin 14, dr ≠ .gpr j → g[j] = (s.regs s.bank).gpr[j]) :
    PlainUpdate s dr
      { s.withRegs s.bank { s.regs s.bank with gpr := g, flags := f } with fresh := n } := by
  have hsame : ({ s.withRegs s.bank { s.regs s.bank with gpr := g, flags := f } with
      fresh := n } : State).regs s.bank = { s.regs s.bank with gpr := g, flags := f } :=
    State.withRegs_regs_same s s.bank _
  refine ⟨State.withRegs_regs_other s s.bank _, by rw [hsame], fun j hj => ?_,
    rfl, rfl, rfl, rfl, rfl, rfl, rfl, fun _ => rfl⟩
  rw [hsame]
  exact hg j hj

theorem plainUpdate_refl (s : State) (dr : Reg) : PlainUpdate s dr s :=
  ⟨rfl, rfl, fun _ _ => rfl, rfl, rfl, rfl, rfl, rfl, rfl, rfl, fun _ => rfl⟩

theorem plainUpdate_compareEffect (f : Word → Word → AluResult) (cnd : Cond) (dr : Reg) (b : OpB)
    (s : State) : ∃ u, compareEffect f cnd dr b s = .done u ∧ PlainUpdate s dr u := by
  unfold compareEffect
  split
  · refine ⟨_, rfl, ?_⟩
    rw [State.setFlags, drawIf_eq]
    exact plainUpdate_withRegs s _ _ (fun _ _ => rfl)
  · exact ⟨s, rfl, plainUpdate_refl s dr⟩

/-- A write of a general register after a flag update is such an update. -/
theorem WritesResult.plainUpdate {s : State} {j : Fin 14} {e : Event}
    (h : WritesResult s (.gpr j) e) : ∃ u, e = .done u ∧ PlainUpdate s (.gpr j) u := by
  obtain ⟨f, n, r, rfl⟩ := h.eq_done
  refine ⟨_, rfl, ?_⟩
  have e : ({ s.withRegs s.bank { s.regs s.bank with flags := f } with
      fresh := n } : State).setGpr s.bank j r =
      { s.withRegs s.bank { s.regs s.bank with gpr := (s.regs s.bank).gpr.set j r, flags := f } with
        fresh := n } := by
    cases s.bank <;> rfl
  rw [e]
  refine plainUpdate_withRegs s f n fun k hk => ?_
  have hne : j.val ≠ k.val := fun e => hk (by rw [Fin.ext e])
  simp [hne]

/-- A plain half completes with such an update. -/
theorem plainUpdate_of_plainHalf {h : Half} (cnd : Cond) (s : State) (hp : plainHalf h = true) :
    ∃ u, singleEffect (halfInstr cnd h) s = .done u ∧ PlainUpdate s h.dr u := by
  simp only [plainHalf, Bool.or_eq_true, Bool.and_eq_true, beq_iff_eq, decide_eq_true_eq,
    Bool.not_eq_true', movImmediate_eq_false_iff] at hp
  rcases hp with ((ho | ho) | ⟨ho, hd⟩) | ⟨⟨hg, hlow⟩, hm⟩
  · rw [halfInstr_cmp cnd ho]
    exact plainUpdate_compareEffect subResult cnd h.dr h.opB s
  · rw [halfInstr_tst cnd ho]
    exact plainUpdate_compareEffect andResult cnd h.dr h.opB s
  · rw [halfInstr_noop cnd ho hd]
    exact ⟨s, rfl, plainUpdate_refl s h.dr⟩
  · cases hc : s.condHolds cnd with
    | false =>
      exact ⟨s, singleEffect_half_of_fails (by omega) hc, plainUpdate_refl s h.dr⟩
    | true =>
      obtain ⟨j, hj⟩ := Reg.exists_gpr hg
      have hr := writesResult_half hlow hm hc
      rw [hj] at hr ⊢
      exact hr.plainUpdate

/-- A half that is neither a load immediate nor a MOV with sel = 0 is allowed second. -/
theorem halfAllowed_of_not_ldi {h : Half} (s : State) (hl : h.isLdi = false)
    (hm : h.op = 0x0f#5 → h.sel = true) : s.halfAllowed h = true := by
  have hmov : (h.op == 0x0f#5 && !h.sel) = false := (movImmediate_eq_false_iff h).2 hm
  simp only [State.halfAllowed, hmov, hl]
  rfl

/-- A plain half is allowed second. -/
theorem halfAllowed_of_plainHalf {h : Half} (s : State) (hp : plainHalf h = true) :
    s.halfAllowed h = true ∧ h.isLdi = false := by
  have hc : CompletesFirst s .always h :=
    completesFirst_of_halfCompletes (by simp [State.halfCompletes, hp])
  obtain ⟨hl, hf⟩ := hc.firstOk
  exact ⟨halfAllowed_of_not_ldi s hl hf.movOk, hl⟩

/-- Two plain halves one after the other. -/
theorem exec_vliw_of_plain {h1 h2 : Half} (v : BitVec 3) {s : State} (ho : s.cfg.optVliw = true)
    (hp1 : plainHalf h1 = true) (hp2 : plainHalf h2 = true) :
    ∃ u w : State, PlainUpdate { s with phase := .second } h1.dr u ∧ PlainUpdate u h2.dr w ∧
      exec (.vliw h1 v h2) s = .next (w.setPc s.bank (s.pc + 1#32)) := by
  obtain ⟨ha, hl2⟩ := halfAllowed_of_plainHalf s hp2
  obtain ⟨-, hl1⟩ := halfAllowed_of_plainHalf s hp1
  have hf : FirstOk h1 := (completesFirst_of_halfCompletes (s := s) (cnd := .always)
    (by simp [State.halfCompletes, hp1])).firstOk.2
  obtain ⟨u, e1, hu⟩ := plainUpdate_of_plainHalf (firstCond v) { s with phase := .first } hp1
  obtain ⟨w, e2, hw⟩ := plainUpdate_of_plainHalf (secondCond v) { u with phase := .second } hp2
  refine ⟨_, w, hu.withPhase .second, hw, ?_⟩
  rw [exec_vliw_of_done ho (compactRefusal_eq_none hl1 hf ha) ((firstHalf_of_not_ldi hl1).trans e1),
    secondHalfCond_of_not_ldi _ v hl1, halfEffect_of_not_ldi _ _ _ _ hl2, e2]
  rfl

/-- Settles O50: the expansion of a half by its form; the second half begins where the word of the first
has ended, but for the PC; two plain halves are two plain updates. -/
theorem compactHalvesRunInOrder : Obligations.CompactHalvesRunInOrder := by
  unfold Obligations.CompactHalvesRunInOrder
  refine ⟨conds_of_vcnd, fun cnd h ho => halfInstr_eq_decodeWord cnd ho,
    fun cnd h ho hs => halfInstr_mov cnd ho hs, ?_, fun h1 h2 v s ho => ⟨fun hc hm => ?_,
      fun hp1 hp2 => ?_⟩⟩
  · rintro cnd h b rfl
    exact ⟨halfInstr_sub cnd, halfInstr_add cnd, halfInstr_cmp cnd, halfInstr_lod cnd,
      halfInstr_sto cnd, halfInstr_divs cnd⟩
  · obtain ⟨hl2, hm2⟩ := (isLdiOrMovImmediate_eq_false_iff h2).1 hm
    have ha := halfAllowed_of_not_ldi s hl2 hm2
    obtain ⟨u, -, hb, hp, hx, he⟩ := exec_vliw_of_completesFirst (h2 := h2) ho ha hc
    refine ⟨_, hx, ?_⟩
    rw [setPc_restore hb hp, he, halfEffect_of_not_ldi _ _ _ _ hl2]
    exact finishCompact_second (w := { u with phase := .second }) hb hp rfl _ h2
  · obtain ⟨u, w, hu, hw, hx⟩ := exec_vliw_of_plain v ho hp1 hp2
    obtain ⟨hother, hup, hgpr, hrest⟩ := hu.trans hw
    refine ⟨_, hx, ⟨State.setPc_regs_pc_same w s.bank _, ?_⟩, ?_, ?_, fun j h1 h2 => ?_, hrest⟩
    · rw [State.setPc_regs_other]
      exact congrArg RegSet.pc hother
    · rw [State.setPc_regs_other]
      exact hother
    · rw [State.setPc_regs_up]
      exact hup
    · rw [State.setPc_regs_gpr]
      exact hgpr j h1 h2

end Machine
end Sys2Proof
end
